-- ==== Sys2Proof/Word.lean ====
section
/-! DEFINITION. The plain data the whole model is written over: bytes and words of the register window, the two
channels, and the values of the spectral path.

A spectral value is a REAL number (00_scope.md R14, R17).
A real cannot be written out or compared, so the model holds it as a finite expression that names it exactly.
Every value the reference arithmetic produces is a rational combination of cosines of rational turns, or the quotient
of the square roots of two such combinations; those two forms have constructors of their own (`trig`, `rootQuot`).
The other four constructors keep an operation as it was asked for, so that no operation of the arithmetic lacks a
result.  `Sys2Proof.SVal.val` (Safety.lean) gives the real number an expression names. -/

namespace Sys2Proof

/-- One byte of the input stream (20_memory.md R70). -/
abbrev Byte := BitVec 8

/-- One 32-bit word of the register window, and one command word (20_memory.md R72, 30_encoding.md R100). -/
abbrev Word := BitVec 32

/-- One 64-bit value, read as two words (20_memory.md R79). -/
abbrev Dword := BitVec 64

/-- The two channels: 0 is left, 1 is right (00_scope.md R6). -/
inductive Channel where
  | left
  | right
  deriving DecidableEq, Repr

/-- `[(t₁, c₁), …]` names `Σ cᵢ · cos(2π·tᵢ)`.
The model's own normal form: turns strictly rising in [0, 1/4), no coefficient 0, no turn 1/6 (its cosine is 1/2).
A rational number `q` is `[(0, q)]`, zero is `[]`. -/
abbrev Trig := List (Rat × Rat)

/-- A value of the spectral path (00_scope.md R17; 10_state.md R47, R48). -/
inductive SVal where
  /-- the real number the combination of cosines names -/
  | trig (c : Trig)
  /-- `sqrt n / sqrt d` -/
  | rootQuot (n d : Trig)
  | add (a b : SVal)
  | mul (a b : SVal)
  | div (a b : SVal)
  | sqrt (a : SVal)
  deriving DecidableEq, Repr, Inhabited

end Sys2Proof
end

