-- ==== Sys2Proof/Syntax.lean ====
section
/-! DEFINITION. The commands: one constructor per row of spec/opcode_table.json (30_encoding.md R102). -/

namespace Sys2Proof

/-- The nine commands a host writes to CMD, with their operands (30_encoding.md R101, R102). -/
inductive Instr where
  /-- NOP, format Z (40_control.md R125) -/
  | nop
  /-- SRST, format Z (40_control.md R126) -/
  | srst
  /-- DISCARD count, format L: a byte count (41_input.md R147) -/
  | discard (count : Nat)
  /-- FRAME, format Z (42_hpf.md R168) -/
  | frame
  /-- ACC_CLEAR, format Z (43_spectrum.md R185) -/
  | accClear
  /-- ACC_PASS, format Z (43_spectrum.md R186) -/
  | accPass
  /-- ACC_FINAL, format Z (43_spectrum.md R187) -/
  | accFinal
  /-- THDN ch, format C (44_thdn.md R210) -/
  | thdn (ch : Channel)
  /-- MEASURE, format Z (44_thdn.md R218) -/
  | measure
  deriving DecidableEq, Repr

end Sys2Proof
end

