-- ==== Sys2Proof/WellFormed.lean ====
section
/-! DEFINITION. Which terms of `Instr` have an encoding (30_encoding.md R101, R106). -/

namespace Sys2Proof

/-- "An assembler refuses a count outside 0..16777215" (30_encoding.md R106).
A channel outside 0, 1 is no term of `Channel`; the other commands have no operand. -/
def Instr.wellFormed : Instr → Bool
  | .nop       => true
  | .srst      => true
  | .discard n => decide (n ≤ 16777215)
  | .frame     => true
  | .accClear  => true
  | .accPass   => true
  | .accFinal  => true
  | .thdn _    => true
  | .measure   => true

end Sys2Proof
end

