-- ==== Sys2Proof/Decode.lean ====
section
/-! DEFINITION. The command word: its decoder (30_encoding.md R103), its encoder (R106), the opcode map as a table
(R102), and the assembler's command syntax (R106). -/

namespace Sys2Proof

/-- Why a word is ILLEGAL (30_encoding.md R104).  The two behave identically when dispatched. -/
inductive Illegal where
  /-- the OPC is not listed in the opcode map -/
  | reservedOpcode (opc : BitVec 8)
  /-- a reserved operand bit of a listed OPC is not 0 -/
  | reservedOperand (opc : BitVec 8)
  deriving DecidableEq, Repr

/-- bits 31:24, OPC (30_encoding.md R100) -/
def opcOf (w : Word) : BitVec 8 := w.extractLsb' 24 8

/-- bits 23:0, OPD (30_encoding.md R100) -/
def opdOf (w : Word) : BitVec 24 := w.extractLsb' 0 24

/-- Format Z: bits 23:0 must be 0 (30_encoding.md R101). -/
def decodeZ (w : Word) (i : Instr) : Except Illegal Instr :=
  if opdOf w = 0 then .ok i else .error (.reservedOperand (opcOf w))

/-- Format C: bits 23:1 must be 0; bit 0 is the channel (30_encoding.md R101). -/
def decodeC (w : Word) (i : Channel → Instr) : Except Illegal Instr :=
  if w.extractLsb' 1 23 = 0 then .ok (i (if w.getLsbD 0 then .right else .left))
  else .error (.reservedOperand (opcOf w))

/-- Format L: bits 23:0 are the unsigned count (30_encoding.md R101). -/
def decodeL (w : Word) (i : Nat → Instr) : Except Illegal Instr :=
  .ok (i (opdOf w).toNat)

/-- The decoder, a total function of the 32-bit word (30_encoding.md R103). -/
def decode (w : Word) : Except Illegal Instr :=
  match (opcOf w).toNat with
  | 0x00 => decodeZ w .nop
  | 0x01 => decodeZ w .srst
  | 0x02 => decodeL w .discard
  | 0x03 => decodeZ w .frame
  | 0x10 => decodeZ w .accClear
  | 0x11 => decodeZ w .accPass
  | 0x12 => decodeZ w .accFinal
  | 0x20 => decodeC w .thdn
  | 0x21 => decodeZ w .measure
  | _    => .error (.reservedOpcode (opcOf w))

/-- The encoder (30_encoding.md R106).  A count outside its range loses its upper bits; such a term is not well
formed. -/
def encode : Instr → Word
  | .nop         => 0x00000000#32
  | .srst        => 0x01000000#32
  | .discard n   => 0x02000000#32 ||| (BitVec.ofNat 24 n).setWidth 32
  | .frame       => 0x03000000#32
  | .accClear    => 0x10000000#32
  | .accPass     => 0x11000000#32
  | .accFinal    => 0x12000000#32
  | .thdn .left  => 0x20000000#32
  | .thdn .right => 0x20000001#32
  | .measure     => 0x21000000#32

/-- One row of the opcode map: a word is the row's if `w AND mask = pattern` (30_encoding.md R102). -/
structure OpcodeRow where
  mnemonic : String
  pattern  : Word
  mask     : Word
  deriving DecidableEq, Repr

/-- The opcode map of 30_encoding.md R102. -/
def opcodeMap : List OpcodeRow := [
  ⟨"NOP",       0x00000000#32, 0xFFFFFFFF#32⟩,
  ⟨"SRST",      0x01000000#32, 0xFFFFFFFF#32⟩,
  ⟨"DISCARD",   0x02000000#32, 0xFF000000#32⟩,
  ⟨"FRAME",     0x03000000#32, 0xFFFFFFFF#32⟩,
  ⟨"ACC_CLEAR", 0x10000000#32, 0xFFFFFFFF#32⟩,
  ⟨"ACC_PASS",  0x11000000#32, 0xFFFFFFFF#32⟩,
  ⟨"ACC_FINAL", 0x12000000#32, 0xFFFFFFFF#32⟩,
  ⟨"THDN",      0x20000000#32, 0xFFFFFFFE#32⟩,
  ⟨"MEASURE",   0x21000000#32, 0xFFFFFFFF#32⟩]

/-- A row's test of a word (30_encoding.md R102). -/
def OpcodeRow.selects (r : OpcodeRow) (w : Word) : Bool := w &&& r.mask = r.pattern

/-- The mnemonic of a command (30_encoding.md R102). -/
def Instr.mnemonic : Instr → String
  | .nop       => "NOP"
  | .srst      => "SRST"
  | .discard _ => "DISCARD"
  | .frame     => "FRAME"
  | .accClear  => "ACC_CLEAR"
  | .accPass   => "ACC_PASS"
  | .accFinal  => "ACC_FINAL"
  | .thdn _    => "THDN"
  | .measure   => "MEASURE"

/-- An operand as the assembler reads it: a number, or a channel's letter (30_encoding.md R106). -/
inductive AsmOperand where
  | number (n : Nat)
  | L
  | R
  deriving DecidableEq, Repr

/-- The channel an operand names: 0, 1, `L` = 0 or `R` = 1 (30_encoding.md R106). -/
def AsmOperand.channel? : AsmOperand → Option Channel
  | .number 0 => some .left
  | .number 1 => some .right
  | .number _ => none
  | .L        => some .left
  | .R        => some .right

/-- The command syntax of 30_encoding.md R106, a mnemonic and its operands.  "An assembler refuses a count outside
0..16777215 and a channel outside 0, 1, L, R". -/
def assemble (mnemonic : String) (operands : List AsmOperand) : Option Word :=
  match operands with
  | []  =>
    if mnemonic = "NOP" then some (encode .nop)
    else if mnemonic = "SRST" then some (encode .srst)
    else if mnemonic = "FRAME" then some (encode .frame)
    else if mnemonic = "ACC_CLEAR" then some (encode .accClear)
    else if mnemonic = "ACC_PASS" then some (encode .accPass)
    else if mnemonic = "ACC_FINAL" then some (encode .accFinal)
    else if mnemonic = "MEASURE" then some (encode .measure)
    else none
  | [x] =>
    if mnemonic = "DISCARD" then
      match x with
      | .number n => if n ≤ 16777215 then some (encode (.discard n)) else none
      | .L        => none
      | .R        => none
    else if mnemonic = "THDN" then x.channel?.map fun ch => encode (.thdn ch)
    else none
  | _ :: _ :: _ => none

/-- The four bytes of a bus word as a host that views the window as bytes sees them, byte `j` bits `8j+7:8j`
(20_memory.md R79). -/
def wordOfBytes (b0 b1 b2 b3 : Byte) : Word := b3 ++ b2 ++ b1 ++ b0

/-- The command the decoder reads from a table word.  A command is one 32-bit word; bits above `nbits` are 0. -/
def decodeTableWord (nbits w : Nat) : Option Instr :=
  match decode (BitVec.ofNat 32 (w % 2 ^ nbits)) with
  | .ok i    => some i
  | .error _ => none

end Sys2Proof
end

