-- ==== Sys2Proof/Config.lean ====
section
/-! DEFINITION. The implementation parameters of 00_scope.md R9, and the values the spec leaves open.

"A model takes each as an argument": the parameters are a record that the state carries and no step changes, so a
statement about every state is a statement about every implementation.
What the spec leaves open without a value is an opaque constant: nothing in Lean can evaluate it. -/

namespace Sys2Proof

/-- ARITH (00_scope.md R9, R17): how the block computes real arithmetic on the spectral path. -/
inductive Arithmetic where
  /-- Exact real arithmetic, the reference value of R9.  `sineNegated` is the sign σ = -1 of the FFT's sine
  coefficients (43_spectrum.md R183, 93_implementation_defined.md I3). -/
  | exact (sineNegated : Bool)
  /-- Some other realization, the `id`-th of those there are; what it computes is `Config.realization id`. -/
  | realization (id : Nat)
  deriving DecidableEq, Repr

/-- The functions ARITH consists of, each a total function of its operands alone (00_scope.md R17):
"the functions used for cos, the FFT, addition, multiplication, division and sqrt on spectral values". -/
structure ArithOps where
  /-- the cosine of the angle `2π·turn` -/
  cos  : Rat → SVal
  /-- the real FFT: N reals to N reals in half-complex layout (43_spectrum.md R183) -/
  fft  : List SVal → List SVal
  add  : SVal → SVal → SVal
  mul  : SVal → SVal → SVal
  div  : SVal → SVal → SVal
  sqrt : SVal → SVal
  deriving Inhabited

/-- The implementation parameters (00_scope.md R9), constant for one block. -/
structure Params where
  /-- LOG2N_MAX: the largest LOG2N the spectrum memory holds, 2..16 -/
  log2nMax  : Nat
  /-- HMAX: capacity of each HPF circular buffer in samples, 2..131072 -/
  hmax      : Nat
  /-- FIFO_DEPTH: capacity of the input FIFO in bytes, 8..65535 -/
  fifoDepth : Nat
  /-- SENTINEL: the byte that stands for a missing input byte in tolerance mode -/
  sentinel  : Byte
  /-- ARITH -/
  arith     : Arithmetic
  /-- Init takes `initSteps + 1` sequencer steps (70_reset_and_hazards.md R261, 93_implementation_defined.md I8). -/
  initSteps : Nat
  deriving DecidableEq, Repr

/-- NMAX = 2^LOG2N_MAX (00_scope.md R9). -/
def Params.nmax (p : Params) : Nat := 2 ^ p.log2nMax

/-- The legal ranges of 00_scope.md R9. -/
def Params.legal (p : Params) : Bool :=
  decide (2 ≤ p.log2nMax ∧ p.log2nMax ≤ 16 ∧ 2 ≤ p.hmax ∧ p.hmax ≤ 131072 ∧
    8 ≤ p.fifoDepth ∧ p.fifoDepth ≤ 65535)

/-- SENTINEL has no reference value: OPEN (00_scope.md R9, 41_input.md R149).  FREE VALUE, log entry 6. -/
opaque Config.sentinel : Byte

/-- What the `id`-th realization of ARITH computes (00_scope.md R17).  FREE VALUE, log entry 3. -/
opaque Config.realization : Nat → ArithOps

/-- The value the n-th read of a register marked V returns while BUSY = 1: "any 32-bit value"
(20_memory.md R81).  FREE VALUE, log entry 7. -/
opaque Config.volatileRead : Nat → Word

/-- The reference values of 00_scope.md R9; SENTINEL is open there.  `initSteps` and the sign σ have no reference
value: DESIGN CHOICE, log entries 5 and 9. -/
def Params.reference : Params where
  log2nMax  := 16
  hmax      := 19200
  fifoDepth := 4096
  sentinel  := Config.sentinel
  arith     := .exact false
  initSteps := 0

end Sys2Proof
end

