-- ==== Sys2Proof/Machine/Trig.lean ====
section
/-! DEFINITION. Combinations of cosines: the numbers ARITH = exact computes with (00_scope.md R14, R17).

`Trig` is a ring: sums and products of cosines of rational turns are again such sums.
Its sign is decided exactly: by exact normal form, by the relations between roots of unity, by rational enclosures of
growing precision, and last by an enclosure too fine for any combination of that size but zero.
Laws/Trig.lean proves that the sign is the real number's. -/

namespace Sys2Proof

/-! ## Combinations of cosines -/

/-- Adds `c · cos(2π·t)` to a combination, for a turn `t` already in normal form. -/
def Trig.insert (t c : Rat) : Trig → Trig
  | []            => if c = 0 then [] else [(t, c)]
  | (u, d) :: r   =>
    if t < u then (if c = 0 then (u, d) :: r else (t, c) :: (u, d) :: r)
    else if t = u then (if c + d = 0 then r else (u, c + d) :: r)
    else (u, d) :: Trig.insert t c r

/-- The turn in [0, 1/2] with the same cosine: cos has period 1 turn and is even. -/
def foldTurn (t : Rat) : Rat :=
  let f := t - t.floor
  if 1 / 2 < f then 1 - f else f

/-- Adds `c · cos(2π·t)`, any turn: a turn past the quarter is the negated cosine of its complement to the half turn,
the quarter turn's cosine is 0 and the sixth turn's is 1/2. -/
def Trig.addCos (t c : Rat) (a : Trig) : Trig :=
  let g := foldTurn t
  let (h, d) := if 1 / 4 < g then (1 / 2 - g, -c) else (g, c)
  if h = 1 / 4 then a
  else if h = 1 / 6 then a.insert 0 (d / 2)
  else a.insert h d

/-- The rational number `q`. -/
def Trig.ofRat (q : Rat) : Trig := if q = 0 then [] else [(0, q)]

/-- The rational number a combination is written as, if it is one. -/
def Trig.rat? : Trig → Option Rat
  | []           => some 0
  | [(t, c)]     => if t = 0 then some c else none
  | _ :: _ :: _  => none

def Trig.add (a : Trig) : Trig → Trig
  | []          => a
  | (t, c) :: r => (Trig.add a r).insert t c

def Trig.scale (k : Rat) : Trig → Trig
  | []          => []
  | (t, c) :: r => if k = 0 then [] else (t, k * c) :: Trig.scale k r

def Trig.sub (a b : Trig) : Trig := a.add (b.scale (-1))

/-- `a · c·cos(2π·t)`, by cos x · cos y = (cos(x + y) + cos(x − y)) / 2. -/
def Trig.mulCos (t c : Rat) : Trig → Trig
  | []          => []
  | (u, d) :: r => ((Trig.mulCos t c r).addCos (u + t) (c * d / 2)).addCos (u - t) (c * d / 2)

def Trig.mul (a : Trig) : Trig → Trig
  | []          => []
  | (t, c) :: r => (Trig.mul a r).add (a.mulCos t c)

/-! ## The sign of a combination

First by the relations `Σ_{j<p} e(x + j/p) = 0` between roots of unity. -/

/-- The order M of the roots of unity a combination is written in: the least common denominator of its turns. -/
def Trig.order : Trig → Nat
  | []          => 1
  | (t, _) :: r => Nat.lcm t.den (Trig.order r)

/-- Adds `c` at exponent `k` to a combination of powers of a root of unity, exponents strictly rising. -/
def addPower (k : Nat) (c : Rat) : List (Nat × Rat) → List (Nat × Rat)
  | []          => if c = 0 then [] else [(k, c)]
  | (l, d) :: r =>
    if k < l then (if c = 0 then (l, d) :: r else (k, c) :: (l, d) :: r)
    else if k = l then (if c + d = 0 then r else (l, c + d) :: r)
    else (l, d) :: addPower k c r

/-- A combination of cosines as one of powers of `ζ = e(1/M)`: twice `cos(2π·k/M)` is `ζ^k + ζ^(M−k)`. -/
def Trig.powers (m : Nat) : Trig → List (Nat × Rat)
  | []          => []
  | (t, c) :: r =>
    let k := ((t * m).floor % m).toNat
    addPower ((m - k) % m) c (addPower k c (Trig.powers m r))

/-- The largest power of `p` that divides `m`, tried up to `fuel` times. -/
def primePart (p m : Nat) : (fuel : Nat) → Nat
  | 0        => 1
  | fuel + 1 => if m % p = 0 then p * primePart p (m / p) fuel else 1

/-- Removes the powers whose top `p`-digit is `p − 1`, by `ζ^k = −Σ_{1≤j<p} ζ^(k + j·M/p)`. -/
def reduceAt (m p : Nat) : List (Nat × Rat) → List (Nat × Rat)
  | []          => []
  | (k, c) :: r =>
    let pe := primePart p m m
    if m % p = 0 ∧ p * (k % pe) / pe = p - 1 then
      (List.range (p - 1)).foldl (fun a j => addPower ((k + (j + 1) * (m / p)) % m) (-c) a) (reduceAt m p r)
    else addPower k c (reduceAt m p r)

/-- `reduceAt` for every prime that divides `m`, by trial division from `p` on. -/
def reducePrimes (m : Nat) : (p rest fuel : Nat) → List (Nat × Rat) → List (Nat × Rat)
  | _, _, 0, a           => a
  | p, rest, fuel + 1, a =>
    if rest ≤ 1 then a
    else if rest % p = 0 then reducePrimes m (p + 1) (rest / primePart p rest rest) fuel (reduceAt m p a)
    else reducePrimes m (p + 1) rest fuel a

/-- Whether the relations between roots of unity make the combination 0. -/
def Trig.vanishes (a : Trig) : Bool :=
  let m := a.order
  (reducePrimes m 2 m m (a.powers m)).isEmpty

/-! Then by rational enclosures. -/

/-- `Σ_{k ≤ i < k+n} (−1)^(i−k) · term_i`, where `term_{i+1} = term_i · y · (2i+1)/(2i+3)`: with `y = x²`, `k = 0` and
the first term `x`, the first `n` terms of the series of arctan x. -/
def arctanSum (y : Rat) : (n k : Nat) → (term : Rat) → Rat
  | 0, _, _        => 0
  | n + 1, k, term => term - arctanSum y n (k + 1) (term * y * (2 * k + 1) / (2 * k + 3))

/-- `Σ_{k ≤ i < k+n} (−1)^(i−k) · term_i`, where `term_{i+1} = term_i · y / ((2i+1)(2i+2))`: with `y = x²`, `k = 0` and
the first term 1, the first `n` terms of the series of cos x. -/
def cosSum (y : Rat) : (n k : Nat) → (term : Rat) → Rat
  | 0, _, _        => 0
  | n + 1, k, term => term - cosSum y n (k + 1) (term * y / ((2 * k + 1) * (2 * k + 2)))

/-- The largest multiple of `2^−p` that is at most `q`. -/
def roundDown (p : Nat) (q : Rat) : Rat := ((q * 2 ^ p).floor : Rat) / 2 ^ p

/-- The least multiple of `2^−p` that is at least `q`. -/
def roundUp (p : Nat) (q : Rat) : Rat := -roundDown p (-q)

/-- The first `n` terms of arctan(1/q). -/
def arctanInv (q n : Nat) : Rat := arctanSum (1 / (q * q)) n 0 (1 / q)

/-- A lower bound of π, by π/4 = 4·arctan(1/5) − arctan(1/239); an even number of terms is too small, an odd one too
large. -/
def piLower (p : Nat) : Rat := roundDown (p + 8) (16 * arctanInv 5 (2 * (p / 8 + 2)) - 4 * arctanInv 239 (2 * (p / 8 + 2) + 1))

/-- An upper bound of π. -/
def piUpper (p : Nat) : Rat := roundUp (p + 8) (16 * arctanInv 5 (2 * (p / 8 + 2) + 1) - 4 * arctanInv 239 (2 * (p / 8 + 2)))

/-- A lower and an upper bound of `cos(2π·t)`, from a lower and an upper bound of π, for a turn in [0, 1/4], where cos
falls: by its series. -/
def quarterBounds (p : Nat) (lo hi t : Rat) : Rat × Rat :=
  let x := 2 * t * lo
  let y := 2 * t * hi
  (roundDown (p + 8) (cosSum (y * y) (2 * (p / 8 + 4)) 0 1), roundUp (p + 8) (cosSum (x * x) (2 * (p / 8 + 4) + 1) 0 1))

/-- A lower and an upper bound of `cos(2π·t)`, any turn: the cosine past the quarter turn is the negated one of the
complement to the half turn. -/
def cosBounds (p : Nat) (lo hi t : Rat) : Rat × Rat :=
  let g := foldTurn t
  if g ≤ 1 / 4 then quarterBounds p lo hi g
  else
    let b := quarterBounds p lo hi (1 / 2 - g)
    (-b.2, -b.1)

/-- A lower and an upper bound of a combination at precision `p`. -/
def Trig.bounds (p : Nat) (lo hi : Rat) : Trig → Rat × Rat
  | []          => (0, 0)
  | (t, c) :: r =>
    let (l, h) := Trig.bounds p lo hi r
    let (cl, ch) := cosBounds p lo hi t
    if 0 ≤ c then (l + c * cl, h + c * ch) else (l + c * ch, h + c * cl)

/-- The sign the bounds at one of the precisions show. -/
def Trig.signByBounds (a : Trig) : (precisions : List Nat) → Option Ordering
  | []      => none
  | p :: ps =>
    let (l, h) := a.bounds p (piLower p) (piUpper p)
    if 0 < l then some .gt else if h < 0 then some .lt else Trig.signByBounds a ps

/-- The least common denominator of the coefficients. -/
def Trig.denom : Trig → Nat
  | []          => 1
  | (_, c) :: r => Nat.lcm c.den (Trig.denom r)

/-- `Σ 2·|cᵢ|·l`, for a common denominator `l` of the coefficients. -/
def Trig.height (l : Nat) : Trig → Nat
  | []          => 0
  | (_, c) :: r => 2 * (c.num.natAbs * (l / c.den)) + Trig.height l r

/-- A precision that decides.  With M the order, l the denominator and B the height, `2·l` times the combination is an
algebraic integer of the M-th cyclotomic field whose conjugates are at most B in size; their product is an integer, so
unless it is 0 the combination is at least `1 / (2·l·B^M)` in size (DEDUCED; proved in Laws/Trig.lean). -/
def Trig.decisive (a : Trig) : Nat := (a.order + 1) * ((a.height a.denom).log2 + 1)

/-- How a rational number compares with 0. -/
def ratSign (q : Rat) : Ordering := if q < 0 then .lt else if q = 0 then .eq else .gt

/-- How a combination compares with 0, as a real number.  One that even the decisive precision does not tell from 0
is 0. -/
def Trig.sign (a : Trig) : Ordering :=
  match a.rat? with
  | some q => ratSign q
  | none   =>
    if a.vanishes then .eq
    else
      match a.signByBounds [64, 256, 1024, a.decisive] with
      | some o => o
      | none   => .eq

end Sys2Proof
end

