-- ==== Sys2Proof/Machine/Real.lean ====
section
/-! DEFINITION. Real arithmetic on spectral values: the reference realization ARITH = exact (00_scope.md R14, R17),
the order of the reals, and the binary64 readout rnd64 (00_scope.md R16).

Every comparison has the answer the real numbers give it (Laws/Real.lean). -/

namespace Sys2Proof

/-! ## The sign of a value

A value is a quotient of two numbers of a tower of square roots over the combinations of cosines.
Going up one root, a number is `a + b·sqrt r` with a, b and r from below, and its sign follows from theirs and from
that of `a² − b²·r`. -/

/-- A number of a tower of n square roots: one combination of cosines, or the two parts of `a + b·sqrt r`. -/
def Surd : Nat → Type
  | 0     => Trig
  | n + 1 => Surd n × Surd n

/-- A tower of n square roots, each of a number of the tower below it. -/
inductive Tower : Nat → Type where
  | base : Tower 0
  | root {n : Nat} (t : Tower n) (r : Surd n) : Tower (n + 1)

def Surd.ofTrig (c : Trig) : (n : Nat) → Surd n
  | 0     => c
  | n + 1 => (Surd.ofTrig c n, Surd.ofTrig [] n)

def Surd.add : (n : Nat) → Surd n → Surd n → Surd n
  | 0, a, b         => Trig.add a b
  | n + 1, (a, b), (c, d) => (Surd.add n a c, Surd.add n b d)

def Surd.neg : (n : Nat) → Surd n → Surd n
  | 0, a          => Trig.scale (-1) a
  | n + 1, (a, b) => (Surd.neg n a, Surd.neg n b)

/-- `(a + b·sqrt r)·(c + d·sqrt r) = (a·c + b·d·r) + (a·d + b·c)·sqrt r`, for r at least 0. -/
def Tower.mul : {n : Nat} → Tower n → Surd n → Surd n → Surd n
  | _, .base, a, b                        => Trig.mul a b
  | _, .root (n := n) t r, (a, b), (c, d) =>
    (Surd.add n (t.mul a c) (t.mul r (t.mul b d)), Surd.add n (t.mul a d) (t.mul b c))

/-- The sign of `a + b·sqrt r`, from those of a, of b·sqrt r and of a² − b²·r. -/
def surdSign (a b d : Ordering) : Ordering :=
  if b = .eq then a
  else if a = .eq ∨ a = b then b
  else
    match d with
    | .gt => a
    | .eq => .eq
    | .lt => b

/-- How a number of a tower of roots of positive numbers compares with 0. -/
def Tower.sign : {n : Nat} → Tower n → Surd n → Ordering
  | _, .base, a                   => Trig.sign a
  | _, .root (n := n) t r, (a, b) =>
    surdSign (t.sign a) (t.sign b) (t.sign (Surd.add n (t.mul a a) (Surd.neg n (t.mul r (t.mul b b)))))

/-- A quotient of two numbers, the lower one positive, of a tower over one of n roots; `lift` takes the numbers of the
tower below into the one above. -/
structure Frac (n : Nat) where
  top   : Nat
  tower : Tower top
  lift  : Surd n → Surd top
  num   : Surd top
  den   : Surd top

def Frac.ofTrig {n : Nat} (t : Tower n) (c : Trig) : Frac n where
  top   := n
  tower := t
  lift  := id
  num   := Surd.ofTrig c n
  den   := Surd.ofTrig (Trig.ofRat 1) n

/-- `p` with the value 0. -/
def Frac.zeroed {n : Nat} (p : Frac n) : Frac n :=
  { p with num := Surd.ofTrig [] p.top, den := Surd.ofTrig (Trig.ofRat 1) p.top }

def Frac.plus {n : Nat} (p : Frac n) (q : Frac p.top) : Frac n where
  top   := q.top
  tower := q.tower
  lift  := fun a => q.lift (p.lift a)
  num   := Surd.add q.top (q.tower.mul (q.lift p.num) q.den) (q.tower.mul q.num (q.lift p.den))
  den   := q.tower.mul (q.lift p.den) q.den

def Frac.times {n : Nat} (p : Frac n) (q : Frac p.top) : Frac n where
  top   := q.top
  tower := q.tower
  lift  := fun a => q.lift (p.lift a)
  num   := q.tower.mul (q.lift p.num) q.num
  den   := q.tower.mul (q.lift p.den) q.den

/-- `1 / q`; a quotient by 0, which no rule asks for, counts as 0. -/
def Frac.inverse {n : Nat} (q : Frac n) : Frac n :=
  match q.tower.sign q.num with
  | .gt => { q with num := q.den, den := q.num }
  | .eq => q.zeroed
  | .lt => { q with num := Surd.neg q.top q.den, den := Surd.neg q.top q.num }

/-- `sqrt (a/b) = sqrt (a·b) / b`, in the tower with that root added; the root of a value below 0, which no rule asks
for, counts as 0. -/
def Frac.root {n : Nat} (p : Frac n) : Frac n :=
  let r := p.tower.mul p.num p.den
  match p.tower.sign r with
  | .gt =>
    { top   := p.top + 1
      tower := .root p.tower r
      lift  := fun a => (p.lift a, Surd.ofTrig [] p.top)
      num   := (Surd.ofTrig [] p.top, Surd.ofTrig (Trig.ofRat 1) p.top)
      den   := (p.den, Surd.ofTrig [] p.top) }
  | _   => p.zeroed

/-- A value as a quotient in a tower over `t`. -/
def SVal.frac : SVal → {n : Nat} → Tower n → Frac n
  | .trig c, _, t       => .ofTrig t c
  | .rootQuot a b, _, t =>
    let p := (Frac.ofTrig t a).root
    p.times (Frac.ofTrig p.tower b).root.inverse
  | .add x y, _, t      =>
    let p := x.frac t
    p.plus (y.frac p.tower)
  | .mul x y, _, t      =>
    let p := x.frac t
    p.times (y.frac p.tower)
  | .div x y, _, t      =>
    let p := x.frac t
    p.times (y.frac p.tower).inverse
  | .sqrt x, _, t       => (x.frac t).root

/-- How a value compares with 0, as a real number. -/
def SVal.sign (x : SVal) : Ordering :=
  let p := x.frac .base
  p.tower.sign p.num

/-! ## Spectral values -/

def SVal.ofRat (q : Rat) : SVal := .trig (Trig.ofRat q)

def SVal.zero : SVal := .trig []

/-- Floor of the square root, bit by bit from bit `b` down. -/
def isqrtFrom (n : Nat) : (b acc : Nat) → Nat
  | 0, acc     => if (acc + 1) * (acc + 1) ≤ n then acc + 1 else acc
  | b + 1, acc =>
    let c := acc + 2 ^ (b + 1)
    if c * c ≤ n then isqrtFrom n b c else isqrtFrom n b acc

def isqrt (n : Nat) : Nat := isqrtFrom n (n.log2 / 2 + 1) 0

/-- The square root of a rational number, where it is rational. -/
def ratSqrt? (q : Rat) : Option Rat :=
  let a := isqrt q.num.toNat
  let b := isqrt q.den
  if 0 ≤ q ∧ ((a * a : Nat) : Int) = q.num ∧ b * b = q.den then some ((a : Rat) / b) else none

/-- `sqrt n / sqrt d` in normal form: a positive rational `d` goes into `n`, and a rational root is a rational. -/
def mkRootQuot (n d : Trig) : SVal :=
  match d.rat? with
  | some e =>
    if 0 < e then
      let m := n.scale (1 / e)
      match m.rat?.bind ratSqrt? with
      | some r => .ofRat r
      | none   => .rootQuot m (Trig.ofRat 1)
    else .rootQuot n d
  | none   => if n = [] then SVal.zero else .rootQuot n d

/-- The value as `sqrt n / sqrt d`, where it is known to be at least 0. -/
def SVal.asRootQuot? : SVal → Option (Trig × Trig)
  | .trig c       =>
    if c.sign = .lt then none else some (c.mul c, Trig.ofRat 1)
  | .rootQuot n d => if n.sign ≠ .lt ∧ d.sign = .gt then some (n, d) else none
  | _             => none

/-- The exact sum. -/
def SVal.plus : SVal → SVal → SVal
  | .trig a, .trig b => .trig (a.add b)
  | x, y             => if x = .zero then y else if y = .zero then x else .add x y

/-- The exact product.  `sqrt n · sqrt n = n`, since a root is taken of values at least 0 only (00_scope.md R14). -/
def SVal.times : SVal → SVal → SVal
  | .trig a, .trig b             => .trig (a.mul b)
  | .rootQuot n d, .rootQuot m e =>
    match d.rat? with
    | some q => if n = m ∧ d = e ∧ 0 < q then .trig (n.scale (1 / q)) else .mul (.rootQuot n d) (.rootQuot m e)
    | none   => .mul (.rootQuot n d) (.rootQuot m e)
  | .trig a, .rootQuot n d       =>
    match a.rat? with
    | some q => if 0 ≤ q then mkRootQuot (n.scale (q * q)) d else .mul (.trig a) (.rootQuot n d)
    | none   => .mul (.trig a) (.rootQuot n d)
  | x, y                         => .mul x y

/-- The exact square root. -/
def SVal.root : SVal → SVal
  | .trig a => mkRootQuot a (Trig.ofRat 1)
  | x       => .sqrt x

/-- The exact quotient. -/
def SVal.over : SVal → SVal → SVal
  | .trig a, .trig b =>
    match b.rat? with
    | some q => if q = 0 then .div (.trig a) (.trig b) else .trig (a.scale (1 / q))
    | none   => .div (.trig a) (.trig b)
  | x, y             =>
    match x.asRootQuot?, y.asRootQuot? with
    | some (n, d), some (m, e) => mkRootQuot (n.mul e) (d.mul m)
    | _, _                     => .div x y

/-- How two values compare as reals: by the sign of the difference of two combinations, or of the cross products under
two quotients of roots, or, for any other values, by the sign of the difference as such. -/
def SVal.compare : SVal → SVal → Ordering
  | .trig a, .trig b => (a.sub b).sign
  | x, y             =>
    match x.asRootQuot?, y.asRootQuot? with
    | some (n, d), some (m, e) => ((n.mul e).sub (m.mul d)).sign
    | _, _                     => (SVal.add x (.mul (.ofRat (-1)) y)).sign

/-- `x < y` as reals. -/
def SVal.less (x y : SVal) : Bool := x.compare y = .lt

/-! ## ARITH = exact -/

/-- `cos(2π·k·n/N)` summed against u: `f[k]` for `k ≤ N/2` (43_spectrum.md R183). -/
def cosineSum (len k : Nat) : (n : Nat) → List SVal → SVal
  | _, []     => .zero
  | n, u :: r => (cosineSum len k (n + 1) r).plus (u.times (.trig (Trig.addCos ((k * n : Nat) / (len : Rat)) 1 [])))

/-- `sin(2π·k·n/N)` summed against u, a sine being the cosine a quarter turn later (43_spectrum.md R183). -/
def sineSum (len k : Nat) : (n : Nat) → List SVal → SVal
  | _, []     => .zero
  | n, u :: r => (sineSum len k (n + 1) r).plus (u.times (.trig (Trig.addCos ((k * n : Nat) / (len : Rat) - 1 / 4) 1 [])))

/-- The real FFT's values, the unnormalized discrete Fourier transform in the layout of 43_spectrum.md R183: index k
up to N/2 the cosine sum, index N/2 + k beyond it σ times the sine sum. -/
def exactFft (sineNegated : Bool) (u : List SVal) : List SVal :=
  let len := u.length
  (List.range len).map fun j =>
    if j ≤ len / 2 then cosineSum len j 0 u
    else (SVal.ofRat (if sineNegated then -1 else 1)).times (sineSum len (j - len / 2) 0 u)

/-- The reference realization (00_scope.md R17). -/
def ArithOps.exact (sineNegated : Bool) : ArithOps where
  cos t := .trig (Trig.addCos t 1 [])
  fft   := exactFft sineNegated
  add   := SVal.plus
  mul   := SVal.times
  div   := SVal.over
  sqrt  := SVal.root

/-- The functions of a realization (00_scope.md R17). -/
def Arithmetic.ops : Arithmetic → ArithOps
  | .exact sineNegated => ArithOps.exact sineNegated
  | .realization id    => Config.realization id

/-! ## Rounding -/

/-- `round(a/b)`, half away from zero: floor(a/b + 1/2) for the arguments at least 0 the block rounds (00_scope.md
R15). -/
def roundDiv (a b : Nat) : Nat := (2 * a + b) / (2 * b)

/-- The value of a non-negative binary64 pattern: exponent bits 62:52, significand bits 51:0, subnormal where the
exponent bits are 0 (00_scope.md R16). -/
def binary64Value (bits : Nat) : Rat :=
  let e := bits / 2 ^ 52
  let m := bits % 2 ^ 52
  let sig := if e = 0 then m else 2 ^ 52 + m
  let s := if e = 0 then 1 else e
  if 1075 ≤ s then ((sig * 2 ^ (s - 1075) : Nat) : Rat) else (sig : Rat) / ((2 ^ (1075 - s) : Nat) : Rat)

/-- The largest pattern, from bit `b` down, whose value is at most `x`; patterns rise with their values, and those
above 0x7FEF… are not finite. -/
def binary64Below (x : SVal) : (b acc : Nat) → Nat
  | 0, acc     => acc
  | b + 1, acc =>
    let c := acc + 2 ^ b
    if c < 0x7FF0000000000000 ∧ (x.compare (.ofRat (binary64Value c)) ≠ .lt) then binary64Below x b c
    else binary64Below x b acc

/-- The binary64 pattern nearest to `x ≥ 0`, ties to even: the largest one not above x, or its successor
(00_scope.md R16). -/
def binary64Nearest (x : SVal) : Nat :=
  let c := binary64Below x 63 0
  match x.compare (.ofRat ((binary64Value c + binary64Value (c + 1)) / 2)) with
  | .lt => c
  | .gt => c + 1
  | .eq => if c % 2 = 0 then c else c + 1

/-- `rnd64(x)` (00_scope.md R16; 20_memory.md R80: a zero reads as +0). -/
def rnd64 (x : SVal) : Dword :=
  match x.compare .zero with
  | .lt => BitVec.ofNat 64 (2 ^ 63 + binary64Nearest ((SVal.ofRat (-1)).times x))
  | .eq => 0
  | .gt => BitVec.ofNat 64 (binary64Nearest x)

/-- `rnd64` of a rational value. -/
def rnd64Rat (q : Rat) : Dword := rnd64 (.ofRat q)

end Sys2Proof
end

