-- ==== Sys2Proof/Machine/State.lean ====
section
/-! DEFINITION. The state of the block and of its host, as plain data (10_state.md), and the state right after reset
(10_state.md R53, 70_reset_and_hazards.md R260). -/

namespace Sys2Proof.Machine

/-- An array of the block (HBUF, SPEC): the elements that differ from the value an unlisted index reads as, with
their indices, in rising order.  Equal arrays are equal lists (`Memory.wf`, Machine/Ops.lean). -/
abbrev Memory (α : Type) := List (Nat × α)

/-- The error codes of STATUS.ERR that the block writes (60_exceptions.md R231): 5..15 are never written. -/
inductive ErrCode where
  | none
  /-- 1, ERR_ILLEGAL: the dispatched word decodes to ILLEGAL -/
  | illegal
  /-- 2, ERR_CFG: a configuration register value makes the command impossible -/
  | cfg
  /-- 3, ERR_INPUT: the stream ended before the bytes a command needs, in strict mode -/
  | input
  /-- 4, ERR_SEQ: a command issued in an accumulator state where it has no meaning -/
  | seq
  deriving DecidableEq, Repr

/-- STATUS.ACCST (10_state.md R46); encoding 3 never occurs. -/
inductive AccPhase where
  | none
  | opened
  | final
  deriving DecidableEq, Repr

/-- STATUS.HPFST (10_state.md R43); encoding 3 never occurs. -/
inductive HpfPhase where
  | uninit
  | fill
  | run
  deriving DecidableEq, Repr

/-- The configuration registers, each by its defined bits; the others read 0 and ignore writes (10_state.md
R32-R38). -/
structure Cfg where
  /-- CTRL: 0 HPFEN, 1 W16, 2 TOL, 3 IE_DONE, 4 IE_ERR (R33) -/
  ctrl   : BitVec 5
  /-- SRATE (R34) -/
  srate  : Word
  /-- LOG2N (R35) -/
  log2n  : BitVec 5
  /-- NAVG (R36) -/
  navg   : Word
  /-- TFREQ0 (R37) -/
  tfreq0 : Word
  /-- TFREQ1 (R37) -/
  tfreq1 : Word
  /-- HALFW0 (R38) -/
  halfw0 : BitVec 16
  /-- HALFW1 (R38) -/
  halfw1 : BitVec 16
  deriving DecidableEq, Repr

/-- One channel of the high-pass filter (10_state.md R44). -/
structure HpfChan where
  /-- HBUF[c][i], 32-bit two's-complement container values; an unlisted index reads 0 -/
  buf : Memory Word
  /-- HSUM[c], a 64-bit two's-complement integer -/
  sum : Dword
  /-- HCUR[c] -/
  cur : Word
  deriving DecidableEq, Repr

/-- One channel's THD+n result registers (10_state.md R48). -/
structure Result where
  /-- STATUS.RESVc -/
  valid  : Bool
  fbin   : Word
  sigP   : SVal
  noiseP : SVal
  sig    : SVal
  noise  : SVal
  thdn   : SVal
  deriving DecidableEq, Repr

/-- The progress p of a running command (10_state.md R31, R51): "the frames taken so far, the per-channel pass
buffer X, the bytes left to discard, the sub-step of MEASURE". -/
inductive Progress where
  /-- no step taken yet -/
  | start
  /-- only `complete` is left (40_control.md R124) -/
  | finish
  /-- DISCARD: bytes left to take -/
  | discard (left : Nat)
  /-- FRAME: the two outputs FrameIn returned -/
  | output (y0 y1 : Rat)
  /-- ACC_PASS: the pass buffer, `xs[n] = (X[0][n], X[1][n])` -/
  | pass (xs : List (Rat × Rat))
  /-- MEASURE: passes left to accumulate, and the pass buffer of the one being gathered -/
  | measurePass (left : Nat) (xs : List (Rat × Rat))
  /-- MEASURE: the THDN sub-step of a channel comes next -/
  | measureThdn (ch : Channel)
  deriving DecidableEq, Repr

/-- SEQ, the sequencer's control state (10_state.md R31). -/
inductive Seq where
  | idle
  /-- the command word w is running, at progress p -/
  | busy (w : Word) (p : Progress)
  /-- the clearing after reset or SRST, with the steps left before its last; `srst`: SRST began it, so that it ends
  with DONE = 1 (40_control.md R126, 70_reset_and_hazards.md R260) -/
  | init (left : Nat) (srst : Bool)
  deriving DecidableEq, Repr

/-- What the host does next: one access of the register window (20_memory.md R76, R77), one line of a host program
that repeats (30_encoding.md R108), or the platform's reset input (70_reset_and_hazards.md R260). -/
inductive HostOp where
  /-- a read of `width` bytes at a window offset; the host records the value (`RD`, 30_encoding.md R107) -/
  | read (offset width : Nat)
  /-- a write of `width` bytes at a window offset (`WR`, 30_encoding.md R107) -/
  | write (offset width : Nat) (value : Word)
  /-- `WAIT`: repeat `RD STATUS` until bit 0 of the value read is 0 (30_encoding.md R108) -/
  | wait
  /-- hardware reset, one event (93_implementation_defined.md I15) -/
  | reset
  deriving DecidableEq, Repr

/-- The two agents (00_scope.md R21). -/
inductive Agent where
  | host
  | sequencer
  deriving DecidableEq, Repr

/-- Everything the block and its host hold.  STATUS.BUSY, STATUS.IRQ, STATUS.EOS, ACCST, HPFST and INCTRL are views
of these fields (Machine/Flags.lean, Machine/Bus.lean), so that each bit has one home. -/
structure State where
  /-- LOG2N_MAX, HMAX, FIFO_DEPTH, SENTINEL, ARITH (00_scope.md R9), seen in PARAM and HMAXR (10_state.md R50) -/
  params  : Params
  /-- the configuration registers (10_state.md R32) -/
  cfg     : Cfg
  /-- SEQ (10_state.md R31) -/
  seq     : Seq
  /-- STATUS.STALL (10_state.md R39) -/
  stall   : Bool
  /-- STATUS.DONE (10_state.md R39) -/
  done    : Bool
  /-- STATUS.OVR (10_state.md R39) -/
  ovr     : Bool
  /-- STATUS.DROP (10_state.md R39) -/
  drop    : Bool
  /-- STATUS.ERR (10_state.md R39, 60_exceptions.md R231) -/
  err     : ErrCode
  /-- ERRCMD (10_state.md R40) -/
  errcmd  : Word
  /-- PASSCNT (10_state.md R41) -/
  passcnt : Word
  /-- FIFO, the first byte to leave first (10_state.md R42); LEVEL is its length -/
  fifo    : List Byte
  /-- EOS (10_state.md R42) -/
  eos     : Bool
  /-- HPFST (10_state.md R43) -/
  hpfst   : HpfPhase
  /-- HLEN (10_state.md R43) -/
  hlen    : Word
  /-- HFILL (10_state.md R43) -/
  hfill   : Word
  /-- HBUF[0], HSUM[0], HCUR[0] (10_state.md R44) -/
  hpf0    : HpfChan
  /-- HBUF[1], HSUM[1], HCUR[1] (10_state.md R44) -/
  hpf1    : HpfChan
  /-- ACCST (10_state.md R46) -/
  accst   : AccPhase
  /-- ACCN (10_state.md R46) -/
  accn    : Word
  /-- ACCFS (10_state.md R46) -/
  accfs   : Word
  /-- ACCNAVG (10_state.md R46) -/
  accnavg : Word
  /-- SPEC[0] (10_state.md R47); an unlisted bin reads 0 -/
  spec0   : Memory SVal
  /-- SPEC[1] (10_state.md R47) -/
  spec1   : Memory SVal
  /-- FBIN0, SIGP0, NOISEP0, SIG0, NOISE0, THDN0, RESV0 (10_state.md R48) -/
  res0    : Result
  /-- FBIN1, SIGP1, NOISEP1, SIG1, NOISE1, THDN1, RESV1 (10_state.md R48) -/
  res1    : Result
  /-- Y0 (10_state.md R49) -/
  y0      : Rat
  /-- Y1 (10_state.md R49) -/
  y1      : Rat
  /-- STATUS.YVALID (10_state.md R49) -/
  yvalid  : Bool
  /-- the host's remaining accesses, in program order (20_memory.md R85) -/
  host    : List HostOp
  /-- the values the host has read, oldest first (00_scope.md R22, 30_encoding.md R107) -/
  reads   : List Word
  /-- THE MODEL'S OWN: which agent takes the next steps (20_memory.md R85; log entry 8) -/
  sched   : List Agent
  /-- THE MODEL'S OWN: how many volatile reads have been drawn (20_memory.md R81; log entry 7) -/
  draws   : Nat
  deriving DecidableEq, Repr

/-- There is none: "The block has no traps, no exception vectors and no handler code" (60_exceptions.md R230).  An
error is recorded in STATUS.ERR and is a next state. -/
inductive Fault where
  deriving DecidableEq, Repr

/-- Why a step has no meaning. -/
inductive Refusal where
  /-- Raised by an arm of `exec` for a command without a meaning; there is none.  Safe. -/
  | notModelled (mnemonic : String)
  /-- Raised by the step of a host access that is not 32 bits wide or not aligned: "a model refuses it (it has no
  meaning)" (20_memory.md R71, 93_implementation_defined.md I7).  Safe. -/
  | badAccess (offset width : Nat)
  /-- Raised by the step of a host access at an offset past the window's 4 MiB, which reaches no register of the block
  (20_memory.md R70).  Safe. -/
  | outsideWindow (offset : Nat)
  deriving DecidableEq, Repr

/-- Reset values of the configuration registers (10_state.md R53). -/
def Cfg.reset : Cfg where
  ctrl   := 0
  srate  := 48000
  log2n  := 10
  navg   := 1
  tfreq0 := 0
  tfreq1 := 0
  halfw0 := 6
  halfw1 := 6

/-- Reset values of one filter channel (10_state.md R44). -/
def HpfChan.reset : HpfChan where
  buf := []
  sum := 0
  cur := 0

/-- Reset values of one channel's result registers (10_state.md R48). -/
def Result.reset : Result where
  valid  := false
  fbin   := 0
  sigP   := .trig []
  noiseP := .trig []
  sig    := .trig []
  noise  := .trig []
  thdn   := .trig []

/-- The block right after hardware reset: every element at its reset value and Init begun (10_state.md R53,
70_reset_and_hazards.md R260).  The parameters are the reference ones, SENTINEL the open one; no host access and no
schedule is given (log entries 5, 8, 10). -/
def State.reset : State where
  params  := Params.reference
  cfg     := Cfg.reset
  seq     := .init Params.reference.initSteps false
  stall   := false
  done    := false
  ovr     := false
  drop    := false
  err     := .none
  errcmd  := 0
  passcnt := 0
  fifo    := []
  eos     := false
  hpfst   := .uninit
  hlen    := 0
  hfill   := 0
  hpf0    := HpfChan.reset
  hpf1    := HpfChan.reset
  accst   := .none
  accn    := 0
  accfs   := 0
  accnavg := 0
  spec0   := []
  spec1   := []
  res0    := Result.reset
  res1    := Result.reset
  y0      := 0
  y1      := 0
  yvalid  := false
  host    := []
  reads   := []
  sched   := []
  draws   := 0

end Sys2Proof.Machine
end

