-- ==== Sys2Proof/Machine/Ops.lean ====
section
/-! DEFINITION. The named operations over the arrays, the channels and the sequencer, and the block's one exception
entry (`raise`) with the way out of it (`beginSrst`). -/

namespace Sys2Proof.Machine

/-! ## Arrays -/

/-- Element `i`; `d` is what an unlisted element reads as. -/
def Memory.read {α : Type} (d : α) : Memory α → Nat → α
  | [], _          => d
  | (k, v) :: m, i => if i = k then v else Memory.read d m i

/-- `S[i] <- v` (00_scope.md R18).  Writing what an unlisted element reads as removes the entry. -/
def Memory.write {α : Type} [DecidableEq α] (d : α) (i : Nat) (v : α) : Memory α → Memory α
  | []          => if v = d then [] else [(i, v)]
  | (k, w) :: m =>
    if i < k then (if v = d then (k, w) :: m else (i, v) :: (k, w) :: m)
    else if i = k then (if v = d then m else (i, v) :: m)
    else (k, w) :: Memory.write d i v m

/-- Indices strictly rising from `lo` on, and no entry equal to what an unlisted element reads as. -/
def Memory.wfFrom {α : Type} [DecidableEq α] (d : α) : (lo : Nat) → Memory α → Bool
  | _, []           => true
  | lo, (k, v) :: m => decide (lo ≤ k) && decide (v ≠ d) && Memory.wfFrom d (k + 1) m

/-- The canonical form of an array: equal arrays are equal lists. -/
def Memory.wf {α : Type} [DecidableEq α] (d : α) (m : Memory α) : Bool := Memory.wfFrom d 0 m

/-- HBUF[c][i] as stored; an unlisted sample is 0 (10_state.md R44). -/
def HpfChan.sample (h : HpfChan) (i : Nat) : Word := Memory.read 0 h.buf i

/-! ## Channels -/

/-- The channel's number (00_scope.md R6). -/
def channelNumber : Channel → Nat
  | .left  => 0
  | .right => 1

def State.hpf (s : State) : Channel → HpfChan
  | .left  => s.hpf0
  | .right => s.hpf1

def State.spec (s : State) : Channel → Memory SVal
  | .left  => s.spec0
  | .right => s.spec1

/-- SPEC[c][k] (10_state.md R47). -/
def State.bin (s : State) (c : Channel) (k : Nat) : SVal := Memory.read .zero (s.spec c) k

def State.res (s : State) : Channel → Result
  | .left  => s.res0
  | .right => s.res1

def State.setRes (s : State) (c : Channel) (r : Result) : State :=
  match c with
  | .left  => { s with res0 := r }
  | .right => { s with res1 := r }

/-- TFREQc (10_state.md R37). -/
def State.tfreq (s : State) : Channel → Word
  | .left  => s.cfg.tfreq0
  | .right => s.cfg.tfreq1

/-- HALFWc[15:0] (10_state.md R38). -/
def State.halfw (s : State) : Channel → BitVec 16
  | .left  => s.cfg.halfw0
  | .right => s.cfg.halfw1

/-! ## CTRL's fields (10_state.md R33) -/

def Cfg.hpfen (c : Cfg) : Bool := c.ctrl.getLsbD 0
def Cfg.w16 (c : Cfg) : Bool := c.ctrl.getLsbD 1
def Cfg.tol (c : Cfg) : Bool := c.ctrl.getLsbD 2
def Cfg.ieDone (c : Cfg) : Bool := c.ctrl.getLsbD 3
def Cfg.ieErr (c : Cfg) : Bool := c.ctrl.getLsbD 4

/-! ## The sequencer -/

/-- STATUS.BUSY: "1 while SEQ is Busy or Init" (10_state.md R39). -/
def State.busy (s : State) : Bool :=
  match s.seq with
  | .idle     => false
  | .busy _ _ => true
  | .init _ _ => true

/-- The progress of the running command; a state in which none runs counts as the start of one. -/
def State.progress (s : State) : Progress :=
  match s.seq with
  | .busy _ p => p
  | .idle     => .start
  | .init _ _ => .start

/-- The command goes on at progress `p`: SEQ = Busy(w, p) (10_state.md R31). -/
def State.goOn (s : State) (i : Instr) (p : Progress) : State :=
  { s with seq := .busy (encode i) p }

/-- `complete`: "the command's final step sets SEQ <- Idle, STATUS.BUSY <- 0, STATUS.STALL <- 0, STATUS.DONE <- 1"
(40_control.md R124). -/
def State.complete (s : State) : State :=
  { s with seq := .idle, stall := false, done := true }

/-- `raise E(w)`, "the single error-entry action": ERR and ERRCMD are written, SEQ goes to Idle, BUSY and STALL to 0,
and nothing else changes (60_exceptions.md R236). -/
def State.raise (s : State) (e : ErrCode) (w : Word) : State :=
  { s with err := e, errcmd := w, seq := .idle, stall := false }

/-- `begin_srst()`, one step at the CMD write: the way out of an error (60_exceptions.md R242) and of a running
command (40_control.md R121, R126).  HBUF is 0 from this step on, as 10_state.md R45 asks of every state (log entry 14);
SPEC keeps its contents until `endInit`, and the configuration registers are kept for good. -/
def State.beginSrst (s : State) : State :=
  { s with
    seq     := .init s.params.initSteps true
    stall   := false
    done    := false
    ovr     := false
    drop    := false
    err     := .none
    errcmd  := 0
    fifo    := []
    eos     := false
    hpfst   := .uninit
    hlen    := 0
    hfill   := 0
    hpf0    := HpfChan.reset
    hpf1    := HpfChan.reset
    accst   := .none
    accn    := 0
    accfs   := 0
    accnavg := 0
    passcnt := 0
    res0    := Result.reset
    res1    := Result.reset
    y0      := 0
    y1      := 0
    yvalid  := false }

/-- The last step of Init: the arrays are 0, SEQ is Idle, and DONE is set if SRST began it (40_control.md R126
`end_srst`; 70_reset_and_hazards.md R260: after hardware reset "STATUS.DONE stays 0"). -/
def State.endInit (s : State) (srst : Bool) : State :=
  { s with
    hpf0  := { s.hpf0 with buf := [] }
    hpf1  := { s.hpf1 with buf := [] }
    spec0 := []
    spec1 := []
    seq   := .idle
    done  := if srst then true else s.done }

/-- Hardware reset as one event (70_reset_and_hazards.md R260, 93_implementation_defined.md I15): every element of the
block at its reset value and Init begun.  The parameters are the block's own, and the host's program, its record of
reads and the model's own fields are no part of the block. -/
def State.hardwareReset (s : State) : State :=
  { State.reset with
    params := s.params
    seq    := .init s.params.initSteps false
    host   := s.host
    reads  := s.reads
    sched  := s.sched
    draws  := s.draws }

end Sys2Proof.Machine
end

