-- ==== Sys2Proof/Machine/Flags.lean ====
section
/-! DEFINITION. STATUS, its flags and the interrupt output (10_state.md R39, 60_exceptions.md R240). -/

namespace Sys2Proof.Machine

/-- STATUS.ERR's code (60_exceptions.md R231). -/
def ErrCode.code : ErrCode → BitVec 4
  | .none    => 0
  | .illegal => 1
  | .cfg     => 2
  | .input   => 3
  | .seq     => 4

/-- STATUS.ACCST's encoding (10_state.md R46). -/
def AccPhase.code : AccPhase → BitVec 2
  | .none   => 0
  | .opened => 1
  | .final  => 2

/-- STATUS.HPFST's encoding (10_state.md R43). -/
def HpfPhase.code : HpfPhase → BitVec 2
  | .uninit => 0
  | .fill   => 1
  | .run    => 2

/-- IRQ, "a combinational function of state" (60_exceptions.md R240). -/
def State.irq (s : State) : Bool :=
  (s.done && s.cfg.ieDone) || (decide (s.err ≠ .none) && s.cfg.ieErr)

/-- STATUS as read, bit 31 first (10_state.md R39). -/
def State.statusWord (s : State) : Word :=
  (0 : BitVec 11) ++ BitVec.ofBool s.irq ++ BitVec.ofBool s.eos ++ BitVec.ofBool s.yvalid ++
    BitVec.ofBool s.res1.valid ++ BitVec.ofBool s.res0.valid ++ s.hpfst.code ++ s.accst.code ++ s.err.code ++
    (0 : BitVec 3) ++ BitVec.ofBool s.drop ++ BitVec.ofBool s.ovr ++ BitVec.ofBool s.done ++ BitVec.ofBool s.stall ++
    BitVec.ofBool s.busy

/-- "A write to STATUS clears DONE, OVR and DROP where the written bit is 1 and changes nothing else" (10_state.md
R39, 20_memory.md R77). -/
def State.writeStatus (s : State) (v : Word) : State :=
  { s with
    done := s.done && !v.getLsbD 2
    ovr  := s.ovr && !v.getLsbD 3
    drop := s.drop && !v.getLsbD 4 }

end Sys2Proof.Machine
end

