-- ==== Sys2Proof/Machine/Operands.lean ====
section
/-! DEFINITION. Where the commands' data comes from: the input byte stream, the sample decoder (41_input.md) and the
high-pass filter (42_hpf.md). -/

namespace Sys2Proof.Machine

/-! ## The input port, host side -/

/-- LEVEL (10_state.md R42). -/
def State.level (s : State) : Nat := s.fifo.length

/-- `push(b)`: a byte written when EOS is set or the FIFO is full is dropped with DROP (41_input.md R141). -/
def State.push (s : State) (b : Byte) : State :=
  if s.eos || decide (s.level = s.params.fifoDepth) then { s with drop := true }
  else { s with fifo := s.fifo ++ [b] }

/-- A write of INCTRL: bit 0 = 1 sets EOS, 0 has no effect (41_input.md R142). -/
def State.writeInctrl (s : State) (v : Word) : State :=
  if v.getLsbD 0 then { s with eos := true } else s

/-! ## Bytes -/

/-- What `InByte()` does in one sequencer step. -/
inductive ByteTaken where
  /-- it waits: STALL = 1 and nothing is taken -/
  | waiting (s : State)
  /-- the caller raises ERR_INPUT -/
  | missing (s : State)
  | byte (b : Byte) (s : State)
  deriving DecidableEq, Repr

/-- `InByte()` (41_input.md R140).  DEDUCED, log entry 2: `STALL <- 1` is a step of its own that takes nothing, and
`STALL <- 0` belongs to the step that goes on. -/
def inByte (s : State) : ByteTaken :=
  match s.fifo with
  | b :: rest => .byte b { s with fifo := rest, stall := false }
  | []        =>
    if s.eos then
      (if s.cfg.tol then .byte s.params.sentinel { s with stall := false } else .missing { s with stall := false })
    else .waiting { s with stall := true }

/-! ## Frames -/

/-- Bytes per channel: 2 in 16-bit mode, 4 in 32-bit mode (41_input.md R143). -/
def Cfg.bytesPerChannel (c : Cfg) : Nat := if c.w16 then 2 else 4

/-- A 32-bit sample, its first stream byte container bits 7:0 (41_input.md R144). -/
def sample32 (b0 b1 b2 b3 : Byte) : Word := wordOfBytes b0 b1 b2 b3

/-- A 16-bit sample, its first stream byte container bits 23:16 (41_input.md R145). -/
def sample16 (b0 b1 : Byte) : Word := wordOfBytes 0 0 b0 b1

/-- The container values of a frame's bytes, left first (41_input.md R143). -/
def decodeFrame (w16 : Bool) (b : List Byte) : Word × Word :=
  let at' (j : Nat) : Byte := b.getD j 0
  if w16 then (sample16 (at' 0) (at' 1), sample16 (at' 2) (at' 3))
  else (sample32 (at' 0) (at' 1) (at' 2) (at' 3), sample32 (at' 4) (at' 5) (at' 6) (at' 7))

/-- What `ReadFrame()` does in one sequencer step. -/
inductive FrameTaken where
  /-- it waits: STALL = 1 and nothing is taken -/
  | waiting (s : State)
  /-- the stream ended inside the frame, in strict mode: its bytes are consumed and the caller raises ERR_INPUT -/
  | short (s : State)
  /-- the two container values -/
  | frame (vL vR : Word) (s : State)
  deriving DecidableEq, Repr

/-- `ReadFrame()` (41_input.md R143): the whole frame is taken in one step once its bytes are present; past the end of
the stream the missing bytes are SENTINEL in tolerance mode.  STALL is set and cleared as `inByte` does it (DEDUCED, log
entry 2). -/
def readFrame (s : State) : FrameTaken :=
  let n := 2 * s.cfg.bytesPerChannel
  if n ≤ s.level then
    let v := decodeFrame s.cfg.w16 (s.fifo.take n)
    .frame v.1 v.2 { s with fifo := s.fifo.drop n, stall := false }
  else if s.eos then
    if s.cfg.tol then
      let v := decodeFrame s.cfg.w16 (s.fifo ++ List.replicate (n - s.level) s.params.sentinel)
      .frame v.1 v.2 { s with fifo := [], stall := false }
    else .short { s with fifo := [], stall := false }
  else .waiting { s with stall := true }

/-- The normalized sample of a container value: `v / 2^31` (41_input.md R146). -/
def normalize (v : Word) : Rat := (v.toInt : Rat) / 2 ^ 31

/-! ## The high-pass filter -/

/-- H = SRATE div 10 (42_hpf.md R161). -/
def Cfg.hpfLength (c : Cfg) : Nat := c.srate.toNat / 10

/-- Check (d) of 60_exceptions.md R233: H < 2 or H > HMAX. -/
def State.hpfLengthBad (s : State) : Bool :=
  decide (s.cfg.hpfLength < 2 ∨ s.params.hmax < s.cfg.hpfLength)

/-- `hpf_start()` past its check (42_hpf.md R161). -/
def State.hpfStart (s : State) : State :=
  { s with hlen := BitVec.ofNat 32 s.cfg.hpfLength, hfill := 0, hpfst := .fill }

/-- One channel of a preload step: `HBUF[c][HFILL] <- v; HSUM[c] <- HSUM[c] + v` (42_hpf.md R162). -/
def HpfChan.preload (h : HpfChan) (fill : Nat) (v : Word) : HpfChan :=
  { h with
    buf := Memory.write 0 fill v h.buf
    sum := BitVec.ofInt 64 (h.sum.toInt + v.toInt) }

/-- `hpf_preload_step()` past its ReadFrame (42_hpf.md R162). -/
def State.hpfPreload (s : State) (vL vR : Word) : State :=
  let h0 := s.hpf0.preload s.hfill.toNat vL
  let h1 := s.hpf1.preload s.hfill.toNat vR
  if s.hfill + 1 = s.hlen - 1 then
    { s with
      hfill := s.hfill + 1
      hpfst := .run
      hpf0  := { h0 with cur := s.hlen - 1 }
      hpf1  := { h1 with cur := s.hlen - 1 } }
  else { s with hfill := s.hfill + 1, hpf0 := h0, hpf1 := h1 }

/-- `hpf_step(c, v)` on one channel: the channel after it, and the output y (42_hpf.md R163). -/
def HpfChan.step (h : HpfChan) (hlen : Nat) (v : Word) : HpfChan × Rat :=
  let cur := h.cur.toNat
  let sum := BitVec.ofInt 64 (h.sum.toInt + v.toInt - (h.sample cur).toInt)
  let buf := Memory.write 0 cur v h.buf
  let j := (cur + hlen / 2) % hlen
  let y := ((Memory.read 0 buf j).toInt : Rat) / 2 ^ 31 - (sum.toInt : Rat) / (hlen * 2 ^ 31)
  ({ buf := buf, sum := sum, cur := BitVec.ofNat 32 ((cur + 1) % hlen) }, y)

/-- What `FrameIn()` does in one sequencer step. -/
inductive FrameStep where
  /-- it waits: STALL = 1 and nothing is taken -/
  | waiting (s : State)
  /-- `hpf_start` or a preload step: no frame comes out of it -/
  | preparing (s : State)
  /-- the caller raises -/
  | failed (e : ErrCode) (s : State)
  /-- the two values of the frame -/
  | frame (x0 x1 : Rat) (s : State)
  deriving DecidableEq, Repr

/-- One sequencer step of `FrameIn()` (42_hpf.md R166): bypass, `hpf_start`, one preload step, or one filtered
frame. -/
def frameIn (s : State) : FrameStep :=
  if s.cfg.hpfen then
    match s.hpfst with
    | .uninit => if s.hpfLengthBad then .failed .cfg s else .preparing s.hpfStart
    | .fill   =>
      match readFrame s with
      | .waiting t     => .waiting t
      | .short t       => .failed .input t
      | .frame vL vR t => .preparing (t.hpfPreload vL vR)
    | .run    =>
      match readFrame s with
      | .waiting t     => .waiting t
      | .short t       => .failed .input t
      | .frame vL vR t =>
        let a := t.hpf0.step t.hlen.toNat vL
        let b := t.hpf1.step t.hlen.toNat vR
        .frame a.2 b.2 { t with hpf0 := a.1, hpf1 := b.1 }
  else
    match readFrame s with
    | .waiting t     => .waiting t
    | .short t       => .failed .input t
    | .frame vL vR t => .frame (normalize vL) (normalize vR) t

end Sys2Proof.Machine
end

