-- ==== Sys2Proof/Machine/Bus.lean ====
section
/-! DEFINITION. The register window: the register map, host reads and host writes (20_memory.md), and the dispatch of a
command word (40_control.md). -/

namespace Sys2Proof.Machine

/-! ## The register map -/

/-- The two words of a 64-bit value, LO at the lower offset (20_memory.md R79). -/
inductive Half where
  | lo
  | hi
  deriving DecidableEq, Repr

/-- The registers of the map (20_memory.md R72). -/
inductive Reg where
  | id
  | param
  | hmaxr
  | ctrl
  | srate
  | log2n
  | navg
  | tfreq (c : Channel)
  | halfw (c : Channel)
  | cmd
  | status
  | errcmd
  | passcnt
  | din
  | inctrl
  | hlen
  | hfill
  | accn
  | accfs
  | accnavg
  | fbin (c : Channel)
  | hcur (c : Channel)
  | hsum (c : Channel) (h : Half)
  | y (c : Channel) (h : Half)
  | sigp (c : Channel) (h : Half)
  | noisep (c : Channel) (h : Half)
  | sig (c : Channel) (h : Half)
  | noise (c : Channel) (h : Half)
  | thdn (c : Channel) (h : Half)
  /-- a word of the spectrum window's slice of a channel (R74) -/
  | spec (c : Channel) (k : Nat) (h : Half)
  /-- a word of the HPF buffer window's slice of a channel (R75) -/
  | hbuf (c : Channel) (i : Nat)
  /-- any other offset of the window (R78) -/
  | reserved
  deriving DecidableEq, Repr

/-- The channel of a slice: each is 0x80000 bytes (20_memory.md R74, R75). -/
def sliceChannel (r : Nat) : Channel := if r < 0x80000 then .left else .right

/-- The spectrum and HPF buffer windows (20_memory.md R74, R75). -/
def windowAt (a : Nat) : Reg :=
  if 0x100000 ≤ a ∧ a < 0x200000 then
    let r := a - 0x100000
    .spec (sliceChannel r) (r % 0x80000 / 8) (if r % 8 < 4 then .lo else .hi)
  else if 0x200000 ≤ a ∧ a < 0x300000 then
    let r := a - 0x200000
    .hbuf (sliceChannel r) (r % 0x80000 / 4)
  else .reserved

/-- The registers below the windows (20_memory.md R72). -/
def lowRegAt (a : Nat) : Reg :=
  match a with
  | 0x000 => .id
  | 0x004 => .param
  | 0x008 => .hmaxr
  | 0x00C => .ctrl
  | 0x010 => .srate
  | 0x014 => .log2n
  | 0x018 => .navg
  | 0x01C => .tfreq .left
  | 0x020 => .tfreq .right
  | 0x024 => .halfw .left
  | 0x028 => .halfw .right
  | 0x02C => .cmd
  | 0x030 => .status
  | 0x034 => .errcmd
  | 0x038 => .passcnt
  | 0x03C => .din
  | 0x040 => .inctrl
  | 0x044 => .hlen
  | 0x048 => .hfill
  | 0x04C => .accn
  | 0x050 => .accfs
  | 0x054 => .accnavg
  | 0x058 => .fbin .left
  | 0x05C => .fbin .right
  | 0x060 => .hcur .left
  | 0x064 => .hcur .right
  | 0x068 => .hsum .left .lo
  | 0x06C => .hsum .left .hi
  | 0x070 => .hsum .right .lo
  | 0x074 => .hsum .right .hi
  | 0x080 => .y .left .lo
  | 0x084 => .y .left .hi
  | 0x088 => .y .right .lo
  | 0x08C => .y .right .hi
  | 0x0A0 => .sigp .left .lo
  | 0x0A4 => .sigp .left .hi
  | 0x0A8 => .noisep .left .lo
  | 0x0AC => .noisep .left .hi
  | 0x0B0 => .sig .left .lo
  | 0x0B4 => .sig .left .hi
  | 0x0B8 => .noise .left .lo
  | 0x0BC => .noise .left .hi
  | 0x0C0 => .thdn .left .lo
  | 0x0C4 => .thdn .left .hi
  | 0x0E0 => .sigp .right .lo
  | 0x0E4 => .sigp .right .hi
  | 0x0E8 => .noisep .right .lo
  | 0x0EC => .noisep .right .hi
  | 0x0F0 => .sig .right .lo
  | 0x0F4 => .sig .right .hi
  | 0x0F8 => .noise .right .lo
  | 0x0FC => .noise .right .hi
  | 0x100 => .thdn .right .lo
  | 0x104 => .thdn .right .hi
  | _     => .reserved

/-- The register at an aligned offset (20_memory.md R72). -/
def regAt (a : Nat) : Reg := if 0x108 ≤ a then windowAt a else lowRegAt a

/-- The registers marked V, and the two windows: "volatile while busy" (20_memory.md R72, R81;
70_reset_and_hazards.md R261). -/
def Reg.isVolatile : Reg → Bool
  | .passcnt | .hlen | .hfill | .accn | .accfs | .accnavg => true
  | .fbin _ | .hcur _ | .hsum _ _ | .y _ _ => true
  | .sigp _ _ | .noisep _ _ | .sig _ _ | .noise _ _ | .thdn _ _ => true
  | .spec _ _ _ | .hbuf _ _ => true
  | .id | .param | .hmaxr | .ctrl | .srate | .log2n | .navg | .tfreq _ | .halfw _ => false
  | .cmd | .status | .errcmd | .din | .inctrl | .reserved => false

/-! ## Host reads -/

/-- The word of a 64-bit value (20_memory.md R79). -/
def Half.of (h : Half) (v : Dword) : Word :=
  match h with
  | .lo => v.extractLsb' 0 32
  | .hi => v.extractLsb' 32 32

/-- PARAM: `{FIFO_DEPTH[15:0], 11 zero bits, LOG2N_MAX[4:0]}` (20_memory.md R73). -/
def Params.paramWord (p : Params) : Word :=
  BitVec.ofNat 16 p.fifoDepth ++ (0 : BitVec 11) ++ BitVec.ofNat 5 p.log2nMax

/-- INCTRL as read: [0] EOS, [1] FULL, [15:2] 0, [31:16] LEVEL (20_memory.md R72). -/
def State.inctrlWord (s : State) : Word :=
  BitVec.ofNat 16 s.level ++ (0 : BitVec 14) ++ BitVec.ofBool (decide (s.level = s.params.fifoDepth)) ++
    BitVec.ofBool s.eos

/-- Y0 or Y1 (10_state.md R49). -/
def State.y (s : State) : Channel → Rat
  | .left  => s.y0
  | .right => s.y1

/-- The value the register map gives (20_memory.md R72-R75, R78-R80). -/
def State.regValue (s : State) : Reg → Word
  | .id         => 0x5448444E#32
  | .param      => Params.paramWord s.params
  | .hmaxr      => BitVec.ofNat 32 s.params.hmax
  | .ctrl       => s.cfg.ctrl.setWidth 32
  | .srate      => s.cfg.srate
  | .log2n      => s.cfg.log2n.setWidth 32
  | .navg       => s.cfg.navg
  | .tfreq c    => s.tfreq c
  | .halfw c    => (s.halfw c).setWidth 32
  | .cmd        => 0
  | .status     => s.statusWord
  | .errcmd     => s.errcmd
  | .passcnt    => s.passcnt
  | .din        => 0
  | .inctrl     => s.inctrlWord
  | .hlen       => s.hlen
  | .hfill      => s.hfill
  | .accn       => s.accn
  | .accfs      => s.accfs
  | .accnavg    => s.accnavg
  | .fbin c     => (s.res c).fbin
  | .hcur c     => (s.hpf c).cur
  | .hsum c h   => h.of (s.hpf c).sum
  | .y c h      => h.of (rnd64Rat (s.y c))
  | .sigp c h   => h.of (rnd64 (s.res c).sigP)
  | .noisep c h => h.of (rnd64 (s.res c).noiseP)
  | .sig c h    => h.of (rnd64 (s.res c).sig)
  | .noise c h  => h.of (rnd64 (s.res c).noise)
  | .thdn c h   => h.of (rnd64 (s.res c).thdn)
  | .spec c k h => if k ≤ s.params.nmax / 2 then h.of (rnd64 (s.bin c k)) else 0
  | .hbuf c i   => if i < s.params.hmax then (s.hpf c).sample i else 0
  | .reserved   => 0

/-- `MemRead(a, 4)` (20_memory.md R76): the register's value, or, of a volatile register while BUSY = 1, a value drawn
freely (R81).  No read has a side effect on the block; the count of draws is the model's own. -/
def State.memRead (s : State) (a : Nat) : Word × State :=
  if s.busy && (regAt a).isVolatile then (Config.volatileRead s.draws, { s with draws := s.draws + 1 })
  else (s.regValue (regAt a), s)

/-! ## Dispatch -/

/-- The word 0x01000000 (40_control.md R120, R121). -/
def srstWord : Word := 0x01000000#32

/-- `dispatch(w)`, one step at the CMD write (40_control.md R120-R123). -/
def State.dispatch (s : State) (w : Word) : State :=
  if s.busy then
    if w = srstWord then s.beginSrst else { s with ovr := true }
  else if s.err ≠ .none then
    if w = srstWord then s.beginSrst else s
  else
    match decode w with
    | .error _ => { s with done := false }.raise .illegal w
    | .ok i    => if i = .srst then s.beginSrst else { s with done := false, seq := .busy w .start }

/-! ## Host writes -/

/-- A write of a configuration register: ignored with OVR while BUSY = 1 (20_memory.md R77). -/
def State.writeCfg (s : State) (c : Cfg) : State :=
  if s.busy then { s with ovr := true } else { s with cfg := c }

/-- `MemWrite(a, 4, v)` on the register at `a` (20_memory.md R77, R78). -/
def State.writeReg (s : State) (r : Reg) (v : Word) : State :=
  match r with
  | .ctrl         => s.writeCfg { s.cfg with ctrl := v.setWidth 5 }
  | .srate        => s.writeCfg { s.cfg with srate := v }
  | .log2n        => s.writeCfg { s.cfg with log2n := v.setWidth 5 }
  | .navg         => s.writeCfg { s.cfg with navg := v }
  | .tfreq .left  => s.writeCfg { s.cfg with tfreq0 := v }
  | .tfreq .right => s.writeCfg { s.cfg with tfreq1 := v }
  | .halfw .left  => s.writeCfg { s.cfg with halfw0 := v.setWidth 16 }
  | .halfw .right => s.writeCfg { s.cfg with halfw1 := v.setWidth 16 }
  | .cmd          => s.dispatch v
  | .status       => s.writeStatus v
  | .din          => s.push (v.setWidth 8)
  | .inctrl       => s.writeInctrl v
  | .id | .param | .hmaxr | .errcmd | .passcnt | .hlen | .hfill | .accn | .accfs | .accnavg => s
  | .fbin _ | .hcur _ | .hsum _ _ | .y _ _ => s
  | .sigp _ _ | .noisep _ _ | .sig _ _ | .noise _ _ | .thdn _ _ => s
  | .spec _ _ _ | .hbuf _ _ | .reserved => s

/-- `MemWrite(a, 4, v)` (20_memory.md R77). -/
def State.memWrite (s : State) (a : Nat) (v : Word) : State := s.writeReg (regAt a) v

/-- Whether an access is of the interface: 32 bits, aligned (20_memory.md R71), inside the 4 MiB window (R70). -/
def accessRefused (a width : Nat) : Option Refusal :=
  if width ≠ 4 ∨ a % 4 ≠ 0 then some (.badAccess a width)
  else if 0x400000 ≤ a then some (.outsideWindow a)
  else none

/-- The window offset of a bus address, for a block whose window lies at `base` (20_memory.md R70, 00_scope.md R9
BASE); an address outside the window is not the block's. -/
def windowOffset (base address : Nat) : Option Nat :=
  if base ≤ address ∧ address < base + 0x400000 then some (address - base) else none

end Sys2Proof.Machine
end

