-- ==== Sys2Proof/Machine/Control.lean ====
section
/-! DEFINITION. NOP and SRST (40_control.md). -/

namespace Sys2Proof.Machine

/-- NOP: `complete` (40_control.md R125). -/
def execNop (s : State) : Host.Outcome State Fault Refusal := .next s.complete

/-- SRST: `begin_srst()`; the steps of Init that follow end it (40_control.md R126). -/
def execSrst (s : State) : Host.Outcome State Fault Refusal := .next s.beginSrst

end Sys2Proof.Machine
end

