-- ==== Sys2Proof/Machine/Hpf.lean ====
section
/-! DEFINITION. FRAME (42_hpf.md R168). -/

namespace Sys2Proof.Machine

/-- FRAME once FrameIn has returned: `Y0 <- y0; Y1 <- y1; STATUS.YVALID <- 1; complete` (42_hpf.md R168). -/
def State.writeOutput (s : State) (y0 y1 : Rat) : State :=
  { s with y0 := y0, y1 := y1, yvalid := true }.complete

/-- FRAME: one sequencer step of it (42_hpf.md R168). -/
def execFrame (s : State) : Host.Outcome State Fault Refusal :=
  match s.progress with
  | .output y0 y1 => .next (s.writeOutput y0 y1)
  | _             =>
    match frameIn s with
    | .waiting t     => .next (t.goOn .frame .start)
    | .preparing t   => .next (t.goOn .frame .start)
    | .failed e t    => .next (t.raise e (encode .frame))
    | .frame y0 y1 t => .next (t.goOn .frame (.output y0 y1))

end Sys2Proof.Machine
end

