-- ==== Sys2Proof/Machine/Input.lean ====
section
/-! DEFINITION. DISCARD (41_input.md R147). -/

namespace Sys2Proof.Machine

/-- DISCARD with `left` bytes still to take: one byte a step, then `complete` (41_input.md R147). -/
def discardStep (count left : Nat) (s : State) : State :=
  match left with
  | 0     => s.complete
  | k + 1 =>
    match inByte s with
    | .waiting t => t.goOn (.discard count) (.discard (k + 1))
    | .missing t => t.raise .input (encode (.discard count))
    | .byte _ t  => t.goOn (.discard count) (.discard k)

/-- DISCARD count: one sequencer step of it (41_input.md R147). -/
def execDiscard (count : Nat) (s : State) : Host.Outcome State Fault Refusal :=
  match s.progress with
  | .discard left => .next (discardStep count left s)
  | _             => .next (discardStep count count s)

end Sys2Proof.Machine
end

