-- ==== Sys2Proof/Machine/Spectrum.lean ====
section
/-! DEFINITION. The spectrum accumulator: ACC_CLEAR, ACC_PASS, ACC_FINAL (43_spectrum.md). -/

namespace Sys2Proof.Machine

/-- The realization's functions (00_scope.md R17). -/
def State.arith (s : State) : ArithOps := s.params.arith.ops

/-! ## Window, transform, power -/

/-- The turn of `angle(i) = (i − N/2) · 2π/(N − 1)` (43_spectrum.md R180).  DESIGN CHOICE for a realization other than exact,
log entry 3: the turn is formed exactly, and the realization is asked for its cosine alone. -/
def hanningTurn (len i : Nat) : Rat := ((i : Rat) - ((len / 2 : Nat) : Rat)) / ((len : Rat) - 1)

/-- The Hanning weight `w_N(i) = 1 + cos(angle(i))` (43_spectrum.md R180). -/
def hanningWeight (ar : ArithOps) (len i : Nat) : SVal := ar.add (.ofRat 1) (ar.cos (hanningTurn len i))

/-- `u[n] = X[n] · w_N(n)`, from sample `n` on (43_spectrum.md R181). -/
def windowed (ar : ArithOps) (len : Nat) : (n : Nat) → List Rat → List SVal
  | _, []     => []
  | n, x :: r => ar.mul (.ofRat x) (hanningWeight ar len n) :: windowed ar len (n + 1) r

/-- `P_k(f, N, nAvg)`, the power a pass adds to bin k (43_spectrum.md R184). -/
def power (ar : ArithOps) (f : List SVal) (len nAvg k : Nat) : SVal :=
  let c := f.getD k .zero
  let d := f.getD (k + len / 2) .zero
  if k = 0 ∨ k = len / 2 then ar.div (ar.mul c c) (.ofRat ((len : Rat) ^ 2 * nAvg))
  else ar.div (ar.add (ar.mul c c) (ar.mul d d)) (.ofRat ((nAvg : Rat) * (len : Rat) ^ 2 / 4))

/-- The spectrum of one channel after a pass of samples `xs`: `SPEC[c][k] <- SPEC[c][k] + P_k` for `0 <= k <= N/2`
(43_spectrum.md R186). -/
def accumulate (ar : ArithOps) (len nAvg : Nat) (xs : List Rat) (m : Memory SVal) : Memory SVal :=
  let f := ar.fft (windowed ar len 0 xs)
  (List.range (len / 2 + 1)).foldl
    (fun m k => Memory.write .zero k (ar.add (Memory.read .zero m k) (power ar f len nAvg k)) m) m

/-- `SPEC[c][k] <- sqrt(SPEC[c][k])` for `0 <= k <= ACCN/2` (43_spectrum.md R187). -/
def takeRoots (ar : ArithOps) (len : Nat) (m : Memory SVal) : Memory SVal :=
  (List.range (len / 2 + 1)).foldl (fun m k => Memory.write .zero k (ar.sqrt (Memory.read .zero m k)) m) m

/-! ## The effects of the accumulator's commands, without their `complete` -/

/-- The configuration checks of ACC_CLEAR, in its order: (a) LOG2N, (b) NAVG and SRATE, (c) an empty valid range
(43_spectrum.md R185, 60_exceptions.md R233).  Each raises the same code. -/
def State.accConfigBad (s : State) : Bool :=
  let len := 2 ^ s.cfg.log2n.toNat
  decide (s.cfg.log2n.toNat < 2 ∨ s.params.log2nMax < s.cfg.log2n.toNat) ||
    (decide (s.cfg.navg = 0 ∨ s.cfg.srate = 0) ||
      decide (len / 2 < roundDiv (20 * len) s.cfg.srate.toNat))

/-- The effects of ACC_CLEAR (43_spectrum.md R185). -/
def State.accClear (s : State) : State :=
  { s with
    accn    := BitVec.ofNat 32 (2 ^ s.cfg.log2n.toNat)
    accfs   := s.cfg.srate
    accnavg := s.cfg.navg
    spec0   := []
    spec1   := []
    passcnt := 0
    accst   := .opened
    res0    := { s.res0 with valid := false }
    res1    := { s.res1 with valid := false } }

/-- The computation step of a pass over the buffer `xs`: both channels' spectra and PASSCNT (43_spectrum.md R186). -/
def State.accPass (s : State) (xs : List (Rat × Rat)) : State :=
  let len := s.accn.toNat
  { s with
    spec0   := accumulate s.arith len s.accnavg.toNat (xs.map Prod.fst) s.spec0
    spec1   := accumulate s.arith len s.accnavg.toNat (xs.map Prod.snd) s.spec1
    passcnt := s.passcnt + 1 }

/-- The effects of ACC_FINAL (43_spectrum.md R187). -/
def State.accFinal (s : State) : State :=
  { s with
    spec0 := takeRoots s.arith s.accn.toNat s.spec0
    spec1 := takeRoots s.arith s.accn.toNat s.spec1
    accst := .final }

/-! ## The commands -/

/-- ACC_CLEAR: one sequencer step of it (43_spectrum.md R185). -/
def execAccClear (s : State) : Host.Outcome State Fault Refusal :=
  match s.progress with
  | .finish => .next s.complete
  | _       =>
    if s.accConfigBad then .next (s.raise .cfg (encode .accClear))
    else .next (s.accClear.goOn .accClear .finish)

/-- ACC_PASS: one sequencer step of it.  The first checks ACCST; then one frame a step; then "one atomic step after the
N-th frame", which completes (43_spectrum.md R186). -/
def execAccPass (s : State) : Host.Outcome State Fault Refusal :=
  match s.progress with
  | .pass xs =>
    if xs.length < s.accn.toNat then
      match frameIn s with
      | .waiting t     => .next (t.goOn .accPass (.pass xs))
      | .preparing t   => .next (t.goOn .accPass (.pass xs))
      | .failed e t    => .next (t.raise e (encode .accPass))
      | .frame x0 x1 t => .next (t.goOn .accPass (.pass (xs ++ [(x0, x1)])))
    else .next (s.accPass xs).complete
  | _        =>
    if s.accst = .opened then .next (s.goOn .accPass (.pass []))
    else .next (s.raise .seq (encode .accPass))

/-- ACC_FINAL: one sequencer step of it (43_spectrum.md R187). -/
def execAccFinal (s : State) : Host.Outcome State Fault Refusal :=
  match s.progress with
  | .finish => .next s.complete
  | _       =>
    if s.accst = .opened then .next (s.accFinal.goOn .accFinal .finish)
    else .next (s.raise .seq (encode .accFinal))

end Sys2Proof.Machine
end

