-- ==== Sys2Proof/Machine/Thdn.lean ====
section
/-! DEFINITION. The THD+n reducer, THDN, and the whole measurement, MEASURE (44_thdn.md). -/

namespace Sys2Proof.Machine

/-! ## Reduction -/

/-- kmin of the valid range: `round(20 · N / fs)` (44_thdn.md R211). -/
def kMin (len fs : Nat) : Nat := roundDiv (20 * len) fs

/-- The fundamental from the caller's frequency in millihertz: `round(tf · N / (1000 · fs))` (44_thdn.md R212). -/
def callerBin (tf len fs : Nat) : Nat := roundDiv (tf * len) (1000 * fs)

/-- The fundamental by search: the least bin of greatest amplitude in `[kmin, kmax]` (44_thdn.md R213). -/
def searchBin (amp : Nat → SVal) (kmin kmax : Nat) : Nat :=
  (List.range' (kmin + 1) (kmax - kmin)).foldl (fun kf k => if (amp kf).less (amp k) then k else kf) kmin

/-- The fundamental bin (44_thdn.md R212, R213). -/
def fundamental (tf len fs : Nat) (amp : Nat → SVal) (kmin kmax : Nat) : Nat :=
  if tf ≠ 0 then callerBin tf len fs else searchBin amp kmin kmax

/-- `k ∈ S`: bin k is a signal bin, given that it is in the valid range (44_thdn.md R214). -/
def inSignal (kf hw k : Nat) : Bool := decide (((k : Int) - kf).natAbs ≤ hw)

/-- `Σ` of 44_thdn.md R210 by the realization's addition (00_scope.md R17): 0 over nothing, a single value as it is.
DESIGN CHOICE for a realization other than exact, log entry 3: the values are added in the order of the list. -/
def sumOf (ar : ArithOps) : List SVal → SVal
  | []      => .zero
  | x :: xs => xs.foldl ar.add x

/-- The sum of squares over the bins of the valid range that `keep` selects, lowest bin first (44_thdn.md R210,
R214). -/
def powerSum (ar : ArithOps) (amp : Nat → SVal) (kmin kmax : Nat) (keep : Nat → Bool) : SVal :=
  sumOf ar (((List.range' kmin (kmax + 1 - kmin)).filter keep).map fun k => ar.mul (amp k) (amp k))

/-- `metric(sigP, noiseP)`: (sig, noise, thdn) (44_thdn.md R215). -/
def metric (ar : ArithOps) (sigP noiseP : SVal) : SVal × SVal × SVal :=
  let noise := ar.sqrt noiseP
  if SVal.zero.less sigP then
    let sig := ar.sqrt sigP
    (sig, noise, ar.div (ar.mul (.ofRat 100) noise) sig)
  else (.zero, noise, .ofRat 100)

/-- FBIN as stored: kf, saturated at 0xFFFFFFFF (44_thdn.md R216). -/
def saturateBin (kf : Nat) : Word := if kf ≤ 0xFFFFFFFF then BitVec.ofNat 32 kf else 0xFFFFFFFF#32

/-- The result of reducing one channel's spectrum (44_thdn.md R210). -/
def reduce (ar : ArithOps) (amp : Nat → SVal) (len fs tf hw : Nat) : Result :=
  let kmin := kMin len fs
  let kmax := len / 2
  let kf := fundamental tf len fs amp kmin kmax
  let sigP := powerSum ar amp kmin kmax (inSignal kf hw)
  let noiseP := powerSum ar amp kmin kmax (fun k => !inSignal kf hw k)
  let m := metric ar sigP noiseP
  { valid  := true
    fbin   := saturateBin kf
    sigP   := sigP
    noiseP := noiseP
    sig    := m.1
    noise  := m.2.1
    thdn   := m.2.2 }

/-- The effects of THDN ch past its check, without its `complete` (44_thdn.md R210, R216). -/
def State.thdn (s : State) (ch : Channel) : State :=
  s.setRes ch (reduce s.arith (s.bin ch) s.accn.toNat s.accfs.toNat (s.tfreq ch).toNat (s.halfw ch).toNat)

/-- THDN ch: one sequencer step of it (44_thdn.md R210). -/
def execThdn (ch : Channel) (s : State) : Host.Outcome State Fault Refusal :=
  match s.progress with
  | .finish => .next s.complete
  | _       =>
    if s.accst = .final then .next ((s.thdn ch).goOn (.thdn ch) .finish)
    else .next (s.raise .seq (encode (.thdn ch)))

/-! ## The whole measurement -/

/-- Check (d) as MEASURE makes it, before any state changes (44_thdn.md R218, 60_exceptions.md R233). -/
def State.hpfConfigBad (s : State) : Bool :=
  s.cfg.hpfen && decide (s.hpfst = .uninit) && s.hpfLengthBad

/-- A pass of MEASURE with `left` passes still to accumulate, `left` at least 1: a frame, or the computation step. -/
def measurePassStep (left : Nat) (xs : List (Rat × Rat)) (s : State) : State :=
  if xs.length < s.accn.toNat then
    match frameIn s with
    | .waiting t     => t.goOn .measure (.measurePass left xs)
    | .preparing t   => t.goOn .measure (.measurePass left xs)
    | .failed e t    => t.raise e (encode .measure)
    | .frame x0 x1 t => t.goOn .measure (.measurePass left (xs ++ [(x0, x1)]))
  else (s.accPass xs).goOn .measure (.measurePass (left - 1) [])

/-- MEASURE: one sequencer step of it (44_thdn.md R218). -/
def execMeasure (s : State) : Host.Outcome State Fault Refusal :=
  match s.progress with
  | .measurePass 0 _           => .next (s.accFinal.goOn .measure (.measureThdn .left))
  | .measurePass (left + 1) xs => .next (measurePassStep (left + 1) xs s)
  | .measureThdn .left         => .next ((s.thdn .left).goOn .measure (.measureThdn .right))
  | .measureThdn .right        => .next ((s.thdn .right).goOn .measure .finish)
  | .finish                    => .next s.complete
  | _                          =>
    if s.accConfigBad || s.hpfConfigBad then .next (s.raise .cfg (encode .measure))
    else .next (s.accClear.goOn .measure (.measurePass s.cfg.navg.toNat []))

end Sys2Proof.Machine
end

