-- ==== Sys2Proof/Machine/Dispatch.lean ====
section
/-! DEFINITION. One sequencer step of a running command: its meaning, command by command. -/

namespace Sys2Proof.Machine

/-- The next sequencer step of command `i` in state `s`, at the progress `s` holds. -/
def exec (i : Instr) (s : State) : Host.Outcome State Fault Refusal :=
  match i with
  | .nop => Sys2Proof.Machine.execNop s
  | .srst => Sys2Proof.Machine.execSrst s
  | .discard n => Sys2Proof.Machine.execDiscard n s
  | .frame => Sys2Proof.Machine.execFrame s
  | .accClear => Sys2Proof.Machine.execAccClear s
  | .accPass => Sys2Proof.Machine.execAccPass s
  | .accFinal => Sys2Proof.Machine.execAccFinal s
  | .thdn ch => Sys2Proof.Machine.execThdn ch s
  | .measure => Sys2Proof.Machine.execMeasure s

end Sys2Proof.Machine
end

