-- ==== Sys2Proof/Machine/Agents.lean ====
section
/-! DEFINITION. The two agents' steps (00_scope.md R21, 20_memory.md R85): the sequencer's, the host's, and whose turn
it is. -/

namespace Sys2Proof.Machine

/-! ## The sequencer -/

/-- One sequencer step.  An idle sequencer has none, and the turn passes.  A command word in SEQ always decodes, since
dispatch put it there; for one that does not, the step is the entry of ERR_ILLEGAL. -/
def seqStep (s : State) : Host.Outcome State Fault Refusal :=
  match s.seq with
  | .idle                  => .next s
  | .init 0 srst           => .next (s.endInit srst)
  | .init (left + 1) srst  => .next { s with seq := .init left srst }
  | .busy w _              =>
    match decode w with
    | .ok i    => exec i s
    | .error _ => .next (s.raise .illegal w)

/-- Whether a stalled command still has no input: it waits for one byte (DISCARD) or for one frame
(70_reset_and_hazards.md R272). -/
def State.inputMissing (s : State) (w : Word) : Bool :=
  match decode w with
  | .ok (.discard _) => decide (s.level < 1) && !s.eos
  | _                => decide (s.level < 2 * s.cfg.bytesPerChannel) && !s.eos

/-- Whether the sequencer has a step: "a sequencer that is Busy or Init and not stalled" (70_reset_and_hazards.md
R273). -/
def State.seqReady (s : State) : Bool :=
  match s.seq with
  | .idle     => false
  | .init _ _ => true
  | .busy w _ => !(s.stall && s.inputMissing w)

/-! ## The host -/

/-- A host read: the value is recorded (30_encoding.md R107). -/
def State.hostRead (s : State) (a : Nat) : State :=
  let r := s.memRead a
  { r.2 with reads := r.2.reads ++ [r.1] }

/-- One host step: the next access of the host's program.  An access outside the interface is refused
(20_memory.md R71); with no access left the turn passes.  A read of STATUS that `WAIT` repeats leaves `WAIT` in place
while BUSY = 1 (30_encoding.md R108). -/
def hostStep (s : State) : Host.Outcome State Fault Refusal :=
  match s.host with
  | []                          => .next s
  | .read a width :: rest       =>
    match accessRefused a width with
    | some r => .refused r
    | none   => .next ({ s with host := rest }.hostRead a)
  | .write a width v :: rest    =>
    match accessRefused a width with
    | some r => .refused r
    | none   => .next ({ s with host := rest }.memWrite a v)
  | .wait :: rest               =>
    .next ({ s with host := if s.busy then .wait :: rest else rest }.hostRead 0x030)
  | .reset :: rest              => .next { s with host := rest }.hardwareReset

/-! ## Turns -/

/-- The agent of the next step.  The schedule says; past its end the sequencer steps whenever it has a step, and the
host otherwise (log entry 8). -/
def State.turn (s : State) : Agent :=
  match s.sched with
  | a :: _ => a
  | []     => if s.seqReady then .sequencer else .host

/-- The state with its turn taken. -/
def State.takeTurn (s : State) : State := { s with sched := s.sched.tail }

/-- One step of the machine: one step of the agent whose turn it is (20_memory.md R85). -/
def agentStep (s : State) : Host.Outcome State Fault Refusal :=
  match s.turn with
  | .sequencer => seqStep s.takeTurn
  | .host      => hostStep s.takeTurn

/-- The state in which the command word `w` has just been dispatched and the sequencer has the next turn: what
dispatch leaves (40_control.md R120, R123), with no Init and no error in its way. -/
def State.withCommand (s : State) (w : Word) : State :=
  { s with seq := .busy w .start, stall := false, done := false, err := .none, sched := .sequencer :: s.sched }

end Sys2Proof.Machine
end

