-- ==== Sys2Proof/Machine/Step.lean ====
section
/-! DEFINITION. The machine's step (20_memory.md R85), and how a command word is placed so that the next step runs
it. -/

namespace Sys2Proof.Machine

/-- One step: "an interleaving of atomic steps, each either one host access … or one sequencer step" (20_memory.md
R85). -/
def step (s : State) : Host.Outcome State Fault Refusal := agentStep s

/-- The block fetches no instructions (10_state.md R31): a command runs once its word stands in SEQ (log entry 10).
A command is one 32-bit word; the bits above `nbits` are 0. -/
def State.withFetchWord (s : State) (nbits w : Nat) : State := s.withCommand (BitVec.ofNat 32 (w % 2 ^ nbits))

end Sys2Proof.Machine
end

