-- ==== Sys2Proof/Machine/HostProgram.lean ====
section
/-! DEFINITION. Host programs: the names of the register map, and the pseudo-instructions of 30_encoding.md R107, R108
as the accesses they expand to. -/

namespace Sys2Proof.Machine

/-- offset(reg) of the register map (20_memory.md R72); a reserved offset is no register. -/
def Reg.offset : Reg → Nat
  | .id                => 0x000
  | .param             => 0x004
  | .hmaxr             => 0x008
  | .ctrl              => 0x00C
  | .srate             => 0x010
  | .log2n             => 0x014
  | .navg              => 0x018
  | .tfreq c           => 0x01C + 4 * channelNumber c
  | .halfw c           => 0x024 + 4 * channelNumber c
  | .cmd               => 0x02C
  | .status            => 0x030
  | .errcmd            => 0x034
  | .passcnt           => 0x038
  | .din               => 0x03C
  | .inctrl            => 0x040
  | .hlen              => 0x044
  | .hfill             => 0x048
  | .accn              => 0x04C
  | .accfs             => 0x050
  | .accnavg           => 0x054
  | .fbin c            => 0x058 + 4 * channelNumber c
  | .hcur c            => 0x060 + 4 * channelNumber c
  | .hsum c h          => 0x068 + 8 * channelNumber c + (if h = .lo then 0 else 4)
  | .y c h             => 0x080 + 8 * channelNumber c + (if h = .lo then 0 else 4)
  | .sigp c h          => 0x0A0 + 0x40 * channelNumber c + (if h = .lo then 0 else 4)
  | .noisep c h        => 0x0A8 + 0x40 * channelNumber c + (if h = .lo then 0 else 4)
  | .sig c h           => 0x0B0 + 0x40 * channelNumber c + (if h = .lo then 0 else 4)
  | .noise c h         => 0x0B8 + 0x40 * channelNumber c + (if h = .lo then 0 else 4)
  | .thdn c h          => 0x0C0 + 0x40 * channelNumber c + (if h = .lo then 0 else 4)
  | .spec c k h        => 0x100000 + 0x80000 * channelNumber c + 8 * k + (if h = .lo then 0 else 4)
  | .hbuf c i          => 0x200000 + 0x80000 * channelNumber c + 4 * i
  | .reserved          => 0x07C

/-- `WR reg, value` (30_encoding.md R107). -/
def wr (r : Reg) (v : Word) : HostOp := .write r.offset 4 v

/-- `RD reg` (30_encoding.md R107). -/
def rd (r : Reg) : HostOp := .read r.offset 4

/-- `CMD <command>` = `WR CMD, enc(<command>)` (30_encoding.md R108). -/
def cmdLine (i : Instr) : List HostOp := [wr .cmd (encode i)]

/-- `PUSH b0, b1, …` (30_encoding.md R108). -/
def pushLine (bs : List Byte) : List HostOp := bs.map fun b => wr .din (b.setWidth 32)

/-- `PUSH32 v` = `PUSH v[7:0], v[15:8], v[23:16], v[31:24]` (30_encoding.md R108). -/
def push32Line (v : Word) : List HostOp :=
  pushLine [v.extractLsb' 0 8, v.extractLsb' 8 8, v.extractLsb' 16 8, v.extractLsb' 24 8]

/-- `PUSH16 v` = `PUSH v[7:0], v[15:8]` (30_encoding.md R108). -/
def push16Line (v : BitVec 16) : List HostOp := pushLine [v.extractLsb' 0 8, v.extractLsb' 8 8]

/-- `EOS` = `WR INCTRL, 0x00000001` (30_encoding.md R108). -/
def eosLine : List HostOp := [wr .inctrl 1]

/-- `WAIT` (30_encoding.md R108). -/
def waitLine : List HostOp := [.wait]

/-- `RUN <command>` = `CMD <command>`; `WAIT` (30_encoding.md R108). -/
def runLine (i : Instr) : List HostOp := cmdLine i ++ waitLine

/-- `CLRFLAGS` = `WR STATUS, 0x0000001C` (30_encoding.md R108). -/
def clrflagsLine : List HostOp := [wr .status 0x1C]

/-- `RD64 <name>`: the LO word, at the lower offset, then the HI word (30_encoding.md R108). -/
def rd64Line (name : Half → Reg) : List HostOp := [rd (name .lo), rd (name .hi)]

end Sys2Proof.Machine
end

