-- ==== Sys2Proof/Safety.lean ====
section
/-! DEFINITION. The terms claims are stated in: the real number a spectral value names, the real formulas of
43_spectrum.md and 44_thdn.md, and what holds of every state a run can reach. -/

namespace Sys2Proof

/-! ## Real values -/

/-- The real number a combination of cosines names. -/
noncomputable def Trig.val : Trig → ℝ
  | []          => 0
  | (t, c) :: r => (c : ℝ) * Real.cos (2 * Real.pi * t) + Trig.val r

/-- The real number a spectral value names. -/
noncomputable def SVal.val : SVal → ℝ
  | .trig c       => c.val
  | .rootQuot n d => Real.sqrt n.val / Real.sqrt d.val
  | .add a b      => a.val + b.val
  | .mul a b      => a.val * b.val
  | .div a b      => a.val / b.val
  | .sqrt a       => Real.sqrt a.val

/-- A root is taken of a value at least 0, over a positive one (00_scope.md R14). -/
def SVal.Proper : SVal → Prop
  | .trig _       => True
  | .rootQuot n d => 0 ≤ n.val ∧ 0 < d.val
  | .add a b      => a.Proper ∧ b.Proper
  | .mul a b      => a.Proper ∧ b.Proper
  | .div a b      => a.Proper ∧ b.Proper
  | .sqrt a       => a.Proper ∧ 0 ≤ a.val

/-- The Hanning weight `w_N(i) = 1 + cos((i − N/2)·2π/(N − 1))` over the reals (43_spectrum.md R180). -/
noncomputable def realWeight (len i : Nat) : ℝ :=
  1 + Real.cos (((i : ℝ) - (len : ℝ) / 2) * (2 * Real.pi / ((len : ℝ) - 1)))

/-- The cosine coefficient `f[k]` of samples u over the reals (43_spectrum.md R183). -/
noncomputable def realCosine (u : Nat → ℝ) (len k : Nat) : ℝ :=
  ∑ n ∈ Finset.range len, u n * Real.cos (2 * Real.pi * k * n / len)

/-- The sine sum of samples u over the reals; `f[N/2 + k]` is σ times it (43_spectrum.md R183). -/
noncomputable def realSine (u : Nat → ℝ) (len k : Nat) : ℝ :=
  ∑ n ∈ Finset.range len, u n * Real.sin (2 * Real.pi * k * n / len)

/-- The power `P_k` of windowed samples u over the reals (43_spectrum.md R184). -/
noncomputable def realPower (u : Nat → ℝ) (len nAvg k : Nat) : ℝ :=
  if k = 0 ∨ k = len / 2 then (realCosine u len k) ^ 2 / ((len : ℝ) ^ 2 * nAvg)
  else ((realCosine u len k) ^ 2 + (realSine u len k) ^ 2) / ((nAvg : ℝ) * (len : ℝ) ^ 2 / 4)

/-- The windowed samples of a pass over the reals (43_spectrum.md R181). -/
noncomputable def realWindowed (xs : List Rat) (len n : Nat) : ℝ := ((xs.getD n 0 : Rat) : ℝ) * realWeight len n

end Sys2Proof

namespace Sys2Proof.Machine

/-! ## What holds of every reachable state -/

/-- The arrays are in canonical form. -/
def State.arraysCanonical (s : State) : Bool :=
  Memory.wf 0 s.hpf0.buf && Memory.wf 0 s.hpf1.buf && Memory.wf .zero s.spec0 && Memory.wf .zero s.spec1

/-- Whether the clearing after reset or SRST is in progress. -/
def State.inInit (s : State) : Bool :=
  match s.seq with
  | .init _ _ => true
  | .idle     => false
  | .busy _ _ => false

/-- What the sequencer's progress says about the accumulator: a pass is gathered only while it is OPEN, with at most
ACCN frames, and MEASURE reduces only a FINAL spectrum (43_spectrum.md R186, 44_thdn.md R218). -/
def State.progressFits (s : State) : Prop :=
  match s.seq with
  | .busy _ (.pass xs)          => s.accst = .opened ∧ xs.length ≤ s.accn.toNat
  | .busy _ (.measurePass _ xs) => s.accst = .opened ∧ xs.length ≤ s.accn.toNat
  | .busy _ (.measureThdn _)    => s.accst = .final
  | _                           => True

/-- The control part of a reachable state: STATUS, SEQ, the filter's phases and the accumulator's. -/
structure State.ControlInv (s : State) : Prop where
  /-- the parameters are in their legal ranges (00_scope.md R9) -/
  params    : s.params.legal = true
  /-- LEVEL ≤ FIFO_DEPTH (10_state.md R42) -/
  level     : s.level ≤ s.params.fifoDepth
  /-- "DONE = 1 and ERR != 0 never hold at the same time" (60_exceptions.md R241) -/
  doneOrErr : s.done = true → s.err = .none
  /-- while ERR != 0 no command runs (40_control.md R122, 60_exceptions.md R243) -/
  errIdle   : s.err ≠ .none → s.seq = .idle
  /-- DONE is 0 while BUSY = 1 (40_control.md R123, R124) -/
  busyDone  : s.busy = true → s.done = false
  /-- STALL is 0 unless a command runs (10_state.md R39) -/
  stallRuns : s.stall = true → ∃ w p, s.seq = .busy w p
  /-- the running word is a command's, and not SRST's (40_control.md R120) -/
  word      : ∀ w p, s.seq = .busy w p → ∃ i, decode w = .ok i ∧ i ≠ .srst
  /-- during Init the filter and the accumulator are in their initial phases (40_control.md R126) -/
  init      : s.inInit = true → s.hpfst = .uninit ∧ s.accst = .none
  /-- "HPFST = UNINIT implies HLEN = HFILL = 0 and HCUR[c] = 0" (10_state.md R52) -/
  uninit    : s.hpfst = .uninit → s.hlen = 0 ∧ s.hfill = 0 ∧ s.hpf0.cur = 0 ∧ s.hpf1.cur = 0
  /-- while FILL, fewer than HLEN − 1 frames are stored and the cursors are 0 (42_hpf.md R161, R162) -/
  fill      : s.hpfst = .fill → s.hfill.toNat + 1 < s.hlen.toNat ∧ s.hpf0.cur = 0 ∧ s.hpf1.cur = 0
  /-- "HPFST = RUN implies HFILL = HLEN - 1 and 0 <= HCUR[c] < HLEN" (10_state.md R52) -/
  run       : s.hpfst = .run → s.hfill.toNat + 1 = s.hlen.toNat ∧ s.hpf0.cur.toNat < s.hlen.toNat
  /-- a latched H is in [2, HMAX] (42_hpf.md R161) -/
  length    : s.hpfst ≠ .uninit → 2 ≤ s.hlen.toNat ∧ s.hlen.toNat ≤ s.params.hmax
  /-- "HCUR[0] = HCUR[1] at all times" (10_state.md R52) -/
  cursors   : s.hpf0.cur = s.hpf1.cur
  /-- ACCN, ACCFS and ACCNAVG are "0 while NONE" (10_state.md R46) -/
  accNone   : s.accst = .none → s.accn = 0 ∧ s.accfs = 0 ∧ s.accnavg = 0
  /-- what ACC_CLEAR latches is legal, and the valid range is not empty (43_spectrum.md R185, 44_thdn.md R211) -/
  accOpen   : s.accst ≠ .none → (∃ l, 2 ≤ l ∧ l ≤ s.params.log2nMax ∧ s.accn.toNat = 2 ^ l) ∧
    s.accfs ≠ 0 ∧ s.accnavg ≠ 0 ∧ kMin s.accn.toNat s.accfs.toNat ≤ s.accn.toNat / 2
  progress  : s.progressFits

/-- `Σ_{i < HLEN} HBUF[c][i]`, the buffered values as integers (10_state.md R45). -/
def HpfChan.bufferSum (h : HpfChan) (hlen : Nat) : Int :=
  ((List.range hlen).map fun i => (h.sample i).toInt).sum

/-- The sum invariant (10_state.md R45). -/
structure State.SumInv (s : State) : Prop where
  sum  : ∀ c, (s.hpf c).sum.toInt = (s.hpf c).bufferSum s.hlen.toNat
  tail : ∀ c i, s.hlen.toNat ≤ i → (s.hpf c).sample i = 0
  fill : s.hpfst ≠ .run → ∀ c i, s.hfill.toNat ≤ i → (s.hpf c).sample i = 0

/-- The spectrum under ARITH = exact: "one non-negative real per bin" (10_state.md R47), every root a proper one, and
while OPEN each cell a plain combination of cosines. -/
structure State.ExactSpectrum (s : State) : Prop where
  proper : ∀ c k, (s.bin c k).Proper
  nonneg : ∀ c k, 0 ≤ (s.bin c k).val
  opened : s.accst = .opened → ∀ c k, ∃ a, s.bin c k = .trig a

/-- Command `i` is running, at progress `p` (10_state.md R31). -/
def State.runs (s : State) (i : Instr) (p : Progress) : Prop := s.seq = .busy (encode i) p

/-- A frame of the command `i` comes next: FRAME before its output, ACC_PASS or MEASURE gathering a pass that lacks
frames (42_hpf.md R168, 43_spectrum.md R186, 44_thdn.md R218). -/
def State.wantsFrame (s : State) (i : Instr) (p : Progress) : Prop :=
  s.runs i p ∧
    match i, p with
    | .frame, .start                       => True
    | .accPass, .pass xs                   => xs.length < s.accn.toNat
    | .measure, .measurePass (_ + 1) xs    => xs.length < s.accn.toNat
    | _, _                                 => False

/-- A frame that FrameIn returned, in the progress of the command that wants it. -/
def Progress.withFrame (x0 x1 : Rat) : Progress → Progress
  | .start             => .output x0 x1
  | .finish            => .finish
  | .discard left      => .discard left
  | .output y0 y1      => .output y0 y1
  | .pass xs           => .pass (xs ++ [(x0, x1)])
  | .measurePass n xs  => .measurePass n (xs ++ [(x0, x1)])
  | .measureThdn c     => .measureThdn c

/-- The 64-bit value of the words a host reads at offsets `a` and `a + 4` (20_memory.md R79), from one state. -/
def State.read64 (s : State) (a : Nat) : Dword := (s.memRead (a + 4)).1 ++ (s.memRead a).1

/-- Bytes of one frame (41_input.md R143). -/
def State.frameBytes (s : State) : Nat := 2 * s.cfg.bytesPerChannel

/-- Whether the next frame can be decoded: its bytes are there, or the stream has ended in tolerance mode (41_input.md
R143, R149). -/
def State.frameReady (s : State) : Prop := s.frameBytes ≤ s.level ∨ (s.eos = true ∧ s.cfg.tol = true)

/-- The bytes the next frame decodes from, SENTINEL in place of those the stream lacks (41_input.md R143, R149). -/
def State.frameInput (s : State) : List Byte :=
  s.fifo.take s.frameBytes ++ List.replicate (s.frameBytes - s.level) s.params.sentinel

/-- `n` steps of the sequencer alone, the host standing still. -/
def seqSteps : Nat → State → Host.Outcome State Fault Refusal
  | 0, s     => .next s
  | n + 1, s =>
    match seqStep s with
    | .next t    => seqSteps n t
    | .fault f   => .fault f
    | .refused r => .refused r

/-- One channel's filter fed a list of container values in steady state, with its outputs (42_hpf.md R163). -/
def HpfChan.feed (hlen : Nat) : List Word → HpfChan → HpfChan × List Rat
  | [], h      => (h, [])
  | v :: vs, h =>
    let a := h.step hlen v
    let b := HpfChan.feed hlen vs a.1
    (b.1, a.2 :: b.2)

/-- One channel preloaded with a list of container values from position `fill` on, the cursor at 0 (42_hpf.md
R162). -/
def HpfChan.preloadAll : (fill : Nat) → List Word → HpfChan → HpfChan
  | _, [], h         => h
  | fill, v :: vs, h => HpfChan.preloadAll (fill + 1) vs (h.preload fill v)

end Sys2Proof.Machine
end

