-- ==== Sys2Proof/Certificates/Slice0/Obligations.lean ====
section
/-! DEFINITION. What is claimed of the block, for the provers. -/

open Sys2Proof Sys2Proof.Machine

/-! ## Encoding -/

/-- Decoding the encoding of a well-formed command gives it back, every count and channel included, and every word that
decodes is the one encoding of what it decodes to (30_encoding.md R102, R103, R106). -/
def Obligations.EncodingRoundTrips : Prop :=
  (∀ i : Instr, i.wellFormed = true → decode (encode i) = .ok i) ∧
  ∀ (w : Word) (i : Instr), decode w = .ok i → encode i = w ∧ i.wellFormed = true

/-- 30_encoding.md R102: the table's rows are disjoint, a word that selects a row decodes to that row's command, and a
word that selects none decodes to none. -/
def Obligations.OpcodeMapSelectsOneRow : Prop :=
  ∀ w : Word,
    (opcodeMap.filter (·.selects w)).length ≤ 1 ∧
    (∀ i, decode w = .ok i → (opcodeMap.filter (·.selects w)).map (·.mnemonic) = [i.mnemonic]) ∧
    (∀ e, decode w = .error e → opcodeMap.filter (·.selects w) = [])

/-- 30_encoding.md R104: a reserved OPC, and a listed OPC with a non-zero reserved operand bit, decode to ILLEGAL, and a
word of either kind dispatched from Idle does not run and raises ERR_ILLEGAL, all else but DONE unchanged
(60_exceptions.md R232). -/
def Obligations.ReservedEncodingsRaiseIllegal : Prop :=
  ∀ w : Word,
    let opc := w.toNat / 2 ^ 24
    let opd := w.toNat % 2 ^ 24
    (opc ∉ [0x00, 0x01, 0x02, 0x03, 0x10, 0x11, 0x12, 0x20, 0x21] ∨
      (opc ∈ [0x00, 0x01, 0x03, 0x10, 0x11, 0x12, 0x21] ∧ opd ≠ 0) ∨ (opc = 0x20 ∧ opd / 2 ≠ 0)) →
    (∃ e, decode w = .error e) ∧
    ∀ s : State, s.seq = .idle → s.err = .none → s.stall = false →
      s.dispatch w = { s with done := false, err := .illegal, errcmd := w }

/-- Words written out from 30_encoding.md R106 and 95_test_vectors.md 2.1 decode to their commands. -/
def Obligations.TableWordsDecode : Prop :=
  decode 0x00000000#32 = .ok .nop ∧ decode 0x01000000#32 = .ok .srst ∧ decode 0x02FFFFFF#32 = .ok (.discard 16777215) ∧
  decode 0x03000000#32 = .ok .frame ∧ decode 0x10000000#32 = .ok .accClear ∧ decode 0x11000000#32 = .ok .accPass ∧
  decode 0x12000000#32 = .ok .accFinal ∧ decode 0x20000001#32 = .ok (.thdn .right) ∧ decode 0x21000000#32 = .ok .measure

/-! ## Steps, dispatch, NOP, SRST, reset -/

/-- On the sequencer's turn, with a command word in SEQ, the step is `exec` of the command it decodes to, in the state
whose turn has been taken; that changes the schedule alone (20_memory.md R85, 10_state.md R31). -/
def Obligations.StepRunsTheDecodedCommand : Prop :=
  ∀ (s : State) (w : Word) (p : Progress) (i : Instr),
    s.turn = .sequencer → s.seq = .busy w p → decode w = .ok i →
    step s = exec i { s with sched := s.sched.tail }

/-- On the host's turn the step is the next access of its program: a write is `MemWrite`, a read records the value of
`MemRead` (20_memory.md R76, R77, R85). -/
def Obligations.StepMakesTheHostAccess : Prop :=
  ∀ (s : State) (a : Nat) (rest : List HostOp),
    s.turn = .host → a % 4 = 0 → a < 0x400000 →
    (∀ v, s.host = .write a 4 v :: rest →
      step s = .next ({ s with sched := s.sched.tail, host := rest }.memWrite a v)) ∧
    (s.host = .read a 4 :: rest →
      let u := { s with sched := s.sched.tail, host := rest }
      step s = .next { (u.memRead a).2 with reads := s.reads ++ [(u.memRead a).1] })

/-- What a write of CMD does in each control state (40_control.md R120, R121, R122): while BUSY it only sets OVR, with an
error recorded it does nothing, and otherwise it clears DONE and starts the command, changing nothing else, or raises
ERR_ILLEGAL; SRST is taken in every state. -/
def Obligations.CmdWriteDispatches : Prop :=
  ∀ (s : State) (w : Word),
    (w = 0x01000000#32 → s.memWrite 0x02C w = s.beginSrst) ∧
    (w ≠ 0x01000000#32 → s.busy = true → s.memWrite 0x02C w = { s with ovr := true }) ∧
    (w ≠ 0x01000000#32 → s.busy = false → s.err ≠ .none → s.memWrite 0x02C w = s) ∧
    (∀ i, w ≠ 0x01000000#32 → s.busy = false → s.err = .none → decode w = .ok i →
      s.memWrite 0x02C w = { s with done := false, seq := .busy w .start } ∧ (s.memWrite 0x02C w).busy = true) ∧
    (∀ e, s.busy = false → s.err = .none → decode w = .error e →
      s.memWrite 0x02C w = { s with done := false, err := .illegal, errcmd := w, seq := .idle, stall := false })

/-- NOP completes in one step and changes nothing but SEQ, STALL and DONE (40_control.md R125, R124). -/
def Obligations.NopCompletes : Prop :=
  ∀ s : State, exec .nop s = .next { s with seq := .idle, stall := false, done := true }

/-- SRST clears the datapath and the status in one step and begins Init; the configuration registers, SPEC and the
parameters are not touched by that step (40_control.md R126).  That HBUF is cleared in it already, so that 10_state.md
R45 holds during Init, is log entry 14. -/
def Obligations.SrstBeginsClearing : Prop :=
  ∀ s : State, exec .srst s = .next
    { s with
      seq := .init s.params.initSteps true, stall := false, done := false, ovr := false, drop := false, err := .none,
      errcmd := 0, fifo := [], eos := false, hpfst := .uninit, hlen := 0, hfill := 0,
      hpf0 := { buf := [], sum := 0, cur := 0 }, hpf1 := { buf := [], sum := 0, cur := 0 },
      accst := .none, accn := 0, accfs := 0, accnavg := 0, passcnt := 0, res0 := Result.reset, res1 := Result.reset,
      y0 := 0, y1 := 0, yvalid := false }

/-- Once the Init that SRST or hardware reset began has ended, the two have left the same state but for the
configuration registers, which SRST keeps, and DONE, which SRST sets; after hardware reset the registers read the values
of 70_reset_and_hazards.md R260 (R262, R260; 10_state.md R53).  The host's program and record, the schedule and the draws
are the model's own and stay. -/
def Obligations.SrstAndResetEndAlike : Prop :=
  (∃ t, seqSteps (State.reset.params.initSteps + 1) State.reset = .next t ∧
    (t.memRead 0x00C).1 = 0 ∧ (t.memRead 0x010).1 = 48000#32 ∧ (t.memRead 0x014).1 = 10#32 ∧
    (t.memRead 0x018).1 = 1#32 ∧ (t.memRead 0x01C).1 = 0 ∧ (t.memRead 0x020).1 = 0 ∧ (t.memRead 0x024).1 = 6#32 ∧
    (t.memRead 0x028).1 = 6#32 ∧ (t.memRead 0x030).1 = 0 ∧ (t.memRead 0x034).1 = 0 ∧ t.irq = false ∧
    (t.memRead 0x040).1 = 0) ∧
  ∀ s : State,
    let clean := { State.reset with
      params := s.params, seq := .idle, host := s.host, reads := s.reads, sched := s.sched, draws := s.draws }
    seqSteps (s.params.initSteps + 1) s.beginSrst = .next { clean with cfg := s.cfg, done := true } ∧
    seqSteps (s.params.initSteps + 1) s.hardwareReset = .next clean

/-- 40_control.md R127: no sequencer step and no dispatch writes a configuration register; a host step that changes one
is a write of its offset while BUSY = 0, or hardware reset. -/
def Obligations.OnlyTheHostWritesConfiguration : Prop :=
  (∀ s t : State, seqStep s = .next t → t.cfg = s.cfg) ∧
  (∀ (s : State) (w : Word), (s.dispatch w).cfg = s.cfg) ∧
  (∀ s t : State, hostStep s = .next t → t.cfg ≠ s.cfg →
    (∃ rest, s.host = .reset :: rest) ∨
    ∃ a v rest, s.host = .write a 4 v :: rest ∧
      a ∈ [0x00C, 0x010, 0x014, 0x018, 0x01C, 0x020, 0x024, 0x028] ∧ s.busy = false)

/-! ## Errors -/

/-- 60_exceptions.md R235: at the first step ACC_PASS and ACC_FINAL raise ERR_SEQ unless ACCST = OPEN, and THDN unless
ACCST = FINAL, and the raise writes ERR, ERRCMD, SEQ and STALL alone. -/
def Obligations.SequencingErrors : Prop :=
  ∀ s : State,
    (s.runs .accPass .start → s.accst ≠ .opened →
      exec .accPass s = .next { s with err := .seq, errcmd := 0x11000000#32, seq := .idle, stall := false }) ∧
    (s.runs .accFinal .start → s.accst ≠ .opened →
      exec .accFinal s = .next { s with err := .seq, errcmd := 0x12000000#32, seq := .idle, stall := false }) ∧
    (∀ ch, s.runs (.thdn ch) .start → s.accst ≠ .final →
      exec (.thdn ch) s = .next { s with err := .seq, errcmd := encode (.thdn ch), seq := .idle, stall := false })

/-- An error the sequencer records comes with the word of the running command in ERRCMD and a stopped sequencer; DONE, the
accumulator, its spectrum and pass count, both channels' result registers and the outputs are as before the raising step,
so earlier results stay readable and a partial pass is never accumulated (60_exceptions.md R236, 43_spectrum.md R186). -/
def Obligations.ErrorEntryRecordsTheCommand : Prop :=
  ∀ (s t : State) (i : Instr) (p : Progress), s.runs i p → i.wellFormed = true →
    seqStep s = .next t → t.err ≠ s.err → i ≠ .srst →
    t.errcmd = encode i ∧ t.seq = .idle ∧ t.stall = false ∧ t.done = s.done ∧ t.err ≠ .none ∧
      t.accst = s.accst ∧ t.passcnt = s.passcnt ∧ t.spec0 = s.spec0 ∧ t.spec1 = s.spec1 ∧
      t.res0 = s.res0 ∧ t.res1 = s.res1 ∧ t.y0 = s.y0 ∧ t.y1 = s.y1 ∧ t.yvalid = s.yvalid

/-- In strict mode a frame that the ended stream cannot fill raises ERR_INPUT from FRAME, ACC_PASS and MEASURE: the
bytes found are consumed, and nothing else changes (60_exceptions.md R234, 41_input.md R143, 42_hpf.md R166). -/
def Obligations.ShortFrameRaisesInput : Prop :=
  ∀ (s : State) (i : Instr) (p : Progress),
    s.wantsFrame i p → (s.cfg.hpfen = true → s.hpfst ≠ .uninit) →
    s.eos = true → s.cfg.tol = false → s.level < s.frameBytes →
    exec i s = .next { s with fifo := [], err := .input, errcmd := encode i, seq := .idle, stall := false }

/-- 41_input.md R149: in tolerance mode no command raises ERR_INPUT, the bytes missing from a frame are SENTINEL, and once
the FIFO is empty every frame decodes from SENTINEL bytes alone. -/
def Obligations.ToleranceModeUsesSentinel : Prop :=
  ∀ s : State, s.cfg.tol = true →
    (∀ i t, exec i s = .next t → t.err = .input → s.err = .input) ∧
    (s.eos = true → s.level < s.frameBytes →
      readFrame s = .frame
        (decodeFrame s.cfg.w16 (s.fifo ++ List.replicate (s.frameBytes - s.level) s.params.sentinel)).1
        (decodeFrame s.cfg.w16 (s.fifo ++ List.replicate (s.frameBytes - s.level) s.params.sentinel)).2
        { s with fifo := [], stall := false }) ∧
    (s.eos = true → s.fifo = [] →
      inByte s = .byte s.params.sentinel { s with stall := false } ∧
      readFrame s = .frame
        (decodeFrame s.cfg.w16 (List.replicate s.frameBytes s.params.sentinel)).1
        (decodeFrame s.cfg.w16 (List.replicate s.frameBytes s.params.sentinel)).2
        { s with stall := false })

/-- While the bytes a command needs are missing and EOS = 0, its step sets STALL and changes nothing else
(70_reset_and_hazards.md R272). -/
def Obligations.MissingInputStalls : Prop :=
  ∀ s : State, s.eos = false →
    (∀ i p, s.wantsFrame i p → (s.cfg.hpfen = true → s.hpfst ≠ .uninit) → s.level < s.frameBytes →
      exec i s = .next { s with stall := true }) ∧
    (∀ count left, s.runs (.discard count) (.discard (left + 1)) → s.fifo = [] →
      exec (.discard count) s = .next { s with stall := true })

/-! ## Input -/

/-- 41_input.md R141: a write of DIN appends its low byte, or drops it with DROP when EOS is set or the FIFO is full,
whether or not a command runs. -/
def Obligations.DinWritePushesByte : Prop :=
  ∀ (s : State) (v : Word),
    (s.eos = true ∨ s.level = s.params.fifoDepth → s.memWrite 0x03C v = { s with drop := true }) ∧
    (s.eos = false → s.level ≠ s.params.fifoDepth →
      s.memWrite 0x03C v = { s with fifo := s.fifo ++ [BitVec.ofNat 8 v.toNat] } ∧
        (s.memWrite 0x03C v).level = s.level + 1)

/-- A write of INCTRL with bit 0 = 1 sets EOS and one with bit 0 = 0 has no effect; no step of either agent but that write
sets it, and none but SRST and hardware reset clears it, the steps of Init and of the host among them; a command but
SRST takes bytes from the front of the FIFO only (41_input.md R142). -/
def Obligations.EosStaysUntilReset : Prop :=
  (∀ (s : State) (v : Word), s.memWrite 0x040 v = if v.toNat % 2 = 1 then { s with eos := true } else s) ∧
  (∀ (s t : State) (i : Instr), exec i s = .next t → i ≠ .srst →
    t.eos = s.eos ∧ ∃ taken, s.fifo = taken ++ t.fifo) ∧
  (∀ s t : State, (∀ p, ¬ s.runs .srst p) → seqStep s = .next t → t.eos = s.eos) ∧
  ∀ s t : State, hostStep s = .next t →
    t.eos = s.eos ∨
    (t.eos = true ∧ ∃ v rest, s.host = .write 0x040 4 v :: rest ∧ v.toNat % 2 = 1) ∨
    (t.eos = false ∧ ∃ rest, s.host = .reset :: rest ∨ s.host = .write 0x02C 4 0x01000000#32 :: rest)

/-- 41_input.md R147: DISCARD's step with `left` bytes to take, all of them at its start: one byte taken, or a wait, or
`complete` when none is left, or ERR_INPUT when the stream has ended in strict mode, or a SENTINEL dropped in tolerance
mode. -/
def Obligations.DiscardStep : Prop :=
  ∀ (s : State) (count left : Nat) (p : Progress), s.runs (.discard count) p →
    p = .discard left ∨ (p = .start ∧ left = count) →
    (left = 0 → exec (.discard count) s = .next { s with seq := .idle, stall := false, done := true }) ∧
    (∀ b rest k, left = k + 1 → s.fifo = b :: rest →
      exec (.discard count) s =
        .next { s with fifo := rest, stall := false, seq := .busy (encode (.discard count)) (.discard k) }) ∧
    (∀ k, left = k + 1 → s.fifo = [] → s.eos = false →
      exec (.discard count) s =
        .next { s with stall := true, seq := .busy (encode (.discard count)) (.discard (k + 1)) }) ∧
    (∀ k, left = k + 1 → s.fifo = [] → s.eos = true → s.cfg.tol = false →
      exec (.discard count) s =
        .next { s with err := .input, errcmd := encode (.discard count), seq := .idle, stall := false }) ∧
    (∀ k, left = k + 1 → s.fifo = [] → s.eos = true → s.cfg.tol = true →
      exec (.discard count) s =
        .next { s with stall := false, seq := .busy (encode (.discard count)) (.discard k) })

/-- With its bytes in the FIFO, DISCARD count takes count byte steps and one more to complete, drops exactly the first
count bytes and changes nothing else (41_input.md R147, 70_reset_and_hazards.md R273). -/
def Obligations.DiscardDropsCountBytes : Prop :=
  ∀ (s : State) (count : Nat), count ≤ 16777215 → s.runs (.discard count) .start → count ≤ s.level →
    seqSteps (count + 1) s =
      .next { s with fifo := s.fifo.drop count, seq := .idle, stall := false, done := true }

/-- 41_input.md R144, R145, R146: the integer each width's bytes form, its sign from the last byte's top bit, and the range
of the normalized sample. -/
def Obligations.SampleDecoding : Prop :=
  (∀ b0 b1 b2 b3 : Byte,
    (sample32 b0 b1 b2 b3).toInt =
      (b0.toNat : Int) + 2 ^ 8 * b1.toNat + 2 ^ 16 * b2.toNat + 2 ^ 24 * b3.toNat - (if b3.msb then 2 ^ 32 else 0)) ∧
  (∀ b0 b1 : Byte,
    (sample16 b0 b1).toInt =
      ((b0.toNat : Int) + 2 ^ 8 * b1.toNat - (if b1.msb then 2 ^ 16 else 0)) * 2 ^ 16) ∧
  (∀ v : Word, normalize v = (v.toInt : Rat) / 2 ^ 31 ∧ -1 ≤ normalize v ∧ normalize v ≤ 1 - 1 / 2 ^ 31) ∧
  normalize 0x80000000#32 = -1 ∧
  (∀ b0 b1 : Byte, normalize (sample16 b0 b1) ≤ 1 - 1 / 2 ^ 15)

/-- FRAME once FrameIn has returned writes Y0, Y1 and YVALID and completes, nothing else changed (42_hpf.md R168,
40_control.md R124). -/
def Obligations.FrameWritesItsOutput : Prop :=
  ∀ (s : State) (y0 y1 : Rat), s.runs .frame (.output y0 y1) →
    exec .frame s =
      .next { s with y0 := y0, y1 := y1, yvalid := true, seq := .idle, stall := false, done := true }

/-- FRAME with the filter bypassed, its bytes in the FIFO: it takes them, left channel first, writes the two normalized
samples to Y0 and Y1, sets YVALID and completes, and nothing else changes (42_hpf.md R168, R166; 41_input.md R143).  In
tolerance mode the bytes an ended stream lacks are SENTINEL (R149).  That this takes two steps, the frame and the
completion, is the model's (log entry 2). -/
def Obligations.BypassedFrameCompletes : Prop :=
  ∀ (s : State) (rest : List Byte), s.runs .frame .start → s.cfg.hpfen = false →
    (s.frameReady →
      let v := decodeFrame s.cfg.w16 s.frameInput
      seqSteps 2 s = .next { s with
        fifo := s.fifo.drop s.frameBytes, y0 := normalize v.1, y1 := normalize v.2, yvalid := true,
        seq := .idle, stall := false, done := true }) ∧
    (∀ a0 a1 a2 a3 b0 b1 b2 b3, s.cfg.w16 = false → s.fifo = a0 :: a1 :: a2 :: a3 :: b0 :: b1 :: b2 :: b3 :: rest →
      seqSteps 2 s = .next { s with
        fifo := rest, y0 := normalize (sample32 a0 a1 a2 a3), y1 := normalize (sample32 b0 b1 b2 b3), yvalid := true,
        seq := .idle, stall := false, done := true }) ∧
    (∀ a0 a1 b0 b1, s.cfg.w16 = true → s.fifo = a0 :: a1 :: b0 :: b1 :: rest →
      seqSteps 2 s = .next { s with
        fifo := rest, y0 := normalize (sample16 a0 a1), y1 := normalize (sample16 b0 b1), yvalid := true,
        seq := .idle, stall := false, done := true })

/-! ## The high-pass filter -/

/-- The first frame wanted with HPFEN = 1 latches H = SRATE div 10, or raises ERR_CFG when H is below 2 or above HMAX;
no byte is taken and nothing else changes (42_hpf.md R161, 60_exceptions.md R233). -/
def Obligations.FilterStartsAtFirstUse : Prop :=
  ∀ (s : State) (i : Instr) (p : Progress), s.wantsFrame i p → s.cfg.hpfen = true → s.hpfst = .uninit →
    (s.cfg.srate.toNat / 10 < 2 ∨ s.params.hmax < s.cfg.srate.toNat / 10 →
      exec i s = .next { s with err := .cfg, errcmd := encode i, seq := .idle, stall := false }) ∧
    (2 ≤ s.cfg.srate.toNat / 10 → s.cfg.srate.toNat / 10 ≤ s.params.hmax →
      exec i s =
        .next { s with hlen := BitVec.ofNat 32 (s.cfg.srate.toNat / 10), hfill := 0, hpfst := .fill })

/-- A preload step of a reachable state: each channel's sample goes to position HFILL and its integer onto the sum, the
other positions keep theirs, and with H − 1 frames stored the filter runs with its cursors at H − 1; no output comes of
it (42_hpf.md R162).  In tolerance mode the bytes an ended stream lacks are SENTINEL (41_input.md R149). -/
def Obligations.PreloadStep : Prop :=
  ∀ (s : State) (i : Instr) (p : Progress), s.wantsFrame i p → s.ControlInv → s.arraysCanonical = true →
    s.cfg.hpfen = true → s.hpfst = .fill → s.frameReady →
    ∃ t, exec i s = .next t ∧
      (let v := decodeFrame s.cfg.w16 s.frameInput
       t.fifo = s.fifo.drop s.frameBytes ∧ t.stall = false ∧ t.seq = s.seq ∧
       t.hfill.toNat = s.hfill.toNat + 1 ∧ t.hlen = s.hlen ∧
       t.hpfst = (if s.hfill.toNat + 2 = s.hlen.toNat then .run else .fill) ∧
       (∀ c, (t.hpf c).cur.toNat = if s.hfill.toNat + 2 = s.hlen.toNat then s.hlen.toNat - 1 else 0) ∧
       (∀ j, t.hpf0.sample j = if j = s.hfill.toNat then v.1 else s.hpf0.sample j) ∧
       (∀ j, t.hpf1.sample j = if j = s.hfill.toNat then v.2 else s.hpf1.sample j) ∧
       t.hpf0.sum = BitVec.ofInt 64 (s.hpf0.sum.toInt + v.1.toInt) ∧
       t.hpf1.sum = BitVec.ofInt 64 (s.hpf1.sum.toInt + v.2.toInt) ∧
       { t with fifo := s.fifo, stall := s.stall, hfill := s.hfill, hpfst := s.hpfst, hpf0 := s.hpf0, hpf1 := s.hpf1 } =
         s)

/-- The four steps of the running filter (42_hpf.md R163), in a reachable state: for each channel the sum takes v in and
the overwritten sample out, v stands at the cursor, the output is the sample half a buffer on, never the one just
stored, less the mean, and the cursor moves on; the frame goes to the command that wanted it.  In tolerance mode the bytes
an ended stream lacks are SENTINEL (41_input.md R149). -/
def Obligations.RunningFilterStep : Prop :=
  ∀ (s : State) (i : Instr) (p : Progress), s.wantsFrame i p → s.ControlInv → s.arraysCanonical = true →
    s.cfg.hpfen = true → s.hpfst = .run → s.frameReady →
    ∃ t y0 y1, exec i s = .next t ∧
      (let v := decodeFrame s.cfg.w16 s.frameInput
       let h := s.hlen.toNat
       let cur := s.hpf0.cur.toNat
       let j := (cur + h / 2) % h
       t.fifo = s.fifo.drop s.frameBytes ∧ t.stall = false ∧ t.seq = .busy (encode i) (p.withFrame y0 y1) ∧
       t.hpf0.sum = BitVec.ofInt 64 (s.hpf0.sum.toInt + v.1.toInt - (s.hpf0.sample cur).toInt) ∧
       t.hpf1.sum = BitVec.ofInt 64 (s.hpf1.sum.toInt + v.2.toInt - (s.hpf1.sample cur).toInt) ∧
       (∀ k, t.hpf0.sample k = if k = cur then v.1 else s.hpf0.sample k) ∧
       (∀ k, t.hpf1.sample k = if k = cur then v.2 else s.hpf1.sample k) ∧
       y0 = normalize (s.hpf0.sample j) - (t.hpf0.sum.toInt : Rat) / (h * 2 ^ 31) ∧
       y1 = normalize (s.hpf1.sample j) - (t.hpf1.sum.toInt : Rat) / (h * 2 ^ 31) ∧
       t.hpf0.cur.toNat = (cur + 1) % h ∧ t.hpf1.cur.toNat = (cur + 1) % h ∧
       { t with fifo := s.fifo, stall := s.stall, seq := s.seq, hpf0 := s.hpf0, hpf1 := s.hpf1 } = s)

/-- With HPFEN = 0 no command but SRST changes the filter's state, and no command but SRST ever returns it to UNINIT
(42_hpf.md R170, R166).  Hardware reset, which returns it there too, is no command. -/
def Obligations.BypassLeavesTheFilter : Prop :=
  ∀ (i : Instr) (s t : State), i ≠ .srst → exec i s = .next t →
    (s.cfg.hpfen = false →
      t.hpfst = s.hpfst ∧ t.hlen = s.hlen ∧ t.hfill = s.hfill ∧ t.hpf0 = s.hpf0 ∧ t.hpf1 = s.hpf1) ∧
    (s.hpfst ≠ .uninit → t.hpfst ≠ .uninit ∧ t.hlen = s.hlen)

/-- 42_hpf.md R165: a channel preloaded with the first H − 1 container values and fed the rest gives, for the value of index
g = H − 1 + m, the sample D = H − H div 2 before it less the mean of the last H. -/
def Obligations.FilterClosedForm : Prop :=
  ∀ (h m : Nat) (xs : List Word), 2 ≤ h → h ≤ 131072 → h - 1 + m < xs.length →
    let pre := HpfChan.preloadAll 0 (xs.take (h - 1)) HpfChan.reset
    let ys := (HpfChan.feed h (xs.drop (h - 1)) { pre with cur := BitVec.ofNat 32 (h - 1) }).2
    ys.getD m 0 =
      ((xs.getD (h - 1 + m - (h - h / 2)) 0).toInt : Rat) / 2 ^ 31 -
        ((∑ i ∈ Finset.range h, (xs.getD (m + i) 0).toInt : Int) : Rat) / (h * 2 ^ 31)

/-- 42_hpf.md R167: an output is exactly 0 when the H most recent values are all the same, so a constant input gives 0 from
the first output on. -/
def Obligations.ConstantInputGivesZero : Prop :=
  ∀ (h m : Nat) (v : Word) (xs : List Word), 2 ≤ h → h ≤ 131072 → h - 1 + m < xs.length →
    (∀ i, m ≤ i → i ≤ h - 1 + m → xs.getD i 0 = v) →
    let pre := HpfChan.preloadAll 0 (xs.take (h - 1)) HpfChan.reset
    (HpfChan.feed h (xs.drop (h - 1)) { pre with cur := BitVec.ofNat 32 (h - 1) }).2.getD m 1 = 0

/-- 42_hpf.md R169: in a reachable state the outputs of a frame lie in (-2, 2), and in [-1, 1) when the filter is
bypassed. -/
def Obligations.FrameOutputRange : Prop :=
  ∀ (s t : State) (x0 x1 : Rat), s.ControlInv → s.SumInv → s.arraysCanonical = true →
    frameIn s = .frame x0 x1 t →
    (-2 < x0 ∧ x0 < 2 ∧ -2 < x1 ∧ x1 < 2) ∧
    (s.cfg.hpfen = false → -1 ≤ x0 ∧ x0 < 1 ∧ -1 ≤ x1 ∧ x1 < 1)

/-! ## The spectrum accumulator -/

/-- 43_spectrum.md R185: ACC_CLEAR's checks, its effects when they pass, whatever ACCST was, and its completion.  The empty
range test is floor(20·N/SRATE + 1/2) > N/2.  That the effects and the completion are two steps is the model's (log
entry 2). -/
def Obligations.AccClearLatchesAndClears : Prop :=
  ∀ s : State,
    (s.runs .accClear .start →
      let l := s.cfg.log2n.toNat
      let bad := l < 2 ∨ s.params.log2nMax < l ∨ s.cfg.navg = 0 ∨ s.cfg.srate = 0 ∨
        ((2 ^ l / 2 : Nat) : Int) < ⌊(20 * 2 ^ l : Rat) / s.cfg.srate.toNat + 1 / 2⌋
      (bad → exec .accClear s =
        .next { s with err := .cfg, errcmd := 0x10000000#32, seq := .idle, stall := false }) ∧
      (¬ bad → exec .accClear s =
        .next { s with
          accn := BitVec.ofNat 32 (2 ^ l), accfs := s.cfg.srate, accnavg := s.cfg.navg, spec0 := [], spec1 := [],
          passcnt := 0, accst := .opened, res0 := { s.res0 with valid := false },
          res1 := { s.res1 with valid := false }, seq := .busy 0x10000000#32 .finish })) ∧
    (s.runs .accClear .finish →
      exec .accClear s = .next { s with seq := .idle, stall := false, done := true })

/-- ACC_PASS's steps: the check, a frame gathered with the filter bypassed (in tolerance mode with SENTINEL for the bytes an
ended stream lacks, 41_input.md R149), and the computation, which adds each bin's
power up to N/2, leaves the bins above, counts the pass and completes (43_spectrum.md R186).  That the check is a step of
its own is log entry 2, and that every realization is asked for the operations in the order of the formulas is log
entry 3: both are the model's. -/
def Obligations.AccPassSteps : Prop :=
  ∀ s : State,
    (s.runs .accPass .start → s.accst = .opened →
      exec .accPass s = .next { s with seq := .busy 0x11000000#32 (.pass []) }) ∧
    (∀ xs, s.runs .accPass (.pass xs) → xs.length < s.accn.toNat → s.cfg.hpfen = false → s.frameReady →
      let v := decodeFrame s.cfg.w16 s.frameInput
      exec .accPass s = .next { s with
        fifo := s.fifo.drop s.frameBytes, stall := false,
        seq := .busy 0x11000000#32 (.pass (xs ++ [(normalize v.1, normalize v.2)])) }) ∧
    (∀ xs, s.runs .accPass (.pass xs) → s.accn.toNat ≤ xs.length → s.arraysCanonical = true →
      ∃ t, exec .accPass s = .next t ∧
        (∀ k, t.bin .left k = if k ≤ s.accn.toNat / 2 then
          s.arith.add (s.bin .left k) (power s.arith
            (s.arith.fft (windowed s.arith s.accn.toNat 0 (xs.map Prod.fst))) s.accn.toNat s.accnavg.toNat k)
          else s.bin .left k) ∧
        (∀ k, t.bin .right k = if k ≤ s.accn.toNat / 2 then
          s.arith.add (s.bin .right k) (power s.arith
            (s.arith.fft (windowed s.arith s.accn.toNat 0 (xs.map Prod.snd))) s.accn.toNat s.accnavg.toNat k)
          else s.bin .right k) ∧
        t.passcnt = s.passcnt + 1 ∧ t.seq = .idle ∧ t.stall = false ∧ t.done = true ∧
        { t with spec0 := s.spec0, spec1 := s.spec1, passcnt := s.passcnt, seq := s.seq, stall := s.stall,
                 done := s.done } = s)

/-- With the filter bypassed and its bytes in the FIFO, ACC_PASS takes ACCN frame steps between its check and its
computation step, and no more bytes than those frames (70_reset_and_hazards.md R273, 43_spectrum.md R186). -/
def Obligations.AccPassTakesItsFrames : Prop :=
  ∀ s : State, s.runs .accPass .start → s.accst = .opened → s.cfg.hpfen = false →
    s.accn.toNat * s.frameBytes ≤ s.level →
    ∃ xs : List (Rat × Rat), xs.length = s.accn.toNat ∧
      (∀ n, n < xs.length →
        let v := decodeFrame s.cfg.w16 ((s.fifo.drop (n * s.frameBytes)).take s.frameBytes)
        xs[n]? = some (normalize v.1, normalize v.2)) ∧
      seqSteps (s.accn.toNat + 2) s =
        .next ({ s with fifo := s.fifo.drop (s.accn.toNat * s.frameBytes), stall := false }.accPass xs).complete

/-- ACC_FINAL takes the root of every bin up to N/2, leaves the bins above, closes the accumulator, and then completes
(43_spectrum.md R187).  That the roots and the completion are two steps is the model's (log entry 2). -/
def Obligations.AccFinalTakesRoots : Prop :=
  ∀ s : State,
    (s.runs .accFinal .start → s.accst = .opened → s.arraysCanonical = true →
      ∃ t, exec .accFinal s = .next t ∧
        (∀ c k, t.bin c k = if k ≤ s.accn.toNat / 2 then s.arith.sqrt (s.bin c k) else s.bin c k) ∧
        t.accst = .final ∧ t.seq = .busy 0x12000000#32 .finish ∧
        { t with spec0 := s.spec0, spec1 := s.spec1, accst := s.accst, seq := s.seq } = s) ∧
    (s.runs .accFinal .finish → exec .accFinal s = .next { s with seq := .idle, stall := false, done := true })

/-- 43_spectrum.md R180: under ARITH = exact the model's weight names the real number 1 + cos((i − N/2)·2π/(N − 1)), whose
peak is 2 and whose first value is 1 + cos(π·N/(N − 1)), not 0. -/
def Obligations.ExactHanningWeight : Prop :=
  ∀ (sineNegated : Bool) (l i : Nat), 2 ≤ l → i < 2 ^ l →
    (hanningWeight (ArithOps.exact sineNegated) (2 ^ l) i).val =
      1 + Real.cos (((i : ℝ) - 2 ^ l / 2) * (2 * Real.pi / (2 ^ l - 1))) ∧
    (hanningWeight (ArithOps.exact sineNegated) (2 ^ l) i).val ≤ 2 ∧
    (hanningWeight (ArithOps.exact sineNegated) (2 ^ l) (2 ^ l / 2)).val = 2 ∧
    (hanningWeight (ArithOps.exact sineNegated) (2 ^ l) 0).val = 1 + Real.cos (Real.pi * 2 ^ l / (2 ^ l - 1)) ∧
    (hanningWeight (ArithOps.exact sineNegated) (2 ^ l) 0).val ≠ 0

/-- 43_spectrum.md R183: under ARITH = exact the transform of N values is the unnormalized discrete Fourier transform in the
half-complex layout, f[k] the cosine sum up to N/2 and f[N/2 + k] σ times the sine sum. -/
def Obligations.ExactTransform : Prop :=
  ∀ (sineNegated : Bool) (l : Nat) (us : List SVal), 2 ≤ l → us.length = 2 ^ l → (∀ u ∈ us, u.Proper) →
    let f := exactFft sineNegated us
    let u := fun n => (us.getD n .zero).val
    f.length = 2 ^ l ∧
    (∀ k, k ≤ 2 ^ l / 2 → (f.getD k .zero).val = realCosine u (2 ^ l) k) ∧
    (∀ k, 1 ≤ k → k ≤ 2 ^ l / 2 - 1 →
      (f.getD (2 ^ l / 2 + k) .zero).val = (if sineNegated then -1 else 1) * realSine u (2 ^ l) k)

/-- Under ARITH = exact the computation step of ACC_PASS adds to each bin of each channel exactly the real power of the
Hanning-windowed discrete Fourier transform of the channel's samples, whatever σ is (43_spectrum.md R180, R181, R183,
R184, R186). -/
def Obligations.ExactPassAddsRealPower : Prop :=
  ∀ (s : State) (sineNegated : Bool) (l : Nat) (xs : List (Rat × Rat)),
    s.params.arith = .exact sineNegated → 2 ≤ l → s.accn.toNat = 2 ^ l → s.accnavg ≠ 0 → xs.length = 2 ^ l →
    s.arraysCanonical = true → s.accst = .opened → s.ExactSpectrum → s.runs .accPass (.pass xs) →
    ∃ t, exec .accPass s = .next t ∧ ∀ k, k ≤ 2 ^ l / 2 →
      (t.bin .left k).val = (s.bin .left k).val +
        realPower (realWindowed (xs.map Prod.fst) (2 ^ l)) (2 ^ l) s.accnavg.toNat k ∧
      (t.bin .right k).val = (s.bin .right k).val +
        realPower (realWindowed (xs.map Prod.snd) (2 ^ l)) (2 ^ l) s.accnavg.toNat k

/-- 43_spectrum.md R188: P_k at nAvg = m is P_k at 1 divided by m, so after m = ACCNAVG equal passes from a cleared
spectrum each bin holds the single-pass power, and its root after ACC_FINAL is the single-pass amplitude. -/
def Obligations.AveragingCountInvariance : Prop :=
  (∀ (u : Nat → ℝ) (len m k : Nat), 1 ≤ m → realPower u len m k = realPower u len 1 k / m) ∧
  ∀ (s : State) (sineNegated : Bool) (l : Nat) (xs : List (Rat × Rat)),
    s.params.arith = .exact sineNegated → 2 ≤ l → s.accn.toNat = 2 ^ l → s.accnavg ≠ 0 → xs.length = 2 ^ l →
    s.spec0 = [] → s.spec1 = [] →
    let t := (fun u : State => u.accPass xs)^[s.accnavg.toNat] s
    ∀ k, k ≤ 2 ^ l / 2 →
      (t.bin .left k).val = realPower (realWindowed (xs.map Prod.fst) (2 ^ l)) (2 ^ l) 1 k ∧
      (t.bin .right k).val = realPower (realWindowed (xs.map Prod.snd) (2 ^ l)) (2 ^ l) 1 k ∧
      (t.accFinal.bin .left k).val = Real.sqrt (t.bin .left k).val ∧
      (t.accFinal.bin .right k).val = Real.sqrt (t.bin .right k).val

/-- Two runs of an ACC_PASS step that differ only in one channel (its filter, its spectrum, its samples gathered and its
bytes of the next frame) leave the same filter, spectrum and samples of the other: the left one ignores the right, and
the right one the left (43_spectrum.md R191, 42_hpf.md R160). -/
def Obligations.LeftChannelIgnoresRight : Prop :=
  ∀ (s t t' : State) (xs xs' : List (Rat × Rat)) (h : HpfChan) (m : Memory SVal) (bytes : List Byte),
    s.runs .accPass (.pass xs) → bytes.length = s.fifo.length → exec .accPass s = .next t →
    (xs'.map Prod.fst = xs.map Prod.fst → (∀ j, j < s.cfg.bytesPerChannel → bytes.getD j 0 = s.fifo.getD j 0) →
      exec .accPass { s with hpf1 := h, spec1 := m, fifo := bytes, seq := .busy (encode .accPass) (.pass xs') } = .next t' →
      t'.hpf0 = t.hpf0 ∧ t'.spec0 = t.spec0 ∧
        ∀ ys, t.seq = .busy (encode .accPass) (.pass ys) →
          ∃ ys', t'.seq = .busy (encode .accPass) (.pass ys') ∧ ys'.map Prod.fst = ys.map Prod.fst) ∧
    (xs'.map Prod.snd = xs.map Prod.snd →
      (∀ j, s.cfg.bytesPerChannel ≤ j → j < s.frameBytes → bytes.getD j 0 = s.fifo.getD j 0) →
      exec .accPass { s with hpf0 := h, spec0 := m, fifo := bytes, seq := .busy (encode .accPass) (.pass xs') } = .next t' →
      t'.hpf1 = t.hpf1 ∧ t'.spec1 = t.spec1 ∧
        ∀ ys, t.seq = .busy (encode .accPass) (.pass ys) →
          ∃ ys', t'.seq = .busy (encode .accPass) (.pass ys') ∧ ys'.map Prod.snd = ys.map Prod.snd)

/-! ## THD+n -/

/-- 44_thdn.md R212: a caller frequency picks bin floor(tf·N/(1000·fs) + 1/2), used as computed; and kmin of R211 is
floor(20·N/fs + 1/2). -/
def Obligations.BinsFromFrequencies : Prop :=
  ∀ len fs tf : Nat, 1 ≤ fs →
    ((kMin len fs : Nat) : Int) = ⌊(20 * len : Rat) / fs + 1 / 2⌋ ∧
    ∀ amp kmin kmax, tf ≠ 0 →
      ((fundamental tf len fs amp kmin kmax : Nat) : Int) = ⌊(tf * len : Rat) / (1000 * fs) + 1 / 2⌋

/-- 44_thdn.md R213: with TFREQ = 0 the fundamental is the least bin of greatest amplitude in the valid range, as real
numbers. -/
def Obligations.SearchFindsLeastMaximum : Prop :=
  ∀ (len fs : Nat) (amp : Nat → SVal) (kmin kmax : Nat), kmin ≤ kmax →
    let kf := fundamental 0 len fs amp kmin kmax
    kmin ≤ kf ∧ kf ≤ kmax ∧ (∀ j, kmin ≤ j → j ≤ kmax → (amp j).val ≤ (amp kf).val) ∧
      ∀ j, kmin ≤ j → j < kf → (amp j).val < (amp kf).val

/-- 44_thdn.md R214: under ARITH = exact, sigP is the sum of the squared amplitudes over the bins of the valid range within
hw of kf, noiseP the sum over the rest of it, and bins outside count in neither.  A fundamental with no bin of the valid
range within hw of it has signal power 0 and THD+n 100, and a range whose one signal bin is k has that bin's square as its
signal power.  R217 (d) says the first of exact reals; that both hold under every realization, an empty sum being 0 and a
sum of one value that value, is the model's (log entry 3). -/
def Obligations.PowersSplitTheValidRange : Prop :=
  (∀ (ar : ArithOps) (amp : Nat → SVal) (len fs tf hw : Nat),
    let kf := fundamental tf len fs amp (kMin len fs) (len / 2)
    let r := reduce ar amp len fs tf hw
    ((∀ k, kMin len fs ≤ k → k ≤ len / 2 → inSignal kf hw k = false) →
      r.sigP = .zero ∧ r.sig = .zero ∧ r.thdn = .ofRat 100) ∧
    ∀ k, kMin len fs ≤ k → k ≤ len / 2 → (∀ j, kMin len fs ≤ j → j ≤ len / 2 → (inSignal kf hw j = true ↔ j = k)) →
      r.sigP = ar.mul (amp k) (amp k)) ∧
  ∀ (sineNegated : Bool) (amp : Nat → SVal) (len fs tf hw : Nat), (∀ k, (amp k).Proper) →
    let kmin := kMin len fs
    let kmax := len / 2
    let kf := fundamental tf len fs amp kmin kmax
    let r := reduce (ArithOps.exact sineNegated) amp len fs tf hw
    r.sigP.val = (∑ k ∈ Finset.Icc kmin kmax, if (k : Int) - kf ≤ hw ∧ (kf : Int) - k ≤ hw then (amp k).val ^ 2 else 0) ∧
    r.noiseP.val =
      ∑ k ∈ Finset.Icc kmin kmax, if (k : Int) - kf ≤ hw ∧ (kf : Int) - k ≤ hw then 0 else (amp k).val ^ 2

/-- 44_thdn.md R215 over the reals, under ARITH = exact: the amplitudes are roots of the powers and THDN is
100·noise/signal, or signal 0 and THDN 100 when the signal power is 0; none is negative. -/
def Obligations.ExactMetric : Prop :=
  ∀ (sineNegated : Bool) (sigP noiseP : SVal), sigP.Proper → noiseP.Proper → 0 ≤ sigP.val → 0 ≤ noiseP.val →
    let m := metric (ArithOps.exact sineNegated) sigP noiseP
    m.2.1.val = Real.sqrt noiseP.val ∧
    (sigP.val = 0 → m.1.val = 0 ∧ m.2.2.val = 100) ∧
    (0 < sigP.val →
      m.1.val = Real.sqrt sigP.val ∧ m.2.2.val = 100 * Real.sqrt noiseP.val / Real.sqrt sigP.val) ∧
    0 ≤ m.1.val ∧ 0 ≤ m.2.1.val ∧ 0 ≤ m.2.2.val

/-- THDN ch past its check writes the reduction of that channel's spectrum, at the latched N and sample rate and the
channel's current TFREQ and HALFW, to that channel's result registers alone, with RESV, FBIN saturated; and then
completes (44_thdn.md R210, R216).  That the results and the completion are two steps is log entry 2, and that every
realization is asked for the sums and the metric in the order of the formulas is log entry 3: both are the model's. -/
def Obligations.ThdnWritesResults : Prop :=
  ∀ (s : State) (ch : Channel),
    (s.runs (.thdn ch) .start → s.accst = .final →
      ∃ t, exec (.thdn ch) s = .next t ∧ t.seq = .busy (encode (.thdn ch)) .finish ∧
        (let len := s.accn.toNat
         let fs := s.accfs.toNat
         let kf := fundamental (s.tfreq ch).toNat len fs (s.bin ch) (kMin len fs) (len / 2)
         let r := t.res ch
         r.valid = true ∧ r.fbin.toNat = min kf 0xFFFFFFFF ∧
         r.sigP = powerSum s.arith (s.bin ch) (kMin len fs) (len / 2) (inSignal kf (s.halfw ch).toNat) ∧
         r.noiseP = powerSum s.arith (s.bin ch) (kMin len fs) (len / 2) (fun k => !inSignal kf (s.halfw ch).toNat k) ∧
         (r.sig, r.noise, r.thdn) = metric s.arith r.sigP r.noiseP) ∧
        (∀ c, c ≠ ch → t.res c = s.res c) ∧
        { t with res0 := s.res0, res1 := s.res1, seq := s.seq } = s) ∧
    (s.runs (.thdn ch) .finish →
      exec (.thdn ch) s = .next { s with seq := .idle, stall := false, done := true })

/-- An all-silent channel, under ARITH = exact: THDN gives signal 0, THD+n 100 and, with TFREQ = 0, the bin kmin; it is no
error (44_thdn.md R217 (a), 60_exceptions.md R237). -/
def Obligations.SilenceReadsHundred : Prop :=
  ∀ (s : State) (ch : Channel) (sineNegated : Bool), s.params.arith = .exact sineNegated → s.ControlInv →
    s.runs (.thdn ch) .start → s.accst = .final → s.tfreq ch = 0 → (∀ k, s.bin ch k = .zero) →
    ∃ t, exec (.thdn ch) s = .next t ∧ t.err = s.err ∧
      (t.res ch).fbin = BitVec.ofNat 32 (kMin s.accn.toNat s.accfs.toNat) ∧
      (t.res ch).sigP.val = 0 ∧ (t.res ch).noiseP.val = 0 ∧ (t.res ch).sig.val = 0 ∧ (t.res ch).noise.val = 0 ∧
      (t.res ch).thdn.val = 100

/-- MEASURE makes every configuration check before any state changes: ACC_CLEAR's, and the filter's length when it would
start; a failure raises ERR_CFG with nothing else changed (44_thdn.md R218, 60_exceptions.md R233).  When they pass, the
same step has ACC_CLEAR's effects and the first pass comes next; that these are one step is the model's (log entry 2). -/
def Obligations.MeasureChecksFirst : Prop :=
  ∀ s : State, s.runs .measure .start →
    let l := s.cfg.log2n.toNat
    let bad := l < 2 ∨ s.params.log2nMax < l ∨ s.cfg.navg = 0 ∨ s.cfg.srate = 0 ∨
      ((2 ^ l / 2 : Nat) : Int) < ⌊(20 * 2 ^ l : Rat) / s.cfg.srate.toNat + 1 / 2⌋ ∨
      (s.cfg.hpfen = true ∧ s.hpfst = .uninit ∧ (s.cfg.srate.toNat / 10 < 2 ∨ s.params.hmax < s.cfg.srate.toNat / 10))
    (bad → exec .measure s =
      .next { s with err := .cfg, errcmd := 0x21000000#32, seq := .idle, stall := false }) ∧
    (¬ bad → exec .measure s =
      .next { s.accClear with seq := .busy 0x21000000#32 (.measurePass s.cfg.navg.toNat []) })

/-- MEASURE's later steps are those of its parts: a frame is gathered (in tolerance mode with SENTINEL for the bytes an ended
stream lacks, 41_input.md R149), a gathered pass is accumulated and counted, ACCNAVG passes are followed
by the roots, these by both channels' reductions, left first, and DONE comes once, at the end (44_thdn.md R218). -/
def Obligations.MeasureRunsItsParts : Prop :=
  ∀ s : State,
    (∀ left xs, s.runs .measure (.measurePass (left + 1) xs) → s.accn.toNat ≤ xs.length →
      exec .measure s = .next { s.accPass xs with seq := .busy 0x21000000#32 (.measurePass left []) }) ∧
    (∀ left xs, s.runs .measure (.measurePass (left + 1) xs) → xs.length < s.accn.toNat → s.cfg.hpfen = false →
      s.frameReady →
      let v := decodeFrame s.cfg.w16 s.frameInput
      exec .measure s = .next { s with
        fifo := s.fifo.drop s.frameBytes, stall := false,
        seq := .busy 0x21000000#32 (.measurePass (left + 1) (xs ++ [(normalize v.1, normalize v.2)])) }) ∧
    (∀ xs, s.runs .measure (.measurePass 0 xs) →
      exec .measure s = .next { s.accFinal with seq := .busy 0x21000000#32 (.measureThdn .left) }) ∧
    (s.runs .measure (.measureThdn .left) →
      exec .measure s = .next { s.thdn .left with seq := .busy 0x21000000#32 (.measureThdn .right) }) ∧
    (s.runs .measure (.measureThdn .right) →
      exec .measure s = .next { s.thdn .right with seq := .busy 0x21000000#32 .finish }) ∧
    (s.runs .measure .finish → exec .measure s = .next { s with seq := .idle, stall := false, done := true })

/-! ## The register window -/

/-- A configuration register written while BUSY = 0 holds the value masked to its defined bits, and while BUSY = 1 the
write is ignored and sets OVR; nothing else changes (20_memory.md R77, 10_state.md R33-R38). -/
def Obligations.ConfigurationWrites : Prop :=
  ∀ (s : State) (v : Word),
    (s.busy = true → ∀ a ∈ [0x00C, 0x010, 0x014, 0x018, 0x01C, 0x020, 0x024, 0x028],
      s.memWrite a v = { s with ovr := true }) ∧
    (s.busy = false →
      (∀ a ∈ [0x00C, 0x010, 0x014, 0x018, 0x01C, 0x020, 0x024, 0x028],
        { s.memWrite a v with cfg := s.cfg } = s ∧
        ((s.memWrite a v).memRead a).1 =
          v &&& (if a = 0x00C ∨ a = 0x014 then 0x1F#32 else if a = 0x024 ∨ a = 0x028 then 0xFFFF#32 else 0xFFFFFFFF#32)) ∧
      (∀ a ∈ [0x00C, 0x010, 0x014, 0x018, 0x01C, 0x020, 0x024, 0x028],
        ∀ b ∈ [0x00C, 0x010, 0x014, 0x018, 0x01C, 0x020, 0x024, 0x028], b ≠ a →
          ((s.memWrite a v).memRead b).1 = (s.memRead b).1))

/-- STATUS: its bits as read, ERR by the codes of 60_exceptions.md R231, ACCST and HPFST by those of 10_state.md R46 and
R43, bit 20 being IRQ as 60_exceptions.md R240 gives it; and a write, which clears DONE, OVR and
DROP where the written bit is 1 and changes nothing else, BUSY or not (10_state.md R39). -/
def Obligations.StatusRegister : Prop :=
  ∀ (s : State) (v : Word),
    (let w := (s.memRead 0x030).1
     w.getLsbD 0 = s.busy ∧ w.getLsbD 1 = s.stall ∧ w.getLsbD 2 = s.done ∧ w.getLsbD 3 = s.ovr ∧
     w.getLsbD 4 = s.drop ∧ w.extractLsb' 5 3 = 0 ∧
     (s.err = .none → w.extractLsb' 8 4 = 0) ∧ (s.err = .illegal → w.extractLsb' 8 4 = 1) ∧
     (s.err = .cfg → w.extractLsb' 8 4 = 2) ∧ (s.err = .input → w.extractLsb' 8 4 = 3) ∧
     (s.err = .seq → w.extractLsb' 8 4 = 4) ∧
     (s.accst = .none → w.extractLsb' 12 2 = 0) ∧ (s.accst = .opened → w.extractLsb' 12 2 = 1) ∧
     (s.accst = .final → w.extractLsb' 12 2 = 2) ∧
     (s.hpfst = .uninit → w.extractLsb' 14 2 = 0) ∧ (s.hpfst = .fill → w.extractLsb' 14 2 = 1) ∧
     (s.hpfst = .run → w.extractLsb' 14 2 = 2) ∧ w.getLsbD 16 = s.res0.valid ∧
     w.getLsbD 17 = s.res1.valid ∧ w.getLsbD 18 = s.yvalid ∧ w.getLsbD 19 = s.eos ∧ w.extractLsb' 21 11 = 0 ∧
     w.getLsbD 20 = s.irq ∧
     (s.irq = true ↔
       (s.done = true ∧ s.cfg.ctrl.getLsbD 3 = true) ∨ (s.err ≠ .none ∧ s.cfg.ctrl.getLsbD 4 = true))) ∧
    (s.memWrite 0x030 v).done = (s.done && !v.getLsbD 2) ∧ (s.memWrite 0x030 v).ovr = (s.ovr && !v.getLsbD 3) ∧
    (s.memWrite 0x030 v).drop = (s.drop && !v.getLsbD 4) ∧
    { s.memWrite 0x030 v with done := s.done, ovr := s.ovr, drop := s.drop } = s

/-- A read changes nothing of the block: only the model's count of draws (log entry 7) can move, and it does only for a
volatile register while BUSY = 1, whose value is then free, the next one drawn; every other read is the register's value,
and a repeated one gives it again (20_memory.md R76, R81).  What each register below the windows reads is spelled out
(R72, R79, R80), but for ID, PARAM, HMAXR and STATUS, which have statements of their own.  That the windows' cells past
NMAX/2 and past HMAX are volatile while BUSY = 1, like the rest of their windows, is the model's (log entry 17). -/
def Obligations.ReadsHaveNoSideEffect : Prop :=
  ∀ (s : State) (a : Nat),
    { (s.memRead a).2 with draws := s.draws } = s ∧
    (s.busy = false → (s.memRead a).1 = s.regValue (regAt a) ∧ (s.memRead a).2 = s) ∧
    (∀ b ∈ [0x000, 0x004, 0x008, 0x00C, 0x010, 0x014, 0x018, 0x01C, 0x020, 0x024, 0x028, 0x02C, 0x030, 0x034, 0x03C,
        0x040], (s.memRead b).1 = s.regValue (regAt b) ∧ (s.memRead b).2 = s) ∧
    (s.busy = true →
      a ∈ [0x038, 0x044, 0x048, 0x04C, 0x050, 0x054, 0x058, 0x05C, 0x060, 0x064, 0x068, 0x06C, 0x070, 0x074, 0x080, 0x084,
        0x088, 0x08C, 0x0A0, 0x0A4, 0x0A8, 0x0AC, 0x0B0, 0x0B4, 0x0B8, 0x0BC, 0x0C0, 0x0C4, 0x0E0, 0x0E4, 0x0E8, 0x0EC,
        0x0F0, 0x0F4, 0x0F8, 0x0FC, 0x100, 0x104] ∨ (0x100000 ≤ a ∧ a < 0x300000) →
      s.memRead a = (Config.volatileRead s.draws, { s with draws := s.draws + 1 })) ∧
    (s.memRead 0x00C).1 = s.cfg.ctrl.setWidth 32 ∧ (s.memRead 0x010).1 = s.cfg.srate ∧
    (s.memRead 0x014).1 = s.cfg.log2n.setWidth 32 ∧ (s.memRead 0x018).1 = s.cfg.navg ∧
    (s.memRead 0x01C).1 = s.cfg.tfreq0 ∧ (s.memRead 0x020).1 = s.cfg.tfreq1 ∧
    (s.memRead 0x024).1 = s.cfg.halfw0.setWidth 32 ∧ (s.memRead 0x028).1 = s.cfg.halfw1.setWidth 32 ∧
    (s.memRead 0x02C).1 = 0 ∧ (s.memRead 0x034).1 = s.errcmd ∧ (s.memRead 0x03C).1 = 0 ∧
    (s.memRead 0x040).1.getLsbD 0 = s.eos ∧ (s.memRead 0x040).1.getLsbD 1 = decide (s.level = s.params.fifoDepth) ∧
    (s.memRead 0x040).1.extractLsb' 16 16 = BitVec.ofNat 16 s.level ∧
    (s.busy = false →
      (s.memRead 0x038).1 = s.passcnt ∧ (s.memRead 0x044).1 = s.hlen ∧ (s.memRead 0x048).1 = s.hfill ∧
      (s.memRead 0x04C).1 = s.accn ∧ (s.memRead 0x050).1 = s.accfs ∧ (s.memRead 0x054).1 = s.accnavg ∧
      (s.memRead 0x058).1 = s.res0.fbin ∧ (s.memRead 0x05C).1 = s.res1.fbin ∧
      (s.memRead 0x060).1 = s.hpf0.cur ∧ (s.memRead 0x064).1 = s.hpf1.cur ∧
      s.read64 0x068 = s.hpf0.sum ∧ s.read64 0x070 = s.hpf1.sum ∧
      s.read64 0x080 = rnd64Rat s.y0 ∧ s.read64 0x088 = rnd64Rat s.y1 ∧
      s.read64 0x0A0 = rnd64 s.res0.sigP ∧ s.read64 0x0A8 = rnd64 s.res0.noiseP ∧ s.read64 0x0B0 = rnd64 s.res0.sig ∧
      s.read64 0x0B8 = rnd64 s.res0.noise ∧ s.read64 0x0C0 = rnd64 s.res0.thdn ∧
      s.read64 0x0E0 = rnd64 s.res1.sigP ∧ s.read64 0x0E8 = rnd64 s.res1.noiseP ∧ s.read64 0x0F0 = rnd64 s.res1.sig ∧
      s.read64 0x0F8 = rnd64 s.res1.noise ∧ s.read64 0x100 = rnd64 s.res1.thdn)

/-- 20_memory.md R71: an access that is not 32 bits wide, or not aligned, is refused. -/
def Obligations.OddAccessesAreRefused : Prop :=
  ∀ (s : State) (a width : Nat) (rest : List HostOp), s.turn = .host → width ≠ 4 ∨ a % 4 ≠ 0 →
    (s.host = .read a width :: rest → step s = .refused (.badAccess a width)) ∧
    (∀ v, s.host = .write a width v :: rest → step s = .refused (.badAccess a width))

/-- 20_memory.md R78: the offsets the register map does not list read 0 and ignore writes, and so do the reserved bits of
PARAM, CTRL, LOG2N, HALFW, STATUS, DIN and INCTRL.  A write of any read-only register below the windows has no effect
either (R72, R77). -/
def Obligations.ReservedReadsZero : Prop :=
  (∀ (s : State) (a : Nat) (v : Word), a % 4 = 0 →
    (0x078 ≤ a ∧ a < 0x080) ∨ (0x090 ≤ a ∧ a < 0x0A0) ∨ (0x0C8 ≤ a ∧ a < 0x0E0) ∨ (0x108 ≤ a ∧ a < 0x100000) ∨
      (0x300000 ≤ a ∧ a < 0x400000) →
    s.memRead a = (0, s) ∧ s.memWrite a v = s) ∧
  (∀ (s : State) (v : Word), ∀ a ∈ [0x000, 0x004, 0x008, 0x034, 0x038, 0x044, 0x048, 0x04C, 0x050, 0x054, 0x058, 0x05C,
      0x060, 0x064, 0x068, 0x06C, 0x070, 0x074, 0x080, 0x084, 0x088, 0x08C, 0x0A0, 0x0A4, 0x0A8, 0x0AC, 0x0B0, 0x0B4, 0x0B8,
      0x0BC, 0x0C0, 0x0C4, 0x0E0, 0x0E4, 0x0E8, 0x0EC, 0x0F0, 0x0F4, 0x0F8, 0x0FC, 0x100, 0x104], s.memWrite a v = s) ∧
  ∀ (s : State) (v : Word), (s.memRead 0x004).1.extractLsb' 5 11 = 0 ∧ (s.memRead 0x00C).1.extractLsb' 5 27 = 0 ∧
    (s.memRead 0x014).1.extractLsb' 5 27 = 0 ∧ (s.memRead 0x024).1.extractLsb' 16 16 = 0 ∧
    (s.memRead 0x028).1.extractLsb' 16 16 = 0 ∧ (s.memRead 0x030).1.extractLsb' 5 3 = 0 ∧
    (s.memRead 0x030).1.extractLsb' 21 11 = 0 ∧ (s.memRead 0x03C).1 = 0 ∧ (s.memRead 0x040).1.extractLsb' 2 14 = 0 ∧
    s.memWrite 0x00C v = s.memWrite 0x00C (v &&& 0x1F#32) ∧ s.memWrite 0x014 v = s.memWrite 0x014 (v &&& 0x1F#32) ∧
    s.memWrite 0x024 v = s.memWrite 0x024 (v &&& 0xFFFF#32) ∧ s.memWrite 0x028 v = s.memWrite 0x028 (v &&& 0xFFFF#32) ∧
    s.memWrite 0x030 v = s.memWrite 0x030 (v &&& 0x1C#32) ∧ s.memWrite 0x03C v = s.memWrite 0x03C (v &&& 0xFF#32) ∧
    s.memWrite 0x040 v = s.memWrite 0x040 (v &&& 1#32)

/-- 20_memory.md R74, R75: the words of the spectrum window and of the HPF buffer window while BUSY = 0, 0 past the last
bin and past HMAX, and that writes to either are ignored, BUSY or not. -/
def Obligations.WindowsReadTheArrays : Prop :=
  ∀ (s : State) (c : Channel) (v : Word),
    (∀ k, 8 * k < 0x80000 →
      let a := 0x100000 + 0x80000 * channelNumber c + 8 * k
      (s.busy = false →
        (s.memRead a).1 = (if k ≤ s.params.nmax / 2 then (rnd64 (s.bin c k)).extractLsb' 0 32 else 0) ∧
        (s.memRead (a + 4)).1 = (if k ≤ s.params.nmax / 2 then (rnd64 (s.bin c k)).extractLsb' 32 32 else 0)) ∧
      s.memWrite a v = s ∧ s.memWrite (a + 4) v = s) ∧
    (∀ i, 4 * i < 0x80000 →
      let a := 0x200000 + 0x80000 * channelNumber c + 4 * i
      (s.busy = false → (s.memRead a).1 = if i < s.params.hmax then (s.hpf c).sample i else 0) ∧ s.memWrite a v = s)

/-- 20_memory.md R73: ID, PARAM and HMAXR, and that no step changes them. -/
def Obligations.IdentificationIsConstant : Prop :=
  (∀ s : State, s.params.legal = true →
    (s.memRead 0x000).1 = 0x5448444E#32 ∧
    (s.memRead 0x004).1.toNat = 2 ^ 16 * s.params.fifoDepth + s.params.log2nMax ∧
    (s.memRead 0x008).1.toNat = s.params.hmax) ∧
  ∀ s t : State, step s = .next t → t.params = s.params

/-- 00_scope.md R16, 20_memory.md R80: the readout of a real x ≥ 0, rational or not, is the finite binary64 pattern whose
value is nearest, the even one of two equally near; a negative x reads as its opposite with the sign bit set.  For a
negative x that rounds to zero or past the finite range, of which the block has none, that is the model's (log entry
15). -/
def Obligations.ReadoutIsNearestBinary64 : Prop :=
  (∀ x : SVal, 0 ≤ x.val → x.val < 2 ^ 1024 - 2 ^ 970 →
    let b := (rnd64 x).toNat
    b < 0x7FF0000000000000 ∧ ∀ c, c < 0x7FF0000000000000 →
      |(binary64Value b : ℝ) - x.val| ≤ |(binary64Value c : ℝ) - x.val| ∧
      (c ≠ b → |(binary64Value b : ℝ) - x.val| = |(binary64Value c : ℝ) - x.val| → b % 2 = 0)) ∧
  (∀ x y : SVal, x.val < 0 → y.val = -x.val → (rnd64 x).toNat = 2 ^ 63 + (rnd64 y).toNat) ∧
  (∀ q : Rat, 0 ≤ q → q < 2 ^ 1024 - 2 ^ 970 →
    let b := (rnd64Rat q).toNat
    b < 0x7FF0000000000000 ∧ ∀ c, c < 0x7FF0000000000000 →
      |binary64Value b - q| ≤ |binary64Value c - q| ∧
      (c ≠ b → |binary64Value b - q| = |binary64Value c - q| → b % 2 = 0)) ∧
  ∀ q : Rat, q < 0 → (rnd64Rat q).toNat = 2 ^ 63 + (rnd64Rat (-q)).toNat

/-! ## Invariants -/

/-- The invariants hold right after reset. -/
def Obligations.ResetMeetsTheInvariants : Prop :=
  State.reset.ControlInv ∧ State.reset.arraysCanonical = true ∧ State.reset.SumInv ∧ State.reset.ExactSpectrum

/-- Every step keeps the control invariant: legal parameters, FIFO within its depth, DONE and ERR never both set, no
command running under an error, the filter's phases with HLEN, HFILL and the cursors as 10_state.md R52 says, and a legal
accumulation latched (10_state.md R42, R46, R52; 60_exceptions.md R241, R243). -/
def Obligations.StepKeepsControlInvariant : Prop :=
  ∀ s t : State, s.ControlInv → step s = .next t → t.ControlInv

/-- Every step keeps the arrays in canonical form. -/
def Obligations.StepKeepsArraysCanonical : Prop :=
  ∀ s t : State, s.arraysCanonical = true → step s = .next t → t.arraysCanonical = true

/-- Every step keeps the filter's sum invariant: the running sum is the exact sum of the buffered values, no 64-bit wrap,
and the cells past HLEN, and before RUN those past HFILL, are 0 (10_state.md R45, 42_hpf.md R164).  During SRST's Init it
rests on log entry 14. -/
def Obligations.StepKeepsSumInvariant : Prop :=
  ∀ s t : State, s.ControlInv → s.arraysCanonical = true → s.SumInv → step s = .next t → t.SumInv

/-- Under ARITH = exact every step keeps each spectrum cell a non-negative real (10_state.md R47). -/
def Obligations.StepKeepsSpectrumNonNegative : Prop :=
  ∀ (s t : State) (sineNegated : Bool), s.params.arith = .exact sineNegated → s.ControlInv →
    s.arraysCanonical = true → s.ExactSpectrum → step s = .next t → t.ExactSpectrum
end

