-- ==== Sys2Proof/Laws/Bus.lean ====
section
/-! SUPPORT. The register map (Machine/Bus.lean): which register each offset is, and what reads and writes come to. -/

namespace Sys2Proof.Machine

/-! ## The map -/

theorem regAt_low {a : Nat} (h : a < 0x108) : regAt a = lowRegAt a := by
  simp only [regAt, Nat.not_le.mpr h, if_false]

theorem regAt_window {a : Nat} (h : 0x108 ≤ a) : regAt a = windowAt a := by
  simp only [regAt, h, if_true]

/-- The map below the windows and the offsets of the registers there agree. -/
theorem lowRegAt_offset : ∀ a, a < 0x108 → lowRegAt a ≠ .reserved → (lowRegAt a).offset = a := by
  decide +kernel

theorem regAt_spec_lo (c : Channel) {k : Nat} (h : 8 * k < 0x80000) :
    regAt (0x100000 + 0x80000 * channelNumber c + 8 * k) = .spec c k .lo := by
  rw [regAt_window (by omega), windowAt, if_pos (by cases c <;> simp only [channelNumber] <;> omega)]
  have h1 : sliceChannel (0x100000 + 0x80000 * channelNumber c + 8 * k - 0x100000) = c := by
    cases c
    · exact if_pos (by simp only [channelNumber]; omega)
    · exact if_neg (by simp only [channelNumber]; omega)
  have h2 : (0x100000 + 0x80000 * channelNumber c + 8 * k - 0x100000) % 0x80000 / 8 = k := by
    cases c <;> simp only [channelNumber] <;> omega
  have h3 : (0x100000 + 0x80000 * channelNumber c + 8 * k - 0x100000) % 8 < 4 := by
    cases c <;> simp only [channelNumber] <;> omega
  show Reg.spec (sliceChannel _) _ (if _ then _ else _) = _
  rw [h1, h2, if_pos h3]

theorem regAt_spec_hi (c : Channel) {k : Nat} (h : 8 * k < 0x80000) :
    regAt (0x100000 + 0x80000 * channelNumber c + 8 * k + 4) = .spec c k .hi := by
  rw [regAt_window (by omega), windowAt, if_pos (by cases c <;> simp only [channelNumber] <;> omega)]
  have h1 : sliceChannel (0x100000 + 0x80000 * channelNumber c + 8 * k + 4 - 0x100000) = c := by
    cases c
    · exact if_pos (by simp only [channelNumber]; omega)
    · exact if_neg (by simp only [channelNumber]; omega)
  have h2 : (0x100000 + 0x80000 * channelNumber c + 8 * k + 4 - 0x100000) % 0x80000 / 8 = k := by
    cases c <;> simp only [channelNumber] <;> omega
  have h3 : ¬(0x100000 + 0x80000 * channelNumber c + 8 * k + 4 - 0x100000) % 8 < 4 := by
    cases c <;> simp only [channelNumber] <;> omega
  show Reg.spec (sliceChannel _) _ (if _ then _ else _) = _
  rw [h1, h2, if_neg h3]

theorem regAt_hbuf (c : Channel) {i : Nat} (h : 4 * i < 0x80000) :
    regAt (0x200000 + 0x80000 * channelNumber c + 4 * i) = .hbuf c i := by
  rw [regAt_window (by omega), windowAt, if_neg (by omega), if_pos (by cases c <;> simp only [channelNumber] <;> omega)]
  have h1 : sliceChannel (0x200000 + 0x80000 * channelNumber c + 4 * i - 0x200000) = c := by
    cases c
    · exact if_pos (by simp only [channelNumber]; omega)
    · exact if_neg (by simp only [channelNumber]; omega)
  have h2 : (0x200000 + 0x80000 * channelNumber c + 4 * i - 0x200000) % 0x80000 / 4 = i := by
    cases c <;> simp only [channelNumber] <;> omega
  show Reg.hbuf (sliceChannel _) _ = _
  rw [h1, h2]

/-- Past the low registers only the two windows hold registers. -/
theorem regAt_outside {a : Nat} (h : 0x108 ≤ a) (hw : a < 0x100000 ∨ 0x300000 ≤ a) : regAt a = .reserved := by
  rw [regAt_window h, windowAt, if_neg (by omega), if_neg (by omega)]

/-! ## Reads and writes -/

theorem memRead_exact {s : State} {a : Nat} (h : s.busy = false ∨ (regAt a).isVolatile = false) :
    s.memRead a = (s.regValue (regAt a), s) := by
  rcases h with h | h <;> simp [State.memRead, h]

theorem memRead_volatile {s : State} {a : Nat} (h : s.busy = true) (hv : (regAt a).isVolatile = true) :
    s.memRead a = (Config.volatileRead s.draws, { s with draws := s.draws + 1 }) := by
  simp [State.memRead, h, hv]

/-- Whether a register is a configuration register (10_state.md R32). -/
def Reg.isConfiguration : Reg → Bool
  | .ctrl | .srate | .log2n | .navg | .tfreq _ | .halfw _ => true
  | _ => false

/-- A write of any register but a configuration register leaves them all. -/
theorem writeReg_cfg {s : State} {r : Reg} (v : Word) (h : r.isConfiguration = false) : (s.writeReg r v).cfg = s.cfg := by
  cases r <;> first | rfl | cases h
  · unfold State.writeReg State.dispatch
    simp only
    split
    · split <;> rfl
    · split
      · split <;> rfl
      · split
        · rfl
        · split <;> rfl
  · simp only [State.writeReg, State.push]; split <;> rfl
  · simp only [State.writeReg, State.writeInctrl]; split <;> rfl

/-- The configuration registers stand at their eight offsets. -/
theorem regAt_configuration {a : Nat} (h : (regAt a).isConfiguration = true) :
    a ∈ [0x00C, 0x010, 0x014, 0x018, 0x01C, 0x020, 0x024, 0x028] := by
  by_cases ha : a < 0x108
  · rw [regAt_low ha] at h
    have key : ∀ b, b < 0x108 → (lowRegAt b).isConfiguration = true →
        b ∈ [0x00C, 0x010, 0x014, 0x018, 0x01C, 0x020, 0x024, 0x028] := by decide +kernel
    exact key a ha h
  · rw [regAt_window (by omega)] at h
    unfold windowAt at h
    split at h
    · cases h
    · split at h <;> cases h

end Sys2Proof.Machine
end

