-- ==== Sys2Proof/Laws/Operands.lean ====
section
/-! SUPPORT. The input's operations (Machine/Operands.lean): an equation for each of their cases, and once for each
operation everything it can do to the state. -/

namespace Sys2Proof.Machine

/-! ## push -/

theorem push_drop {s : State} (b : Byte) (h : s.eos = true ∨ s.level = s.params.fifoDepth) :
    s.push b = { s with drop := true } := by
  rcases h with h | h <;> simp [State.push, h]

theorem push_take {s : State} (b : Byte) (h : s.eos = false) (hl : s.level ≠ s.params.fifoDepth) :
    s.push b = { s with fifo := s.fifo ++ [b] } := by
  simp [State.push, h, hl]

/-! ## InByte -/

theorem inByte_cons {s : State} {b : Byte} {rest : List Byte} (h : s.fifo = b :: rest) :
    inByte s = .byte b { s with fifo := rest, stall := false } := by
  simp only [inByte, h]

theorem inByte_waiting {s : State} (h : s.fifo = []) (he : s.eos = false) :
    inByte s = .waiting { s with stall := true } := by
  simp only [inByte, h, he]; rfl

theorem inByte_missing {s : State} (h : s.fifo = []) (he : s.eos = true) (ht : s.cfg.tol = false) :
    inByte s = .missing { s with stall := false } := by
  simp only [inByte, h, he, ht]; rfl

theorem inByte_sentinel {s : State} (h : s.fifo = []) (he : s.eos = true) (ht : s.cfg.tol = true) :
    inByte s = .byte s.params.sentinel { s with stall := false } := by
  simp only [inByte, h, he, ht]; rfl

/-! ## ReadFrame -/

theorem readFrame_full {s : State} (h : 2 * s.cfg.bytesPerChannel ≤ s.level) :
    readFrame s = .frame (decodeFrame s.cfg.w16 (s.fifo.take (2 * s.cfg.bytesPerChannel))).1
      (decodeFrame s.cfg.w16 (s.fifo.take (2 * s.cfg.bytesPerChannel))).2
      { s with fifo := s.fifo.drop (2 * s.cfg.bytesPerChannel), stall := false } := by
  simp only [readFrame, h, if_true]

theorem readFrame_waiting {s : State} (h : s.level < 2 * s.cfg.bytesPerChannel) (he : s.eos = false) :
    readFrame s = .waiting { s with stall := true } := by
  simp only [readFrame, Nat.not_le.mpr h, he, if_false]; rfl

theorem readFrame_short {s : State} (h : s.level < 2 * s.cfg.bytesPerChannel) (he : s.eos = true)
    (ht : s.cfg.tol = false) : readFrame s = .short { s with fifo := [], stall := false } := by
  simp only [readFrame, Nat.not_le.mpr h, he, ht, if_false, if_true]; rfl

theorem readFrame_sentinel {s : State} (h : s.level < 2 * s.cfg.bytesPerChannel) (he : s.eos = true)
    (ht : s.cfg.tol = true) :
    readFrame s = .frame
      (decodeFrame s.cfg.w16 (s.fifo ++ List.replicate (2 * s.cfg.bytesPerChannel - s.level) s.params.sentinel)).1
      (decodeFrame s.cfg.w16 (s.fifo ++ List.replicate (2 * s.cfg.bytesPerChannel - s.level) s.params.sentinel)).2
      { s with fifo := [], stall := false } := by
  simp only [readFrame, Nat.not_le.mpr h, he, ht, if_false, if_true]

/-- A frame that can be decoded decodes from `frameInput`, its bytes leave the FIFO and STALL is cleared. -/
theorem readFrame_ready {s : State} (h : s.frameReady) :
    readFrame s = .frame (decodeFrame s.cfg.w16 s.frameInput).1 (decodeFrame s.cfg.w16 s.frameInput).2
      { s with fifo := s.fifo.drop s.frameBytes, stall := false } := by
  by_cases h1 : 2 * s.cfg.bytesPerChannel ≤ s.level
  · rw [readFrame_full h1]
    simp [State.frameInput, State.frameBytes, Nat.sub_eq_zero_of_le h1]
  · have h1 := Nat.not_le.mp h1
    obtain ⟨he, ht⟩ := h.resolve_left (Nat.not_le.mpr h1)
    have hl : s.fifo.length ≤ 2 * s.cfg.bytesPerChannel := h1.le
    rw [readFrame_sentinel h1 he ht]
    simp [State.frameInput, State.frameBytes, List.take_of_length_le hl, List.drop_of_length_le hl]

/-- A frame takes bytes off the front of the FIFO, clears STALL and leaves the rest of the state. -/
theorem readFrame_frame {s t : State} {vL vR : Word} (h : readFrame s = .frame vL vR t) :
    ∃ n, t = { s with fifo := s.fifo.drop n, stall := false } := by
  by_cases h1 : 2 * s.cfg.bytesPerChannel ≤ s.level
  · rw [readFrame_full h1] at h
    injection h with _ _ h
    exact ⟨_, h.symm⟩
  · have h1 := Nat.not_le.mp h1
    rcases (Bool.eq_false_or_eq_true s.eos).symm with he | he
    · rw [readFrame_waiting h1 he] at h; cases h
    · rcases (Bool.eq_false_or_eq_true s.cfg.tol).symm with ht | ht
      · rw [readFrame_short h1 he ht] at h; cases h
      · rw [readFrame_sentinel h1 he ht] at h
        injection h with _ _ h
        exact ⟨s.fifo.length, by simp [← h]⟩

/-- Waiting sets STALL alone, and only while the frame's bytes are missing and the stream goes on. -/
theorem readFrame_waits {s t : State} (h : readFrame s = .waiting t) :
    t = { s with stall := true } ∧ s.level < 2 * s.cfg.bytesPerChannel ∧ s.eos = false := by
  by_cases h1 : 2 * s.cfg.bytesPerChannel ≤ s.level
  · rw [readFrame_full h1] at h; cases h
  · have h1 := Nat.not_le.mp h1
    rcases (Bool.eq_false_or_eq_true s.eos).symm with he | he
    · rw [readFrame_waiting h1 he] at h
      injection h with h
      exact ⟨h.symm, h1, he⟩
    · rcases (Bool.eq_false_or_eq_true s.cfg.tol).symm with ht | ht
      · rw [readFrame_short h1 he ht] at h; cases h
      · rw [readFrame_sentinel h1 he ht] at h; cases h

/-- A frame cut short consumes what there is, in strict mode, past the end of the stream. -/
theorem readFrame_shorts {s t : State} (h : readFrame s = .short t) :
    t = { s with fifo := [], stall := false } ∧ s.level < 2 * s.cfg.bytesPerChannel ∧ s.eos = true ∧
      s.cfg.tol = false := by
  by_cases h1 : 2 * s.cfg.bytesPerChannel ≤ s.level
  · rw [readFrame_full h1] at h; cases h
  · have h1 := Nat.not_le.mp h1
    rcases (Bool.eq_false_or_eq_true s.eos).symm with he | he
    · rw [readFrame_waiting h1 he] at h; cases h
    · rcases (Bool.eq_false_or_eq_true s.cfg.tol).symm with ht | ht
      · rw [readFrame_short h1 he ht] at h
        injection h with h
        exact ⟨h.symm, h1, he, ht⟩
      · rw [readFrame_sentinel h1 he ht] at h; cases h

/-! ## FrameIn -/

theorem hpfst_cases (s : State) : s.hpfst = .uninit ∨ s.hpfst = .fill ∨ s.hpfst = .run := by
  cases s.hpfst <;> simp

theorem frameIn_bypass {s : State} (h : s.cfg.hpfen = false) :
    frameIn s = match readFrame s with
      | .waiting t     => .waiting t
      | .short t       => .failed .input t
      | .frame vL vR t => .frame (normalize vL) (normalize vR) t := by
  cases hr : readFrame s <;> simp [frameIn, h, hr]

theorem frameIn_uninit {s : State} (h : s.cfg.hpfen = true) (hp : s.hpfst = .uninit) :
    frameIn s = if s.hpfLengthBad then .failed .cfg s else .preparing s.hpfStart := by
  simp only [frameIn, h, hp, if_true]

theorem frameIn_fill {s : State} (h : s.cfg.hpfen = true) (hp : s.hpfst = .fill) :
    frameIn s = match readFrame s with
      | .waiting t     => .waiting t
      | .short t       => .failed .input t
      | .frame vL vR t => .preparing (t.hpfPreload vL vR) := by
  cases hr : readFrame s <;> simp only [frameIn, h, hp, if_true, hr]

theorem frameIn_run {s : State} (h : s.cfg.hpfen = true) (hp : s.hpfst = .run) :
    frameIn s = match readFrame s with
      | .waiting t     => .waiting t
      | .short t       => .failed .input t
      | .frame vL vR t =>
        .frame (t.hpf0.step t.hlen.toNat vL).2 (t.hpf1.step t.hlen.toNat vR).2
          { t with hpf0 := (t.hpf0.step t.hlen.toNat vL).1, hpf1 := (t.hpf1.step t.hlen.toNat vR).1 } := by
  cases hr : readFrame s <;> simp only [frameIn, h, hp, if_true, hr]

/-- FrameIn waits as ReadFrame does, and never while the filter is about to start. -/
theorem frameIn_waits {s t : State} (h : frameIn s = .waiting t) :
    t = { s with stall := true } ∧ s.level < 2 * s.cfg.bytesPerChannel ∧ s.eos = false ∧
      (s.cfg.hpfen = true → s.hpfst ≠ .uninit) := by
  have key : (s.cfg.hpfen = true → s.hpfst ≠ .uninit) ∧ readFrame s = .waiting t := by
    rcases (Bool.eq_false_or_eq_true s.cfg.hpfen).symm with he | he
    · rw [frameIn_bypass he] at h
      split at h <;> first | (cases h; done) | skip
      rename_i h'; injection h with h; subst h; exact ⟨fun h => (Bool.false_ne_true (he.symm.trans h)).elim, h'⟩
    · rcases hpfst_cases s with hp | hp | hp
      · rw [frameIn_uninit he hp] at h; split at h <;> cases h
      · rw [frameIn_fill he hp] at h
        split at h <;> first | (cases h; done) | skip
        rename_i h'; injection h with h; subst h; exact ⟨fun _ => by rw [hp]; simp, h'⟩
      · rw [frameIn_run he hp] at h
        split at h <;> first | (cases h; done) | skip
        rename_i h'; injection h with h; subst h; exact ⟨fun _ => by rw [hp]; simp, h'⟩
  obtain ⟨hu, hr⟩ := key
  obtain ⟨a, b, c⟩ := readFrame_waits hr
  exact ⟨a, b, c, hu⟩

/-- FrameIn fails at the filter's start with ERR_CFG, touching nothing, or in ReadFrame with ERR_INPUT, consuming what
there is. -/
theorem frameIn_fails {s t : State} {e : ErrCode} (h : frameIn s = .failed e t) :
    (e = .cfg ∧ t = s ∧ s.cfg.hpfen = true ∧ s.hpfst = .uninit ∧ s.hpfLengthBad = true) ∨
    (e = .input ∧ t = { s with fifo := [], stall := false } ∧ s.level < 2 * s.cfg.bytesPerChannel ∧ s.eos = true ∧
      s.cfg.tol = false) := by
  rcases (Bool.eq_false_or_eq_true s.cfg.hpfen).symm with he | he
  · rw [frameIn_bypass he] at h
    split at h <;> first | (cases h; done) | skip
    rename_i h'; injection h with h1 h; subst h h1; exact .inr ⟨rfl, readFrame_shorts h'⟩
  · rcases hpfst_cases s with hp | hp | hp
    · rw [frameIn_uninit he hp] at h
      split at h
      · injection h with h1 h; exact .inl ⟨h1.symm, h.symm, he, hp, ‹_›⟩
      · cases h
    · rw [frameIn_fill he hp] at h
      split at h <;> first | (cases h; done) | skip
      rename_i h'; injection h with h1 h; subst h h1; exact .inr ⟨rfl, readFrame_shorts h'⟩
    · rw [frameIn_run he hp] at h
      split at h <;> first | (cases h; done) | skip
      rename_i h'; injection h with h1 h; subst h h1; exact .inr ⟨rfl, readFrame_shorts h'⟩

/-- A step of FrameIn without a frame is the filter's start, or a preload step. -/
theorem frameIn_prepares {s t : State} (h : frameIn s = .preparing t) :
    s.cfg.hpfen = true ∧
    ((s.hpfst = .uninit ∧ s.hpfLengthBad = false ∧ t = s.hpfStart) ∨
     (s.hpfst = .fill ∧ ∃ vL vR u, readFrame s = .frame vL vR u ∧ t = u.hpfPreload vL vR)) := by
  rcases (Bool.eq_false_or_eq_true s.cfg.hpfen).symm with he | he
  · rw [frameIn_bypass he] at h; split at h <;> cases h
  · rcases hpfst_cases s with hp | hp | hp
    · rw [frameIn_uninit he hp] at h
      split at h
      · cases h
      · injection h with h; exact ⟨he, .inl ⟨hp, Bool.eq_false_iff.mpr ‹_›, h.symm⟩⟩
    · rw [frameIn_fill he hp] at h
      split at h <;> first | (cases h; done) | skip
      rename_i h'; injection h with h; exact ⟨he, .inr ⟨hp, _, _, _, h', h.symm⟩⟩
    · rw [frameIn_run he hp] at h; split at h <;> cases h

/-- A frame of FrameIn is a normalized one, the filter bypassed, or the running filter's output on both channels. -/
theorem frameIn_frame {s t : State} {x0 x1 : Rat} (h : frameIn s = .frame x0 x1 t) :
    ∃ vL vR u, readFrame s = .frame vL vR u ∧
    ((s.cfg.hpfen = false ∧ x0 = normalize vL ∧ x1 = normalize vR ∧ t = u) ∨
     (s.cfg.hpfen = true ∧ s.hpfst = .run ∧
      x0 = (u.hpf0.step u.hlen.toNat vL).2 ∧ x1 = (u.hpf1.step u.hlen.toNat vR).2 ∧
      t = { u with hpf0 := (u.hpf0.step u.hlen.toNat vL).1, hpf1 := (u.hpf1.step u.hlen.toNat vR).1 })) := by
  rcases (Bool.eq_false_or_eq_true s.cfg.hpfen).symm with he | he
  · rw [frameIn_bypass he] at h
    split at h <;> first | (cases h; done) | skip
    rename_i h'; injection h with h1 h2 h
    exact ⟨_, _, _, h', .inl ⟨he, h1.symm, h2.symm, h.symm⟩⟩
  · rcases hpfst_cases s with hp | hp | hp
    · rw [frameIn_uninit he hp] at h; split at h <;> cases h
    · rw [frameIn_fill he hp] at h; split at h <;> cases h
    · rw [frameIn_run he hp] at h
      split at h <;> first | (cases h; done) | skip
      rename_i h'; injection h with h1 h2 h
      exact ⟨_, _, _, h', .inr ⟨he, hp, h1.symm, h2.symm, h.symm⟩⟩

end Sys2Proof.Machine
end

