-- ==== Sys2Proof/Laws/Exec.lean ====
section
/-! SUPPORT. What `exec` and `step` can answer, said once, so that no later proof unfolds them. -/

namespace Sys2Proof.Machine

/-! ## Every command goes on -/

theorem execDiscard_next (n : Nat) (s : State) : ∃ t, execDiscard n s = .next t := by
  unfold execDiscard; split <;> exact ⟨_, rfl⟩

theorem execFrame_next (s : State) : ∃ t, execFrame s = .next t := by
  unfold execFrame
  split
  · exact ⟨_, rfl⟩
  · split <;> exact ⟨_, rfl⟩

theorem execAccClear_next (s : State) : ∃ t, execAccClear s = .next t := by
  unfold execAccClear
  split
  · exact ⟨_, rfl⟩
  · split <;> exact ⟨_, rfl⟩

theorem execAccPass_next (s : State) : ∃ t, execAccPass s = .next t := by
  unfold execAccPass
  split
  · split
    · split <;> exact ⟨_, rfl⟩
    · exact ⟨_, rfl⟩
  · split <;> exact ⟨_, rfl⟩

theorem execAccFinal_next (s : State) : ∃ t, execAccFinal s = .next t := by
  unfold execAccFinal
  split
  · exact ⟨_, rfl⟩
  · split <;> exact ⟨_, rfl⟩

theorem execThdn_next (ch : Channel) (s : State) : ∃ t, execThdn ch s = .next t := by
  unfold execThdn
  split
  · exact ⟨_, rfl⟩
  · split <;> exact ⟨_, rfl⟩

theorem execMeasure_next (s : State) : ∃ t, execMeasure s = .next t := by
  unfold execMeasure
  split <;> first | exact ⟨_, rfl⟩ | skip
  split <;> exact ⟨_, rfl⟩

/-- No command faults or is refused, whatever the state and the progress. -/
theorem exec_next (i : Instr) (s : State) : ∃ t, exec i s = .next t := by
  cases i with
  | nop       => exact ⟨_, rfl⟩
  | srst      => exact ⟨_, rfl⟩
  | discard n => exact execDiscard_next n s
  | frame     => exact execFrame_next s
  | accClear  => exact execAccClear_next s
  | accPass   => exact execAccPass_next s
  | accFinal  => exact execAccFinal_next s
  | thdn ch   => exact execThdn_next ch s
  | measure   => exact execMeasure_next s

/-- The sequencer never faults and is never refused. -/
theorem seqStep_next (s : State) : ∃ t, seqStep s = .next t := by
  unfold seqStep
  split <;> first | exact ⟨_, rfl⟩ | skip
  split
  · exact exec_next _ _
  · exact ⟨_, rfl⟩

/-! ## The steps -/

/-- A sequencer step passes, advances or ends Init, or is `exec` of the command the running word decodes to, or the
entry of ERR_ILLEGAL. -/
theorem seqStep_cases {s t : State} (h : seqStep s = .next t) :
    (s.seq = .idle ∧ t = s) ∨
    (∃ srst, s.seq = .init 0 srst ∧ t = s.endInit srst) ∨
    (∃ left srst, s.seq = .init (left + 1) srst ∧ t = { s with seq := .init left srst }) ∨
    (∃ w p i, s.seq = .busy w p ∧ decode w = .ok i ∧ exec i s = .next t) ∨
    (∃ w p e, s.seq = .busy w p ∧ decode w = .error e ∧ t = s.raise .illegal w) := by
  unfold seqStep at h
  split at h
  · injection h with h; exact .inl ⟨‹_›, h.symm⟩
  · injection h with h; exact .inr (.inl ⟨_, ‹_›, h.symm⟩)
  · injection h with h; exact .inr (.inr (.inl ⟨_, _, ‹_›, h.symm⟩))
  · split at h
    · exact .inr (.inr (.inr (.inl ⟨_, _, _, ‹_›, ‹_›, h⟩)))
    · injection h with h; exact .inr (.inr (.inr (.inr ⟨_, _, _, ‹_›, ‹_›, h.symm⟩)))

/-- A host step passes, or is one access of the interface, one poll of WAIT, or hardware reset. -/
theorem hostStep_cases {s t : State} (h : hostStep s = .next t) :
    (s.host = [] ∧ t = s) ∨
    (∃ a rest, s.host = .read a 4 :: rest ∧ a % 4 = 0 ∧ a < 0x400000 ∧ t = { s with host := rest }.hostRead a) ∨
    (∃ a v rest, s.host = .write a 4 v :: rest ∧ a % 4 = 0 ∧ a < 0x400000 ∧ t = { s with host := rest }.memWrite a v) ∨
    (∃ rest, s.host = .wait :: rest ∧
      t = { s with host := if s.busy then .wait :: rest else rest }.hostRead 0x030) ∨
    (∃ rest, s.host = .reset :: rest ∧ t = { s with host := rest }.hardwareReset) := by
  unfold hostStep at h
  split at h
  · injection h with h; exact .inl ⟨‹_›, h.symm⟩
  · split at h
    · cases h
    · rename_i he
      injection h with h
      unfold accessRefused at he
      split at he
      · cases he
      · split at he
        · cases he
        · rename_i h1 h2
          push Not at h1
          obtain ⟨rfl, h3⟩ := h1
          exact .inr (.inl ⟨_, _, ‹_›, h3, by omega, h.symm⟩)
  · split at h
    · cases h
    · rename_i he
      injection h with h
      unfold accessRefused at he
      split at he
      · cases he
      · split at he
        · cases he
        · rename_i h1 h2
          push Not at h1
          obtain ⟨rfl, h3⟩ := h1
          exact .inr (.inr (.inl ⟨_, _, _, ‹_›, h3, by omega, h.symm⟩))
  · injection h with h; exact .inr (.inr (.inr (.inl ⟨_, ‹_›, h.symm⟩)))
  · injection h with h; exact .inr (.inr (.inr (.inr ⟨_, ‹_›, h.symm⟩)))

/-- A step is one of the agent whose turn it is. -/
theorem step_cases {s t : State} (h : step s = .next t) :
    (s.turn = .sequencer ∧ seqStep s.takeTurn = .next t) ∨ (s.turn = .host ∧ hostStep s.takeTurn = .next t) := by
  unfold step agentStep at h
  split at h
  · exact .inl ⟨‹_›, h⟩
  · exact .inr ⟨‹_›, h⟩

end Sys2Proof.Machine
end

