-- ==== Sys2Proof/Laws/Memory.lean ====
section
/-! SUPPORT. The arrays (Machine/Ops.lean): reading after writing, and that every operation keeps the canonical form. -/

namespace Sys2Proof.Machine

@[simp] theorem Memory.read_nil {α : Type} (d : α) (i : Nat) : Memory.read d [] i = d := rfl

variable {α : Type} [DecidableEq α] {d : α}

theorem Memory.wfFrom_mono {m : Memory α} {lo lo' : Nat} (h : lo' ≤ lo) (hm : Memory.wfFrom d lo m = true) :
    Memory.wfFrom d lo' m = true := by
  cases m with
  | nil => rfl
  | cons x r =>
    obtain ⟨k, v⟩ := x
    simp only [Memory.wfFrom, Bool.and_eq_true, decide_eq_true_eq] at hm ⊢
    exact ⟨⟨by omega, hm.1.2⟩, hm.2⟩

/-- An index below every listed one is not listed. -/
theorem Memory.read_below {m : Memory α} {lo i : Nat} (hm : Memory.wfFrom d lo m = true) (h : i < lo) :
    Memory.read d m i = d := by
  induction m generalizing lo with
  | nil => rfl
  | cons x r ih =>
    obtain ⟨k, v⟩ := x
    simp only [Memory.wfFrom, Bool.and_eq_true, decide_eq_true_eq] at hm
    have : i ≠ k := by omega
    simp only [Memory.read, if_neg this]
    exact ih hm.2 (by omega)

theorem Memory.wfFrom_write {m : Memory α} {lo i : Nat} (v : α) (hm : Memory.wfFrom d lo m = true) (h : lo ≤ i) :
    Memory.wfFrom d lo (Memory.write d i v m) = true := by
  induction m generalizing lo with
  | nil => simp only [Memory.write]; split_ifs with hv <;> simp [Memory.wfFrom, hv, h]
  | cons x r ih =>
    obtain ⟨k, w⟩ := x
    simp only [Memory.wfFrom, Bool.and_eq_true, decide_eq_true_eq] at hm
    obtain ⟨⟨h1, h2⟩, h3⟩ := hm
    simp only [Memory.write]
    split_ifs with a b c e
    · simp [Memory.wfFrom, h1, h2, h3]
    · have : i + 1 ≤ k := a
      simp [Memory.wfFrom, h, b, h2, h3, this]
    · exact Memory.wfFrom_mono (by omega) h3
    · subst c; simp [Memory.wfFrom, h, e, h3]
    · simp [Memory.wfFrom, h1, h2, ih h3 (by omega)]

/-- A write keeps the canonical form. -/
theorem Memory.wf_write {m : Memory α} (i : Nat) (v : α) (hm : Memory.wf d m = true) :
    Memory.wf d (Memory.write d i v m) = true := Memory.wfFrom_write v hm (Nat.zero_le i)

/-- The empty array is in canonical form. -/
theorem Memory.wf_nil : Memory.wf d ([] : Memory α) = true := rfl

theorem Memory.read_writeFrom {m : Memory α} {lo : Nat} (i j : Nat) (v : α) (hm : Memory.wfFrom d lo m = true) :
    Memory.read d (Memory.write d i v m) j = if j = i then v else Memory.read d m j := by
  induction m generalizing lo with
  | nil => simp only [Memory.write]; split_ifs with a b b <;> simp_all [Memory.read]
  | cons x r ih =>
    obtain ⟨k, w⟩ := x
    simp only [Memory.wfFrom, Bool.and_eq_true, decide_eq_true_eq] at hm
    obtain ⟨⟨h1, h2⟩, h3⟩ := hm
    by_cases hji : j = i
    · subst hji
      rw [if_pos rfl]
      simp only [Memory.write]
      split_ifs with a b c e
      · have : j ≠ k := by omega
        simp only [Memory.read, if_neg this, b]
        exact Memory.read_below h3 (by omega)
      · simp [Memory.read]
      · rw [e]; exact Memory.read_below h3 (by omega)
      · simp [Memory.read]
      · simp only [Memory.read, if_neg c]
        rw [ih h3, if_pos rfl]
    · rw [if_neg hji]
      simp only [Memory.write]
      split_ifs with a b c e
      · rfl
      · simp only [Memory.read, if_neg hji]
      · subst c
        simp only [Memory.read, if_neg hji]
      · subst c
        simp only [Memory.read, if_neg hji]
      · simp only [Memory.read]
        rw [ih h3, if_neg hji]

/-- A read after a write gives the value written at its index, and every other index as before. -/
theorem Memory.read_write {m : Memory α} (hm : Memory.wf d m = true) (i j : Nat) (v : α) :
    Memory.read d (Memory.write d i v m) j = if j = i then v else Memory.read d m j := Memory.read_writeFrom i j v hm

end Sys2Proof.Machine
end

