-- ==== Sys2Proof/Laws/Hpf.lean ====
section
/-! SUPPORT. One channel of the high-pass filter (Machine/Operands.lean): what a preload step and a running step
leave in its buffer, its sum and its cursor, and the output. -/

namespace Sys2Proof.Machine

theorem preload_sample {h : HpfChan} (hw : Memory.wf 0 h.buf = true) (fill : Nat) (v : Word) (i : Nat) :
    (h.preload fill v).sample i = if i = fill then v else h.sample i := by
  unfold HpfChan.sample HpfChan.preload
  exact Memory.read_write hw _ _ _

theorem preload_wf {h : HpfChan} (hw : Memory.wf 0 h.buf = true) (fill : Nat) (v : Word) :
    Memory.wf 0 (h.preload fill v).buf = true := Memory.wf_write _ _ hw

@[simp] theorem preload_cur (h : HpfChan) (fill : Nat) (v : Word) : (h.preload fill v).cur = h.cur := rfl

theorem step_sample {h : HpfChan} (hw : Memory.wf 0 h.buf = true) (hlen : Nat) (v : Word) (i : Nat) :
    (h.step hlen v).1.sample i = if i = h.cur.toNat then v else h.sample i := by
  unfold HpfChan.sample HpfChan.step
  exact Memory.read_write hw _ _ _

theorem step_wf {h : HpfChan} (hw : Memory.wf 0 h.buf = true) (hlen : Nat) (v : Word) :
    Memory.wf 0 (h.step hlen v).1.buf = true := Memory.wf_write _ _ hw

theorem step_sum (h : HpfChan) (hlen : Nat) (v : Word) :
    (h.step hlen v).1.sum = BitVec.ofInt 64 (h.sum.toInt + v.toInt - (h.sample h.cur.toNat).toInt) := rfl

theorem step_cur {h : HpfChan} {hlen : Nat} (v : Word) (h1 : 0 < hlen) (h2 : hlen ≤ 2 ^ 32) :
    (h.step hlen v).1.cur.toNat = (h.cur.toNat + 1) % hlen := by
  simp only [HpfChan.step, BitVec.toNat_ofNat]
  exact Nat.mod_eq_of_lt (lt_of_lt_of_le (Nat.mod_lt _ h1) h2)

/-- The centre sample is never the one just stored (42_hpf.md R163). -/
theorem centre_ne_cursor {cur hlen : Nat} (h2 : 2 ≤ hlen) (hc : cur < hlen) : (cur + hlen / 2) % hlen ≠ cur := by
  rcases Nat.lt_or_ge (cur + hlen / 2) hlen with h | h
  · rw [Nat.mod_eq_of_lt h]; omega
  · rw [Nat.mod_eq_sub_mod h, Nat.mod_eq_of_lt (by omega)]; omega

/-- The output in terms of the buffer before the step (42_hpf.md R163). -/
theorem step_output {h : HpfChan} (hw : Memory.wf 0 h.buf = true) {hlen : Nat} (v : Word) (h2 : 2 ≤ hlen)
    (hc : h.cur.toNat < hlen) :
    (h.step hlen v).2 = normalize (h.sample ((h.cur.toNat + hlen / 2) % hlen)) -
      ((h.step hlen v).1.sum.toInt : Rat) / (hlen * 2 ^ 31) := by
  have : Memory.read 0 (Memory.write 0 h.cur.toNat v h.buf) ((h.cur.toNat + hlen / 2) % hlen) =
      h.sample ((h.cur.toNat + hlen / 2) % hlen) := by
    rw [Memory.read_write hw _ _ _, if_neg (centre_ne_cursor h2 hc)]; rfl
  simp only [HpfChan.step, normalize, this]

end Sys2Proof.Machine
end

