-- ==== Sys2Proof/Laws/PerInstr.lean ====
section
/-! SUPPORT. Facts about a command as syntax, one lemma per constructor. -/

namespace Sys2Proof.Laws.RowSelected

/-- A well-formed command's word is selected by the opcode map's row of its mnemonic (30_encoding.md R102). -/
def Statement (i : Instr) : Prop :=
  i.wellFormed = true → ∃ r ∈ opcodeMap, r.mnemonic = i.mnemonic ∧ r.selects (encode i) = true

theorem nop : Statement .nop := fun _ => ⟨⟨"NOP", 0x00000000#32, 0xFFFFFFFF#32⟩, by decide⟩

theorem srst : Statement .srst := fun _ => ⟨⟨"SRST", 0x01000000#32, 0xFFFFFFFF#32⟩, by decide⟩

theorem discard (count : Nat) : Statement (.discard count) := fun _ =>
  ⟨⟨"DISCARD", 0x02000000#32, 0xFF000000#32⟩, by decide, rfl, by
    have mask : ∀ v : BitVec 24, (0x02000000#32 ||| v.setWidth 32) &&& 0xFF000000#32 = 0x02000000#32 := by
      intro v
      apply BitVec.eq_of_getLsbD_eq
      intro j hj
      by_cases h : j < 24
      · have : BitVec.getLsbD 0xFF000000#32 j = false := by
          interval_cases j <;> decide
        have h2 : BitVec.getLsbD 0x02000000#32 j = false := by
          interval_cases j <;> decide
        simp only [BitVec.getLsbD_and, this, h2, Bool.and_false]
      · have : v.getLsbD j = false := BitVec.getLsbD_of_ge v j (by omega)
        have h3 : BitVec.getLsbD 0x02000000#32 j = true → BitVec.getLsbD 0xFF000000#32 j = true := by
          interval_cases j <;> decide
        simp only [BitVec.getLsbD_and, BitVec.getLsbD_or, BitVec.getLsbD_setWidth, this, Bool.and_false, Bool.or_false]
        cases h4 : BitVec.getLsbD 0x02000000#32 j <;> simp_all
    exact decide_eq_true (mask (BitVec.ofNat 24 count))⟩

theorem frame : Statement .frame := fun _ => ⟨⟨"FRAME", 0x03000000#32, 0xFFFFFFFF#32⟩, by decide⟩

theorem accClear : Statement .accClear := fun _ => ⟨⟨"ACC_CLEAR", 0x10000000#32, 0xFFFFFFFF#32⟩, by decide⟩

theorem accPass : Statement .accPass := fun _ => ⟨⟨"ACC_PASS", 0x11000000#32, 0xFFFFFFFF#32⟩, by decide⟩

theorem accFinal : Statement .accFinal := fun _ => ⟨⟨"ACC_FINAL", 0x12000000#32, 0xFFFFFFFF#32⟩, by decide⟩

theorem thdn (ch : Channel) : Statement (.thdn ch) := fun _ =>
  ⟨⟨"THDN", 0x20000000#32, 0xFFFFFFFE#32⟩, by cases ch <;> decide⟩

theorem measure : Statement .measure := fun _ => ⟨⟨"MEASURE", 0x21000000#32, 0xFFFFFFFF#32⟩, by decide⟩

end Sys2Proof.Laws.RowSelected
end

