-- ==== Sys2Proof/Laws/Trig.lean ====
section
/-! SUPPORT. The arithmetic of Machine/Trig.lean is real arithmetic: every operation on combinations of cosines names the
real number it should, and the sign of a combination is the sign of its number. -/

namespace Sys2Proof

open Real

/-! ## Trig is a ring of real numbers -/

@[simp] theorem Trig.val_nil : Trig.val [] = 0 := rfl

@[simp] theorem Trig.val_cons (t c : Rat) (r : Trig) :
    Trig.val ((t, c) :: r) = (c : ℝ) * cos (2 * π * t) + Trig.val r := rfl

@[simp] theorem Trig.val_insert (t c : Rat) (a : Trig) :
    (a.insert t c).val = (c : ℝ) * cos (2 * π * t) + a.val := by
  induction a with
  | nil => by_cases h : c = 0 <;> simp [Trig.insert, h]
  | cons x r ih =>
    obtain ⟨u, d⟩ := x
    simp only [Trig.insert]
    split_ifs with h1 h2 h3 h4
    · simp [h2]
    · simp
    · have : (c : ℝ) = -d := by exact_mod_cast eq_neg_of_add_eq_zero_left h4
      simp [h3, this]
    · simp [h3]; ring
    · simp [ih]; ring

theorem cos_foldTurn (t : Rat) : cos (2 * π * (foldTurn t : Rat)) = cos (2 * π * t) := by
  have hf : cos (2 * π * ((t - t.floor : Rat) : ℝ)) = cos (2 * π * t) := by
    have : 2 * π * ((t - t.floor : Rat) : ℝ) = 2 * π * t - (t.floor : ℤ) * (2 * π) := by push_cast; ring
    rw [this, cos_sub_int_mul_two_pi]
  simp only [foldTurn]
  split_ifs
  · rw [← hf]
    have : 2 * π * ((1 - (t - t.floor) : Rat) : ℝ) = -(2 * π * ((t - t.floor : Rat) : ℝ)) + 2 * π := by push_cast; ring
    rw [this, cos_add_two_pi, cos_neg]
  · exact hf

@[simp] theorem Trig.val_addCos (t c : Rat) (a : Trig) :
    (a.addCos t c).val = (c : ℝ) * cos (2 * π * t) + a.val := by
  rw [← cos_foldTurn t]
  have key : ∀ g h d : Rat, (d : ℝ) * cos (2 * π * h) = (c : ℝ) * cos (2 * π * g) →
      Trig.val (if h = 1 / 4 then a else if h = 1 / 6 then a.insert 0 (d / 2) else a.insert h d) =
        (c : ℝ) * cos (2 * π * g) + a.val := by
    intro g h d e
    rw [← e]
    split_ifs with h1 h2
    · subst h1
      have : 2 * π * ((1 / 4 : Rat) : ℝ) = π / 2 := by push_cast; ring
      rw [this]; simp
    · subst h2
      have : 2 * π * ((1 / 6 : Rat) : ℝ) = π / 3 := by push_cast; ring
      rw [this, cos_pi_div_three]; simp; ring
    · simp
  unfold Trig.addCos
  generalize foldTurn t = g
  by_cases h : 1 / 4 < g
  · dsimp only; rw [if_pos h]
    apply key
    have : 2 * π * ((1 / 2 - g : Rat) : ℝ) = π - 2 * π * g := by push_cast; ring
    rw [this, cos_pi_sub]; push_cast; ring
  · dsimp only; rw [if_neg h]
    exact key g g c rfl

@[simp] theorem Trig.val_ofRat (q : Rat) : (Trig.ofRat q).val = q := by
  unfold Trig.ofRat; split_ifs with h <;> simp [h]

theorem Trig.val_rat? {a : Trig} {q : Rat} (h : a.rat? = some q) : a.val = q := by
  match a, h with
  | [], h => simp [Trig.rat?] at h; simp [← h]
  | [(t, c)], h =>
    simp only [Trig.rat?] at h
    split_ifs at h with ht
    cases h; simp [ht]

@[simp] theorem Trig.val_add (a b : Trig) : (a.add b).val = a.val + b.val := by
  induction b with
  | nil => simp [Trig.add]
  | cons x r ih => obtain ⟨t, c⟩ := x; simp [Trig.add, ih]; ring

@[simp] theorem Trig.val_scale (k : Rat) (a : Trig) : (a.scale k).val = k * a.val := by
  induction a with
  | nil => simp [Trig.scale]
  | cons x r ih =>
    obtain ⟨t, c⟩ := x
    by_cases h : k = 0 <;> simp [Trig.scale, h, ih]; ring

@[simp] theorem Trig.val_sub (a b : Trig) : (a.sub b).val = a.val - b.val := by
  simp [Trig.sub]; ring

@[simp] theorem Trig.val_mulCos (t c : Rat) (a : Trig) :
    (a.mulCos t c).val = a.val * ((c : ℝ) * cos (2 * π * t)) := by
  induction a with
  | nil => simp [Trig.mulCos]
  | cons x r ih =>
    obtain ⟨u, d⟩ := x
    have e1 : 2 * π * ((u + t : Rat) : ℝ) = 2 * π * u + 2 * π * t := by push_cast; ring
    have e2 : 2 * π * ((u - t : Rat) : ℝ) = 2 * π * u - 2 * π * t := by push_cast; ring
    simp only [Trig.mulCos, Trig.val_addCos, ih, Trig.val_cons, e1, e2, cos_add, cos_sub]
    push_cast; ring

@[simp] theorem Trig.val_mul (a b : Trig) : (a.mul b).val = a.val * b.val := by
  induction b with
  | nil => simp [Trig.mul]
  | cons x r ih => obtain ⟨t, c⟩ := x; simp [Trig.mul, ih]; ring

/-! ## The relations between roots of unity -/

/-- The real part of a combination of powers of e(1/m). -/
noncomputable def powerVal (m : Nat) : List (Nat × Rat) → ℝ
  | []          => 0
  | (k, c) :: r => (c : ℝ) * cos (2 * π * k / m) + powerVal m r

theorem powerVal_addPower (m k : Nat) (c : Rat) (l : List (Nat × Rat)) :
    powerVal m (addPower k c l) = (c : ℝ) * cos (2 * π * k / m) + powerVal m l := by
  induction l with
  | nil => by_cases h : c = 0 <;> simp [addPower, powerVal, h]
  | cons x r ih =>
    obtain ⟨u, d⟩ := x
    simp only [addPower]
    split_ifs with h1 h2 h3 h4
    · simp [powerVal, h2]
    · simp [powerVal]
    · have : (c : ℝ) = -d := by exact_mod_cast eq_neg_of_add_eq_zero_left h4
      simp [powerVal, h3, this]
    · simp [powerVal, h3]; ring
    · simp [powerVal, ih]; ring

theorem cos_mod_turn (m k : Nat) (hm : 0 < m) : cos (2 * π * (k % m : Nat) / m) = cos (2 * π * k / m) := by
  have hk : (k : ℝ) = (k % m : Nat) + m * (k / m : Nat) := by
    exact_mod_cast (Nat.mod_add_div k m).symm
  have hm' : (m : ℝ) ≠ 0 := by positivity
  have : 2 * π * (k : ℝ) / m = 2 * π * (k % m : Nat) / m + ((k / m : Nat) : ℤ) * (2 * π) := by
    conv_lhs => rw [hk]
    rw [Int.cast_natCast]; field_simp
  rw [this, cos_add_int_mul_two_pi]

/-- `Σ_{j<p} cos(θ + 2πj/p) = 0` for p ≥ 2. -/
theorem sum_cos_coset (p : Nat) (hp : 2 ≤ p) (θ : ℝ) :
    ∑ j ∈ Finset.range p, cos (θ + 2 * π * j / p) = 0 := by
  have hprim := Complex.isPrimitiveRoot_exp p (by omega)
  have hg := hprim.geom_sum_eq_zero (by omega)
  have : ∑ j ∈ Finset.range p, Complex.exp ((θ + 2 * π * j / p : ℝ) * Complex.I) = 0 := by
    rw [← mul_zero (Complex.exp (θ * Complex.I)), ← hg, Finset.mul_sum]
    refine Finset.sum_congr rfl fun j _ => ?_
    rw [← Complex.exp_nat_mul, ← Complex.exp_add]
    congr 1; push_cast; ring
  have hre := congrArg Complex.re this
  rw [Complex.re_sum] at hre
  simpa only [Complex.exp_ofReal_mul_I_re, Complex.zero_re] using hre

theorem powerVal_foldl (m : Nat) (c : Rat) (f : Nat → Nat) (n : Nat) (l : List (Nat × Rat)) :
    powerVal m ((List.range n).foldl (fun a j => addPower (f j) c a) l) =
      powerVal m l + c * ∑ j ∈ Finset.range n, cos (2 * π * (f j : Nat) / m) := by
  induction n with
  | zero => simp
  | succ n ih =>
    rw [List.range_succ, List.foldl_append, Finset.sum_range_succ]
    simp [powerVal_addPower, ih]; ring

theorem powerVal_reduceAt (m p : Nat) (hm : 0 < m) (hp : 2 ≤ p) (l : List (Nat × Rat)) :
    powerVal m (reduceAt m p l) = powerVal m l := by
  induction l with
  | nil => simp [reduceAt]
  | cons x r ih =>
    obtain ⟨k, c⟩ := x
    simp only [reduceAt]
    split_ifs with h
    · have hd : p ∣ m := Nat.dvd_of_mod_eq_zero h.1
      obtain ⟨q, rfl⟩ := hd
      have hq : (p * q) / p = q := Nat.mul_div_cancel_left q (by omega)
      have hq0 : 0 < q := Nat.pos_of_mul_pos_left hm
      have hs := sum_cos_coset p hp (2 * π * k / ((p * q : Nat) : ℝ))
      have hsplit : p = (p - 1) + 1 := by omega
      rw [hsplit, Finset.sum_range_succ'] at hs
      rw [← hsplit] at hs
      have hterm : ∀ j, cos (2 * π * ((k + (j + 1) * (p * q / p)) % (p * q) : Nat) / ((p * q : Nat) : ℝ)) =
          cos (2 * π * k / ((p * q : Nat) : ℝ) + 2 * π * ((j + 1 : Nat) : ℝ) / p) := by
        intro j
        rw [cos_mod_turn _ _ hm, hq]
        congr 1
        have : (p : ℝ) ≠ 0 := by positivity
        have : (q : ℝ) ≠ 0 := by positivity
        push_cast; field_simp
      rw [powerVal_foldl, ih]
      simp only [hterm]
      simp only [powerVal]
      simp only [Nat.cast_zero, mul_zero, zero_div, add_zero] at hs
      push_cast at hs ⊢
      linear_combination (-(c : ℝ)) * hs
    · simp [powerVal_addPower, powerVal, ih]

theorem powerVal_reducePrimes (m : Nat) (hm : 0 < m) (fuel : Nat) :
    ∀ (p rest : Nat) (l : List (Nat × Rat)), 2 ≤ p → powerVal m (reducePrimes m p rest fuel l) = powerVal m l := by
  induction fuel with
  | zero => intros; simp [reducePrimes]
  | succ n ih =>
    intro p rest l hp
    simp only [reducePrimes]
    split_ifs
    · rfl
    · rw [ih _ _ _ (by omega), powerVal_reduceAt m p hm hp]
    · rw [ih _ _ _ (by omega)]

theorem Trig.order_pos (a : Trig) : 0 < a.order := by
  induction a with
  | nil => simp [Trig.order]
  | cons x r ih => obtain ⟨t, c⟩ := x; exact Nat.lcm_pos t.den_pos ih

theorem Trig.powerVal_powers (m : Nat) (hm : 0 < m) (a : Trig) (h : a.order ∣ m) :
    powerVal m (a.powers m) = 2 * a.val := by
  induction a with
  | nil => simp [Trig.powers, powerVal]
  | cons x r ih =>
    obtain ⟨t, c⟩ := x
    have ht : t.den ∣ m := (Nat.dvd_lcm_left _ _).trans h
    have hr : Trig.order r ∣ m := (Nat.dvd_lcm_right _ _).trans h
    obtain ⟨q, hq⟩ := ht
    have hint : t * m = ((t.num * q : ℤ) : Rat) := by
      rw [hq]; push_cast; rw [← mul_assoc, Rat.mul_den_eq_num]
    have hfl : (t * m : Rat).floor = t.num * q := by
      rw [hint]; exact Rat.floor_intCast _
    have hm' : (m : ℝ) ≠ 0 := by positivity
    have hmz : (m : ℤ) ≠ 0 := by positivity
    generalize hk : ((t * m : Rat).floor % m).toNat = k
    have hk0 : (k : ℤ) = (t.num * q) % m := by
      rw [← hk, hfl]; exact Int.toNat_of_nonneg (Int.emod_nonneg _ hmz)
    have hkm : k < m := by
      have := Int.emod_lt_of_pos (t.num * q) (by positivity : (0 : ℤ) < m); omega
    have htm : (t : ℝ) * m = k + m * ((t.num * q / m : ℤ) : ℝ) := by
      have e1 : ((t * m : Rat) : ℝ) = ((t.num * q : ℤ) : ℝ) := by rw [hint]; norm_cast
      have e2 : (t.num * q : ℤ) = k + m * (t.num * q / m) := by rw [hk0]; exact (Int.emod_add_mul_ediv _ _).symm
      have e3 : ((t.num * q : ℤ) : ℝ) = k + m * ((t.num * q / m : ℤ) : ℝ) := by exact_mod_cast e2
      rw [← e3, ← e1]; push_cast; ring
    have hcos : cos (2 * π * k / m) = cos (2 * π * t) := by
      have : 2 * π * (t : ℝ) = 2 * π * k / m + (t.num * q / m : ℤ) * (2 * π) := by
        field_simp; linear_combination htm
      rw [this, cos_add_int_mul_two_pi]
    have hcos2 : cos (2 * π * ((m - k) % m : Nat) / m) = cos (2 * π * t) := by
      rw [cos_mod_turn _ _ hm, ← hcos, Nat.cast_sub hkm.le]
      have : 2 * π * ((m : ℝ) - k) / m = 2 * π - 2 * π * k / m := by field_simp
      rw [this, cos_two_pi_sub]
    simp only [Trig.powers, hk, powerVal_addPower, ih hr, hcos, hcos2, Trig.val_cons]
    ring

theorem Trig.val_of_vanishes {a : Trig} (h : a.vanishes = true) : a.val = 0 := by
  simp only [Trig.vanishes, List.isEmpty_iff] at h
  have h1 := Trig.powerVal_powers a.order a.order_pos a dvd_rfl
  have h2 := powerVal_reducePrimes a.order a.order_pos a.order 2 a.order (a.powers a.order) le_rfl
  rw [h, h1] at h2
  simp [powerVal] at h2
  exact h2


/-! ## Rational enclosures -/

theorem roundDown_le (p : Nat) (q : Rat) : roundDown p q ≤ q := by
  unfold roundDown
  rw [div_le_iff₀ (by positivity)]
  exact Rat.floor_le _

theorem le_roundUp (p : Nat) (q : Rat) : q ≤ roundUp p q := by
  have := roundDown_le p (-q)
  unfold roundUp; linarith

/-- The i-th term of the series of arctan x. -/
noncomputable def arctanTerm (x : ℝ) (i : Nat) : ℝ := x ^ (2 * i + 1) / ((2 * i + 1 : Nat) : ℝ)

/-- The i-th term of the series of cos x. -/
noncomputable def cosTerm (x : ℝ) (i : Nat) : ℝ := x ^ (2 * i) / ((2 * i).factorial : ℝ)

theorem arctanSum_eq (x : Rat) (n : Nat) : ∀ (k : Nat) (term : Rat), ((term : Rat) : ℝ) = arctanTerm x k →
    ((arctanSum (x * x) n k term : Rat) : ℝ) = ∑ i ∈ Finset.range n, (-1) ^ i * arctanTerm x (k + i) := by
  induction n with
  | zero => intros; simp [arctanSum]
  | succ n ih =>
    intro k term h
    rw [Finset.sum_range_succ', arctanSum, Rat.cast_sub,
      ih (k + 1) (term * (x * x) * (2 * k + 1) / (2 * k + 3))
        (by push_cast; rw [h]; unfold arctanTerm
            have : (2 * (k : ℝ) + 1) ≠ 0 := by positivity
            have : (2 * (k : ℝ) + 3) ≠ 0 := by positivity
            push_cast; field_simp; ring), h]
    have : ∑ i ∈ Finset.range n, (-1 : ℝ) ^ (i + 1) * arctanTerm x (k + (i + 1)) =
        -∑ i ∈ Finset.range n, (-1 : ℝ) ^ i * arctanTerm x (k + 1 + i) := by
      rw [← Finset.sum_neg_distrib]
      refine Finset.sum_congr rfl fun i _ => ?_
      rw [pow_succ, show k + (i + 1) = k + 1 + i by ring]; ring
    rw [this]; simp; ring

theorem cosSum_eq (x : Rat) (n : Nat) : ∀ (k : Nat) (term : Rat), ((term : Rat) : ℝ) = cosTerm x k →
    ((cosSum (x * x) n k term : Rat) : ℝ) = ∑ i ∈ Finset.range n, (-1) ^ i * cosTerm x (k + i) := by
  induction n with
  | zero => intros; simp [cosSum]
  | succ n ih =>
    intro k term h
    rw [Finset.sum_range_succ', cosSum, Rat.cast_sub,
      ih (k + 1) (term * (x * x) / ((2 * k + 1) * (2 * k + 2)))
        (by push_cast; rw [h]; unfold cosTerm
            have e : (2 * (k + 1)).factorial = (2 * k + 2) * ((2 * k + 1) * (2 * k).factorial) := by
              rw [show 2 * (k + 1) = (2 * k + 1) + 1 by ring, Nat.factorial_succ, Nat.factorial_succ]
            have : ((2 * k).factorial : ℝ) ≠ 0 := by positivity
            rw [e]; push_cast; field_simp; ring), h]
    have : ∑ i ∈ Finset.range n, (-1 : ℝ) ^ (i + 1) * cosTerm x (k + (i + 1)) =
        -∑ i ∈ Finset.range n, (-1 : ℝ) ^ i * cosTerm x (k + 1 + i) := by
      rw [← Finset.sum_neg_distrib]
      refine Finset.sum_congr rfl fun i _ => ?_
      rw [pow_succ, show k + (i + 1) = k + 1 + i by ring]; ring
    rw [this]; simp; ring

theorem arctanTerm_antitone {x : ℝ} (h0 : 0 ≤ x) (h1 : x ≤ 1) : Antitone (arctanTerm x) := by
  refine antitone_nat_of_succ_le fun n => ?_
  unfold arctanTerm
  have hx : x ^ (2 * (n + 1) + 1) ≤ x ^ (2 * n + 1) := pow_le_pow_of_le_one h0 h1 (by omega)
  have : ((2 * n + 1 : Nat) : ℝ) ≤ ((2 * (n + 1) + 1 : Nat) : ℝ) := by exact_mod_cast (by omega)
  gcongr

theorem arctan_tendsto {x : ℝ} (h0 : 0 ≤ x) (h1 : x < 1) :
    Filter.Tendsto (fun n => ∑ i ∈ Finset.range n, (-1) ^ i * arctanTerm x i) Filter.atTop (nhds (arctan x)) := by
  have := (Real.hasSum_arctan (x := x) (by rw [Real.norm_of_nonneg h0]; exact h1)).tendsto_sum_nat
  refine this.congr fun n => Finset.sum_congr rfl fun i _ => ?_
  unfold arctanTerm; push_cast; ring

theorem arctanInv_bounds (q n : Nat) (hq : 2 ≤ q) :
    ((arctanInv q (2 * n) : Rat) : ℝ) ≤ arctan (1 / q) ∧ arctan (1 / q) ≤ ((arctanInv q (2 * n + 1) : Rat) : ℝ) := by
  have hq' : (2 : ℝ) ≤ q := by exact_mod_cast hq
  have h0 : (0 : ℝ) ≤ 1 / q := by positivity
  have h1 : (1 : ℝ) / q < 1 := by rw [div_lt_one (by linarith)]; linarith
  have e : ∀ m, ((arctanInv q m : Rat) : ℝ) = ∑ i ∈ Finset.range m, (-1) ^ i * arctanTerm (1 / q) i := by
    intro m
    have := arctanSum_eq (1 / q) m 0 (1 / q) (by simp [arctanTerm])
    unfold arctanInv
    rw [show (1 : Rat) / (q * q) = 1 / q * (1 / q) by ring, this]
    simp
  rw [e, e]
  exact ⟨(arctanTerm_antitone h0 h1.le).alternating_series_le_tendsto (arctan_tendsto h0 h1) n,
    (arctanTerm_antitone h0 h1.le).tendsto_le_alternating_series (arctan_tendsto h0 h1) n⟩

theorem pi_eq_machin : π = 16 * arctan (1 / (5 : Nat)) - 4 * arctan (1 / (239 : Nat)) := by
  have := Real.four_mul_arctan_inv_5_sub_arctan_inv_239
  simp only [one_div]; push_cast; linarith

theorem piLower_le (p : Nat) : ((piLower p : Rat) : ℝ) ≤ π := by
  have h : ((piLower p : Rat) : ℝ) ≤
      ((16 * arctanInv 5 (2 * (p / 8 + 2)) - 4 * arctanInv 239 (2 * (p / 8 + 2) + 1) : Rat) : ℝ) := by
    exact_mod_cast roundDown_le _ _
  refine h.trans ?_
  have h5 := (arctanInv_bounds 5 (p / 8 + 2) (by norm_num)).1
  have h239 := (arctanInv_bounds 239 (p / 8 + 2) (by norm_num)).2
  rw [pi_eq_machin]; push_cast at *; linarith

theorem le_piUpper (p : Nat) : π ≤ ((piUpper p : Rat) : ℝ) := by
  have h : ((16 * arctanInv 5 (2 * (p / 8 + 2) + 1) - 4 * arctanInv 239 (2 * (p / 8 + 2)) : Rat) : ℝ) ≤
      ((piUpper p : Rat) : ℝ) := by
    exact_mod_cast le_roundUp _ _
  refine le_trans ?_ h
  have h5 := (arctanInv_bounds 5 (p / 8 + 2) (by norm_num)).2
  have h239 := (arctanInv_bounds 239 (p / 8 + 2) (by norm_num)).1
  rw [pi_eq_machin]; push_cast at *; linarith

/-- Partial sums of the cosine series: an even number of terms is at most cos x, an odd number at least. -/
theorem cos_series_bounds {x : ℝ} (hx : x ^ 2 ≤ 12) (n : Nat) :
    ∑ i ∈ Finset.range (2 * n + 2), (-1) ^ i * cosTerm x i ≤ cos x ∧
      cos x ≤ ∑ i ∈ Finset.range (2 * n + 1), (-1) ^ i * cosTerm x i := by
  have hanti : Antitone fun i => cosTerm x (i + 1) := by
    refine antitone_nat_of_succ_le fun i => ?_
    simp only [cosTerm]
    have e : (2 * (i + 1 + 1)).factorial = (2 * i + 4) * ((2 * i + 3) * (2 * (i + 1)).factorial) := by
      rw [show 2 * (i + 1 + 1) = (2 * (i + 1) + 1) + 1 by ring, Nat.factorial_succ, Nat.factorial_succ]; ring
    rw [e, show 2 * (i + 1 + 1) = 2 * (i + 1) + 2 by ring, pow_add]
    have hf : (0 : ℝ) < ((2 * (i + 1)).factorial : ℝ) := by positivity
    push_cast
    rw [div_le_div_iff₀ (by positivity) hf]
    have hp : 0 ≤ x ^ (2 * (i + 1)) := by rw [pow_mul]; positivity
    have h12 : x ^ 2 ≤ (2 * (i : ℝ) + 4) * (2 * i + 3) := by nlinarith [(Nat.cast_nonneg i : (0 : ℝ) ≤ i)]
    calc x ^ (2 * (i + 1)) * x ^ 2 * ((2 * (i + 1)).factorial : ℝ)
        ≤ x ^ (2 * (i + 1)) * ((2 * (i : ℝ) + 4) * (2 * i + 3)) * ((2 * (i + 1)).factorial : ℝ) := by gcongr
      _ = _ := by ring
  have hlim : Filter.Tendsto (fun n => ∑ i ∈ Finset.range n, (-1) ^ i * cosTerm x (i + 1)) Filter.atTop
      (nhds (1 - cos x)) := by
    have h := (Real.hasSum_cos x).tendsto_sum_nat
    have h' := (h.comp (Filter.tendsto_add_atTop_nat 1)).const_sub 1
    refine h'.congr fun n => ?_
    simp only [Function.comp, Finset.sum_range_succ']
    have : ∀ i, (-1 : ℝ) ^ (i + 1) * x ^ (2 * (i + 1)) / ((2 * (i + 1)).factorial : ℝ) =
        -((-1) ^ i * cosTerm x (i + 1)) := by intro i; simp only [cosTerm]; ring
    simp only [this, Finset.sum_neg_distrib]
    simp
  have hsplit : ∀ n, ∑ i ∈ Finset.range (n + 1), (-1) ^ i * cosTerm x i =
      1 - ∑ i ∈ Finset.range n, (-1) ^ i * cosTerm x (i + 1) := by
    intro n
    rw [Finset.sum_range_succ']
    have : ∀ i, (-1 : ℝ) ^ (i + 1) * cosTerm x (i + 1) = -((-1) ^ i * cosTerm x (i + 1)) := by intro i; ring
    simp only [this, Finset.sum_neg_distrib]
    simp [cosTerm]; ring
  have hlo := hanti.tendsto_le_alternating_series hlim n
  have hhi := hanti.alternating_series_le_tendsto hlim n
  rw [show 2 * n + 2 = (2 * n + 1) + 1 by ring, hsplit, hsplit]
  constructor <;> linarith

theorem quarterBounds_sound (p : Nat) {lo hi : Rat} (h0 : 0 ≤ lo) (hlo : (lo : ℝ) ≤ π) (hhi : π ≤ (hi : ℝ)) (h4 : hi ≤ 4)
    {t : Rat} (ht0 : 0 ≤ t) (ht1 : t ≤ 1 / 4) : (((quarterBounds p lo hi t).1 : Rat) : ℝ) ≤ cos (2 * π * t) ∧
      cos (2 * π * t) ≤ (((quarterBounds p lo hi t).2 : Rat) : ℝ) := by
  unfold quarterBounds
  have ht0' : (0 : ℝ) ≤ t := by exact_mod_cast ht0
  have ht1' : (t : ℝ) ≤ 1 / 4 := by
    have : ((t : Rat) : ℝ) ≤ ((1 / 4 : Rat) : ℝ) := by exact_mod_cast ht1
    push_cast at this; exact this
  have h0' : (0 : ℝ) ≤ lo := by exact_mod_cast h0
  have h4' : (hi : ℝ) ≤ 4 := by exact_mod_cast h4
  have hpi := Real.pi_gt_three
  have hsq : ∀ z : ℝ, 0 ≤ z → z ≤ 4 → (2 * (t : ℝ) * z) ^ 2 ≤ 12 := by
    intro z hz0 hz4
    have h2 : 2 * (t : ℝ) * z ≤ 2 := by nlinarith
    have h0 : 0 ≤ 2 * (t : ℝ) * z := by positivity
    nlinarith
  dsimp only
  constructor
  · refine le_trans (b := ((cosSum ((2 * t * hi) * (2 * t * hi)) (2 * (p / 8 + 4)) 0 1 : Rat) : ℝ)) ?_ ?_
    · exact_mod_cast roundDown_le _ _
    · rw [cosSum_eq (2 * t * hi) _ 0 1 (by simp [cosTerm])]
      simp only [zero_add]
      have hb := (cos_series_bounds (x := ((2 * t * hi : Rat) : ℝ)) (by push_cast; exact hsq _ (by linarith) h4') (p / 8 + 3)).1
      rw [show 2 * (p / 8 + 4) = 2 * (p / 8 + 3) + 2 by ring]
      refine hb.trans (cos_le_cos_of_nonneg_of_le_pi (by positivity) ?_ ?_)
      · push_cast; nlinarith
      · push_cast; nlinarith
  · refine le_trans (b := ((cosSum ((2 * t * lo) * (2 * t * lo)) (2 * (p / 8 + 4) + 1) 0 1 : Rat) : ℝ)) ?_ ?_
    · rw [cosSum_eq (2 * t * lo) _ 0 1 (by simp [cosTerm])]
      simp only [zero_add]
      have hb := (cos_series_bounds (x := ((2 * t * lo : Rat) : ℝ)) (by push_cast; exact hsq _ h0' (by linarith [Real.pi_le_four]))
        (p / 8 + 4)).2
      refine le_trans (cos_le_cos_of_nonneg_of_le_pi ?_ ?_ ?_) hb
      · push_cast; positivity
      · nlinarith
      · push_cast; nlinarith
    · exact_mod_cast le_roundUp _ _

theorem foldTurn_mem (t : Rat) : 0 ≤ foldTurn t ∧ foldTurn t ≤ 1 / 2 := by
  have h0 := Rat.floor_le t
  have h1 := Rat.lt_floor (x := t)
  unfold foldTurn
  dsimp only
  split_ifs <;> constructor <;> linarith

/-- The cosine past the quarter turn is the negated one of the complement to the half turn. -/
theorem cos_complement (g : Rat) : cos (2 * π * ((1 / 2 - g : Rat) : ℝ)) = -cos (2 * π * g) := by
  have : 2 * π * ((1 / 2 - g : Rat) : ℝ) = π - 2 * π * g := by push_cast; ring
  rw [this, cos_pi_sub]

theorem cosBounds_sound (p : Nat) {lo hi : Rat} (h0 : 0 ≤ lo) (hlo : (lo : ℝ) ≤ π) (hhi : π ≤ (hi : ℝ)) (h4 : hi ≤ 4)
    (t : Rat) : (((cosBounds p lo hi t).1 : Rat) : ℝ) ≤ cos (2 * π * t) ∧
      cos (2 * π * t) ≤ (((cosBounds p lo hi t).2 : Rat) : ℝ) := by
  obtain ⟨g0, g1⟩ := foldTurn_mem t
  rw [← cos_foldTurn t]
  unfold cosBounds
  dsimp only
  split_ifs with h
  · exact quarterBounds_sound p h0 hlo hhi h4 g0 h
  · obtain ⟨b1, b2⟩ := quarterBounds_sound p h0 hlo hhi h4 (t := 1 / 2 - foldTurn t) (by linarith) (by linarith)
    rw [cos_complement] at b1 b2
    push_cast
    constructor <;> linarith

theorem Trig.bounds_sound (p : Nat) {lo hi : Rat} (h0 : 0 ≤ lo) (hlo : (lo : ℝ) ≤ π) (hhi : π ≤ (hi : ℝ))
    (h4 : hi ≤ 4) (a : Trig) :
    (((a.bounds p lo hi).1 : Rat) : ℝ) ≤ a.val ∧ a.val ≤ (((a.bounds p lo hi).2 : Rat) : ℝ) := by
  induction a with
  | nil => simp [Trig.bounds]
  | cons x r ih =>
    obtain ⟨t, c⟩ := x
    obtain ⟨ih1, ih2⟩ := ih
    obtain ⟨h1, h2⟩ := cosBounds_sound p h0 hlo hhi h4 t
    simp only [Trig.bounds, Trig.val_cons]
    split_ifs with hc
    · have : (0 : ℝ) ≤ c := by exact_mod_cast hc
      constructor <;> push_cast <;> nlinarith
    · have : (c : ℝ) ≤ 0 := by exact_mod_cast (not_le.mp hc).le
      constructor <;> push_cast <;> nlinarith

theorem Trig.signByBounds_sound (a : Trig) : ∀ ps : List Nat, (∀ p ∈ ps, 0 ≤ piLower p ∧ piUpper p ≤ 4) →
    ∀ o, a.signByBounds ps = some o → (o = .gt → 0 < a.val) ∧ (o = .lt → a.val < 0) ∧ o ≠ .eq := by
  intro ps
  induction ps with
  | nil => intro _ o h; simp [Trig.signByBounds] at h
  | cons p ps ih =>
    intro hp o h
    obtain ⟨hl, hu⟩ := hp p (by simp)
    obtain ⟨b1, b2⟩ := Trig.bounds_sound p hl (piLower_le p) (le_piUpper p) hu a
    simp only [Trig.signByBounds] at h
    split_ifs at h with h1 h2
    · cases h
      have : (0 : ℝ) < (((a.bounds p (piLower p) (piUpper p)).1 : Rat) : ℝ) := by exact_mod_cast h1
      simp; linarith
    · cases h
      have : (((a.bounds p (piLower p) (piUpper p)).2 : Rat) : ℝ) < 0 := by exact_mod_cast h2
      simp; linarith
    · exact ih (fun q hq => hp q (by simp [hq])) o h

/-! ## How fine the enclosures are -/

theorem sub_le_roundDown (p : Nat) (q : Rat) : (q : ℝ) - (1 / 2) ^ p ≤ ((roundDown p q : Rat) : ℝ) := by
  have h : q * 2 ^ p - 1 < ((q * 2 ^ p).floor : Rat) := Rat.lt_floor
  have h2 : (0 : Rat) < 2 ^ p := by positivity
  have : q - (1 / 2) ^ p ≤ roundDown p q := by
    unfold roundDown
    rw [le_div_iff₀ h2, sub_mul, ← mul_pow]
    norm_num
    linarith
  have := (Rat.cast_le (K := ℝ)).mpr this
  push_cast at this ⊢
  exact this

theorem roundUp_le (p : Nat) (q : Rat) : ((roundUp p q : Rat) : ℝ) ≤ (q : ℝ) + (1 / 2) ^ p := by
  have := sub_le_roundDown p (-q)
  unfold roundUp
  push_cast at *
  linarith

theorem arctanInv_eq (q m : Nat) :
    ((arctanInv q m : Rat) : ℝ) = ∑ i ∈ Finset.range m, (-1) ^ i * arctanTerm (1 / q) i := by
  have := arctanSum_eq (1 / q) m 0 (1 / q) (by simp [arctanTerm])
  unfold arctanInv
  rw [show (1 : Rat) / (q * q) = 1 / q * (1 / q) by ring, this]
  simp

theorem arctanInv_width (q n : Nat) (hq : 4 ≤ q) :
    ((arctanInv q (2 * n + 1) : Rat) : ℝ) ≤ ((arctanInv q (2 * n) : Rat) : ℝ) + (1 / 2) ^ (8 * n + 2) := by
  rw [arctanInv_eq, arctanInv_eq, Finset.sum_range_succ]
  have hq' : (4 : ℝ) ≤ q := by exact_mod_cast hq
  have h1 : (1 : ℝ) / q ≤ 1 / 4 := one_div_le_one_div_of_le (by norm_num) hq'
  have h2 : arctanTerm (1 / q) (2 * n) ≤ (1 / 4) ^ (4 * n + 1) := by
    unfold arctanTerm
    rw [show 2 * (2 * n) + 1 = 4 * n + 1 by ring]
    refine (div_le_self (by positivity) (by exact_mod_cast Nat.le_add_left 1 (4 * n))).trans ?_
    gcongr
  have h3 : ((1 : ℝ) / 4) ^ (4 * n + 1) = (1 / 2) ^ (8 * n + 2) := by
    rw [show (1 : ℝ) / 4 = (1 / 2) ^ 2 by norm_num, ← pow_mul]; ring_nf
  rw [h3] at h2
  have h4 : (-1 : ℝ) ^ (2 * n) = 1 := by simp
  rw [h4]; linarith

/-- The bounds of π at precision p are within `2^−p / 32` of each other. -/
theorem pi_width (p : Nat) : ((piUpper p : Rat) : ℝ) ≤ ((piLower p : Rat) : ℝ) + (1 / 2) ^ p / 32 := by
  have h5 := arctanInv_width 5 (p / 8 + 2) (by norm_num)
  have h239 := arctanInv_width 239 (p / 8 + 2) (by norm_num)
  have hu := roundUp_le (p + 8) (16 * arctanInv 5 (2 * (p / 8 + 2) + 1) - 4 * arctanInv 239 (2 * (p / 8 + 2)))
  have hl := sub_le_roundDown (p + 8) (16 * arctanInv 5 (2 * (p / 8 + 2)) - 4 * arctanInv 239 (2 * (p / 8 + 2) + 1))
  have he : ((1 : ℝ) / 2) ^ (8 * (p / 8 + 2) + 2) ≤ (1 / 2) ^ (p + 11) :=
    pow_le_pow_of_le_one (by norm_num) (by norm_num) (by omega)
  have e11 : ((1 : ℝ) / 2) ^ (p + 11) = (1 / 2) ^ p / 2048 := by rw [pow_add]; norm_num; ring
  have e8 : ((1 : ℝ) / 2) ^ (p + 8) = (1 / 2) ^ p / 256 := by rw [pow_add]; norm_num; ring
  rw [e11] at he
  rw [e8] at hu hl
  have hp : (0 : ℝ) < (1 / 2) ^ p := by positivity
  unfold piUpper piLower
  push_cast at *
  linarith

theorem pi_bounds_usable (p : Nat) : 0 ≤ piLower p ∧ piUpper p ≤ 4 := by
  have hw := pi_width p
  have h1 := piLower_le p
  have h2 := le_piUpper p
  have hp : ((1 : ℝ) / 2) ^ p ≤ 1 := pow_le_one₀ (by norm_num) (by norm_num)
  have g := Real.pi_gt_three
  have l := Real.pi_lt_d2
  constructor
  · have : (0 : ℝ) ≤ ((piLower p : Rat) : ℝ) := by linarith
    exact_mod_cast this
  · have : ((piUpper p : Rat) : ℝ) ≤ 4 := by linarith
    exact_mod_cast this

theorem two_pow_le_factorial (m : Nat) (h : 4 ≤ m) : 2 ^ (12 * m) ≤ 16 * (4 * m).factorial := by
  induction m, h using Nat.le_induction with
  | base => decide +kernel
  | succ m h ih =>
    rw [show 12 * (m + 1) = 12 * m + 12 by ring, show 4 * (m + 1) = 4 * m + 3 + 1 by ring, pow_add,
      Nat.factorial_succ, Nat.factorial_succ, Nat.factorial_succ, Nat.factorial_succ]
    have : 2 ^ 12 ≤ (4 * m + 3 + 1) * ((4 * m + 2 + 1) * ((4 * m + 1 + 1) * (4 * m + 1))) := by
      calc 2 ^ 12 ≤ 8 * (8 * (8 * 8)) := by norm_num
        _ ≤ _ := by gcongr <;> omega
    calc 2 ^ (12 * m) * 2 ^ 12
        ≤ 16 * (4 * m).factorial * ((4 * m + 3 + 1) * ((4 * m + 2 + 1) * ((4 * m + 1 + 1) * (4 * m + 1)))) :=
          Nat.mul_le_mul ih this
      _ = _ := by ring

theorem cosTerm_small (p : Nat) {x : ℝ} (h0 : 0 ≤ x) (h2 : x ≤ 2) :
    cosTerm x (2 * (p / 8 + 4)) ≤ (1 / 2) ^ p / 2048 := by
  have hf := two_pow_le_factorial (p / 8 + 4) (by omega)
  generalize hm : p / 8 + 4 = m at *
  have hf' : (2 : ℝ) ^ (12 * m) ≤ 16 * ((4 * m).factorial : ℝ) := by exact_mod_cast hf
  have hpos : (0 : ℝ) < ((4 * m).factorial : ℝ) := by positivity
  unfold cosTerm
  rw [show 2 * (2 * m) = 4 * m by ring]
  calc x ^ (4 * m) / ((4 * m).factorial : ℝ) ≤ 2 ^ (4 * m) / ((4 * m).factorial : ℝ) := by gcongr
    _ ≤ 16 * (1 / 2) ^ (8 * m) := by
      rw [div_le_iff₀ hpos]
      have e : (2 : ℝ) ^ (12 * m) = 2 ^ (4 * m) * 2 ^ (8 * m) := by rw [← pow_add]; ring_nf
      have e2 : ((1 : ℝ) / 2) ^ (8 * m) * 2 ^ (8 * m) = 1 := by rw [← mul_pow]; norm_num
      have h8 : (0 : ℝ) < (1 / 2) ^ (8 * m) := by positivity
      calc (2 : ℝ) ^ (4 * m) = (1 / 2) ^ (8 * m) * 2 ^ (12 * m) := by
            rw [e]; linear_combination -((2 : ℝ) ^ (4 * m)) * e2
        _ ≤ (1 / 2) ^ (8 * m) * (16 * ((4 * m).factorial : ℝ)) := by gcongr
        _ = _ := by ring
    _ ≤ 16 * (1 / 2) ^ (p + 15) := by
      gcongr 16 * ?_
      exact pow_le_pow_of_le_one (by norm_num) (by norm_num) (by omega)
    _ = _ := by rw [pow_add]; norm_num; ring

theorem quarterBounds_width (p : Nat) {lo hi : Rat} (h0 : 0 ≤ lo) (hlo : (lo : ℝ) ≤ π) (hhi : π ≤ (hi : ℝ)) (h4 : hi ≤ 4)
    (hw : (hi : ℝ) ≤ lo + (1 / 2) ^ p / 32) {t : Rat} (ht0 : 0 ≤ t) (ht1 : t ≤ 1 / 4) :
    (((quarterBounds p lo hi t).2 : Rat) : ℝ) ≤ (((quarterBounds p lo hi t).1 : Rat) : ℝ) + (1 / 2) ^ p := by
  have ht0' : (0 : ℝ) ≤ t := by exact_mod_cast ht0
  have ht1' : (t : ℝ) ≤ 1 / 4 := by
    have : ((t : Rat) : ℝ) ≤ ((1 / 4 : Rat) : ℝ) := by exact_mod_cast ht1
    push_cast at this; exact this
  have h0' : (0 : ℝ) ≤ lo := by exact_mod_cast h0
  have h4' : (hi : ℝ) ≤ 4 := by exact_mod_cast h4
  have hp : (0 : ℝ) < (1 / 2) ^ p := by positivity
  have range : ∀ z : Rat, (0 : ℝ) ≤ z → (z : ℝ) ≤ 4 →
      0 ≤ ((2 * t * z : Rat) : ℝ) ∧ ((2 * t * z : Rat) : ℝ) ≤ 2 := by
    intro z z0 z4
    push_cast
    refine ⟨by positivity, ?_⟩
    nlinarith
  have hx := range lo h0' (by linarith [Real.pi_le_four])
  have hy := range hi (by linarith [Real.pi_pos]) h4'
  have e8 : ((1 : ℝ) / 2) ^ (p + 8) = (1 / 2) ^ p / 256 := by rw [pow_add]; norm_num; ring
  have hu := roundUp_le (p + 8) (cosSum ((2 * t * lo) * (2 * t * lo)) (2 * (p / 8 + 4) + 1) 0 1)
  have hl := sub_le_roundDown (p + 8) (cosSum ((2 * t * hi) * (2 * t * hi)) (2 * (p / 8 + 4)) 0 1)
  rw [cosSum_eq (2 * t * lo) _ 0 1 (by simp [cosTerm]), Finset.sum_range_succ, e8] at hu
  rw [cosSum_eq (2 * t * hi) _ 0 1 (by simp [cosTerm]), e8] at hl
  simp only [zero_add, even_two, Even.mul_right, Even.neg_pow, one_pow, one_mul] at hu hl
  have bx := (cos_series_bounds (x := ((2 * t * lo : Rat) : ℝ)) (by nlinarith) (p / 8 + 3)).1
  have by' := (cos_series_bounds (x := ((2 * t * hi : Rat) : ℝ)) (by nlinarith) (p / 8 + 4)).2
  rw [show 2 * (p / 8 + 3) + 2 = 2 * (p / 8 + 4) by ring] at bx
  rw [Finset.sum_range_succ] at by'
  simp only [even_two, Even.mul_right, Even.neg_pow, one_pow, one_mul] at by'
  have dx := cosTerm_small p hx.1 hx.2
  have dy := cosTerm_small p hy.1 hy.2
  have hlip := (abs_le.mp (Real.abs_cos_sub_cos_le ((2 * t * lo : Rat) : ℝ) ((2 * t * hi : Rat) : ℝ))).2
  have hd : |((2 * t * lo : Rat) : ℝ) - ((2 * t * hi : Rat) : ℝ)| ≤ (1 / 2) ^ p / 64 := by
    rw [abs_le]; push_cast; constructor <;> nlinarith
  unfold quarterBounds
  dsimp only
  linarith

theorem cosBounds_width (p : Nat) {lo hi : Rat} (h0 : 0 ≤ lo) (hlo : (lo : ℝ) ≤ π) (hhi : π ≤ (hi : ℝ)) (h4 : hi ≤ 4)
    (hw : (hi : ℝ) ≤ lo + (1 / 2) ^ p / 32) (t : Rat) :
    (((cosBounds p lo hi t).2 : Rat) : ℝ) ≤ (((cosBounds p lo hi t).1 : Rat) : ℝ) + (1 / 2) ^ p := by
  obtain ⟨g0, g1⟩ := foldTurn_mem t
  unfold cosBounds
  dsimp only
  split_ifs with h
  · exact quarterBounds_width p h0 hlo hhi h4 hw g0 h
  · have := quarterBounds_width p h0 hlo hhi h4 hw (t := 1 / 2 - foldTurn t) (by linarith) (by linarith)
    push_cast
    linarith

/-- Times twice the denominator, the enclosure of a combination at precision p is within `height · 2^−p`. -/
theorem Trig.bounds_width (p : Nat) {lo hi : Rat} (h0 : 0 ≤ lo) (hlo : (lo : ℝ) ≤ π) (hhi : π ≤ (hi : ℝ)) (h4 : hi ≤ 4)
    (hw : (hi : ℝ) ≤ lo + (1 / 2) ^ p / 32) (l : Nat) (a : Trig) (hd : a.denom ∣ l) :
    2 * (l : ℝ) * ((((a.bounds p lo hi).2 : Rat) : ℝ) - (((a.bounds p lo hi).1 : Rat) : ℝ)) ≤
      (a.height l : ℝ) * (1 / 2) ^ p := by
  induction a with
  | nil => simp [Trig.bounds, Trig.height]
  | cons x r ih =>
    obtain ⟨t, c⟩ := x
    have ih := ih ((Nat.dvd_lcm_right _ _).trans hd)
    have hw' := cosBounds_width p h0 hlo hhi h4 hw t
    have hc : (l : ℝ) * |(c : ℝ)| = ((c.num.natAbs * (l / c.den) : Nat) : ℝ) := by
      obtain ⟨k, rfl⟩ : c.den ∣ l := (Nat.dvd_lcm_left _ _).trans hd
      have hden : (c.den : ℝ) ≠ 0 := by exact_mod_cast c.den_ne_zero
      rw [Nat.mul_div_cancel_left _ c.den_pos]
      conv_lhs => rw [Rat.cast_def]
      rw [abs_div, Nat.abs_cast]
      push_cast [Nat.cast_natAbs]
      field_simp
    simp only [Trig.bounds, Trig.height]
    push_cast at hc ⊢
    have key : ∀ {x y : ℝ}, y ≤ x + (1 / 2) ^ p → 2 * (l : ℝ) * (|(c : ℝ)| * (y - x)) ≤
        2 * ((c.num.natAbs : ℝ) * ((l / c.den : Nat) : ℝ)) * (1 / 2) ^ p := by
      intro x y h
      have : (0 : ℝ) ≤ l * |(c : ℝ)| := by positivity
      rw [← hc]
      nlinarith
    have := key hw'
    split_ifs with hs
    · have hs' : (0 : ℝ) ≤ c := by exact_mod_cast hs
      rw [abs_of_nonneg hs'] at this
      push_cast
      linarith
    · have hs' : (c : ℝ) ≤ 0 := by exact_mod_cast (not_le.mp hs).le
      rw [abs_of_nonpos hs'] at this
      push_cast
      linarith

/-! ## How small a combination can be, other than zero -/

variable {K : Type} [Field K] [Algebra ℚ K]

theorem one_le_norm_mul_pow {m : Nat} [NeZero m] [IsCyclotomicExtension {m} ℚ K] {b : ℝ} (hb1 : 1 ≤ b) {x : K}
    (hx : IsIntegral ℤ x) (hb : ∀ f : K →ₐ[ℚ] ℂ, ‖f x‖ ≤ b) (f : K →ₐ[ℚ] ℂ) (h0 : f x ≠ 0) : 1 ≤ ‖f x‖ * b ^ m := by
  classical
  have := IsCyclotomicExtension.finiteDimensional {m} ℚ K
  have hirr : Irreducible (Polynomial.cyclotomic m ℚ) := Polynomial.cyclotomic.irreducible_rat (NeZero.pos m)
  have : CharZero K := algebraRat.charZero K
  obtain ⟨z, hz⟩ := IsIntegrallyClosed.isIntegral_iff.mp (Algebra.isIntegral_norm ℚ hx)
  have hprod := Algebra.norm_eq_prod_embeddings ℚ ℂ x
  have hx0 : x ≠ 0 := fun h => h0 (by simp [h])
  have hz0 : z ≠ 0 := by
    rintro rfl
    exact hx0 (Algebra.norm_eq_zero_iff.mp (hz.symm.trans (map_zero _)))
  have hone : 1 ≤ ‖∏ g : K →ₐ[ℚ] ℂ, g x‖ := by
    rw [← hprod, ← hz]
    simp only [eq_ratCast, Rat.cast_intCast, eq_intCast, Complex.norm_intCast]
    exact_mod_cast Int.one_le_abs hz0
  rw [← Finset.mul_prod_erase _ _ (Finset.mem_univ f), norm_mul, norm_prod] at hone
  have hcard : (Finset.univ.erase f).card ≤ m := by
    refine (Finset.card_le_univ _).trans ?_
    rw [AlgHom.card, IsCyclotomicExtension.finrank (n := m) _ hirr]
    exact Nat.totient_le m
  refine hone.trans (mul_le_mul_of_nonneg_left ?_ (norm_nonneg _))
  calc ∏ g ∈ Finset.univ.erase f, ‖g x‖ ≤ ∏ _g ∈ Finset.univ.erase f, b :=
        Finset.prod_le_prod (fun _ _ => norm_nonneg _) fun g _ => hb g
    _ = b ^ (Finset.univ.erase f).card := by rw [Finset.prod_const]
    _ ≤ b ^ m := pow_le_pow_right₀ hb1 hcard

theorem exists_embedding (m : Nat) [NeZero m] [IsCyclotomicExtension {m} ℚ K] :
    ∃ f : K →ₐ[ℚ] ℂ, f (IsCyclotomicExtension.zeta m ℚ K) = Complex.exp (2 * π * Complex.I / m) := by
  have hirr : Irreducible (Polynomial.cyclotomic m ℚ) := Polynomial.cyclotomic.irreducible_rat (NeZero.pos m)
  have hz := IsCyclotomicExtension.zeta_spec m ℚ K
  let e := hz.embeddingsEquivPrimitiveRoots ℂ hirr
  let w : primitiveRoots m ℂ := ⟨_, (mem_primitiveRoots (NeZero.pos m)).mpr (Complex.isPrimitiveRoot_exp m (NeZero.ne m))⟩
  refine ⟨e.symm w, ?_⟩
  rw [← hz.embeddingsEquivPrimitiveRoots_apply_coe ℂ hirr]
  exact congrArg Subtype.val (e.apply_symm_apply w)

/-- Twice the denominator times a combination is an algebraic integer of the cyclotomic field, with conjugates within
the height. -/
theorem Trig.exists_integral {m : Nat} [NeZero m] {ζ : K} (hζ : IsPrimitiveRoot ζ m) {f : K →ₐ[ℚ] ℂ}
    (hf : f ζ = Complex.exp (2 * π * Complex.I / m)) (l : Nat) (a : Trig) (hm : a.order ∣ m) (hl : a.denom ∣ l) :
    ∃ x : K, IsIntegral ℤ x ∧ (∀ g : K →ₐ[ℚ] ℂ, ‖g x‖ ≤ a.height l) ∧ f x = ((2 * l * a.val : ℝ) : ℂ) := by
  induction a with
  | nil => exact ⟨0, isIntegral_zero, by simp [Trig.height], by simp⟩
  | cons y r ih =>
    obtain ⟨t, c⟩ := y
    obtain ⟨x, hx, hxn, hxf⟩ := ih ((Nat.dvd_lcm_right _ _).trans hm) ((Nat.dvd_lcm_right _ _).trans hl)
    obtain ⟨k, rfl⟩ : c.den ∣ l := (Nat.dvd_lcm_left _ _).trans hl
    obtain ⟨q, hq⟩ : t.den ∣ m := (Nat.dvd_lcm_left _ _).trans hm
    have hm0 : (m : ℂ) ≠ 0 := by exact_mod_cast NeZero.ne m
    have hint : ∀ j : ℤ, IsIntegral ℤ (ζ ^ j) := by
      intro j
      cases j with
      | ofNat n => rw [Int.ofNat_eq_natCast, zpow_natCast]; exact (hζ.isIntegral (NeZero.pos m)).pow n
      | negSucc n => rw [zpow_negSucc, ← inv_pow]; exact (hζ.inv.isIntegral (NeZero.pos m)).pow _
    have hnorm : ∀ (g : K →ₐ[ℚ] ℂ) (j : ℤ), ‖g (ζ ^ j)‖ = 1 := by
      intro g j
      have : (g ζ) ^ m = 1 := by rw [← map_pow, hζ.pow_eq_one, map_one]
      rw [map_zpow₀, norm_zpow, Complex.norm_eq_one_of_pow_eq_one this (NeZero.ne m), one_zpow]
    let j : ℤ := t.num * q
    have hj : (2 * π * Complex.I / m : ℂ) * j = ((2 * π * t : ℝ) : ℂ) * Complex.I := by
      have ht : (t : ℂ) * m = j := by
        have : (t * m : Rat) = ((t.num * q : ℤ) : Rat) := by
          rw [hq]; push_cast; rw [← mul_assoc, Rat.mul_den_eq_num]
        exact_mod_cast congrArg (fun z : Rat => (z : ℂ)) this
      push_cast
      field_simp
      linear_combination -ht
    refine ⟨((c.num * k : ℤ) : K) * (ζ ^ j + ζ ^ (-j)) + x, ?_, ?_, ?_⟩
    · exact ((isIntegral_algebraMap (R := ℤ) (x := c.num * k)).mul ((hint j).add (hint (-j)))).add hx
    · intro g
      rw [map_add, map_mul, map_intCast, map_add]
      refine (norm_add_le _ _).trans ?_
      rw [norm_mul, Complex.norm_intCast]
      have h2 : ‖g (ζ ^ j) + g (ζ ^ (-j))‖ ≤ 2 := by
        refine (norm_add_le _ _).trans ?_
        rw [hnorm, hnorm]; norm_num
      simp only [Trig.height, Nat.mul_div_cancel_left _ c.den_pos]
      push_cast [Nat.cast_natAbs]
      rw [abs_mul, Nat.abs_cast]
      have h3 := hxn g
      have h4 : (0 : ℝ) ≤ |(c.num : ℝ)| * k := by positivity
      nlinarith
    · rw [map_add, map_mul, map_intCast, map_add, map_zpow₀, map_zpow₀, hf, hxf, ← Complex.exp_int_mul,
        ← Complex.exp_int_mul, mul_comm ((j : ℤ) : ℂ), hj]
      have e2 : ((-j : ℤ) : ℂ) * (2 * π * Complex.I / m) = -(((2 * π * t : ℝ) : ℂ) * Complex.I) := by
        push_cast at hj ⊢; linear_combination -hj
      rw [e2]
      push_cast
      have hc : ((c : ℝ) : ℂ) * c.den = c.num := by
        have : (c : Rat) * c.den = c.num := Rat.mul_den_eq_num c
        exact_mod_cast congrArg (fun z : Rat => (z : ℂ)) this
      have hcos := Complex.two_cos (x := ((2 * π * t : ℝ) : ℂ))
      rw [neg_mul] at hcos
      simp only [Trig.val_cons]
      push_cast at hcos ⊢
      linear_combination (-((c.num : ℂ) * k)) * hcos + (-2 * (k : ℂ) * Complex.cos (2 * π * t)) * hc

theorem Trig.denom_pos (a : Trig) : 0 < a.denom := by
  induction a with
  | nil => simp [Trig.denom]
  | cons x r ih => obtain ⟨t, c⟩ := x; exact Nat.lcm_pos c.den_pos ih

/-- A combination other than 0 is at least `1 / (2·l·B^M)` in size; K is the field of the M-th roots of unity. -/
theorem Trig.separation_in (K : Type) [Field K] [Algebra ℚ K] (a : Trig) [IsCyclotomicExtension {a.order} ℚ K]
    (h : a.val ≠ 0) : 1 ≤ |2 * a.denom * a.val| * (a.height a.denom : ℝ) ^ a.order := by
  have : NeZero a.order := ⟨a.order_pos.ne'⟩
  obtain ⟨f, hf⟩ := exists_embedding (K := K) a.order
  obtain ⟨x, hx, hxn, hxf⟩ := Trig.exists_integral (IsCyclotomicExtension.zeta_spec a.order ℚ K) hf a.denom a dvd_rfl
    dvd_rfl
  have h0 : f x ≠ 0 := by
    rw [hxf]
    have : (a.denom : ℝ) ≠ 0 := by exact_mod_cast a.denom_pos.ne'
    exact_mod_cast mul_ne_zero (mul_ne_zero two_ne_zero this) h
  have hB : (1 : ℝ) ≤ a.height a.denom := by
    have : 0 < (a.height a.denom : ℝ) := (norm_pos_iff.mpr h0).trans_le (hxn f)
    exact_mod_cast this
  have := one_le_norm_mul_pow (m := a.order) hB hx hxn f h0
  rwa [hxf, Complex.norm_real, Real.norm_eq_abs] at this

theorem Trig.separation (a : Trig) (h : a.val ≠ 0) :
    1 ≤ |2 * a.denom * a.val| * (a.height a.denom : ℝ) ^ a.order := by
  have : NeZero a.order := ⟨a.order_pos.ne'⟩
  have : NeZero ((a.order : Nat) : ℚ) := ⟨by exact_mod_cast a.order_pos.ne'⟩
  let alg : Algebra ℚ (CyclotomicField a.order ℚ) := CyclotomicField.algebra a.order ℚ
  have : IsCyclotomicExtension {a.order} ℚ (CyclotomicField a.order ℚ) :=
    CyclotomicField.isCyclotomicExtension a.order ℚ
  exact Trig.separation_in (CyclotomicField a.order ℚ) a h

/-- The sign of a combination is the sign of its real number. -/
theorem Trig.sign_eq (a : Trig) : a.sign = cmp a.val 0 := by
  unfold Trig.sign
  split
  · rename_i q hq
    rw [Trig.val_rat? hq]
    unfold ratSign
    split_ifs with h1 h2
    · exact (cmp_eq_lt_iff _ _ |>.mpr (by exact_mod_cast h1)).symm
    · simp [h2]
    · exact (cmp_eq_gt_iff _ _ |>.mpr (by exact_mod_cast lt_of_le_of_ne (not_lt.mp h1) (Ne.symm h2))).symm
  · split_ifs with h1
    · simp [Trig.val_of_vanishes h1]
    · split
      · rename_i o ho
        obtain ⟨hg, hl, he⟩ := Trig.signByBounds_sound a _ (fun p _ => pi_bounds_usable p) o ho
        cases o
        · exact (cmp_eq_lt_iff _ _ |>.mpr (hl rfl)).symm
        · exact absurd rfl he
        · exact (cmp_eq_gt_iff _ _ |>.mpr (hg rfl)).symm
      · rename_i ho
        refine (cmp_eq_eq_iff _ _ |>.mpr ?_).symm
        by_contra hne
        have hs := a.separation hne
        simp only [Trig.signByBounds] at ho
        split_ifs at ho with _ _ _ _ _ _ g1 g2
        obtain ⟨u1, u2⟩ := pi_bounds_usable a.decisive
        have hw := Trig.bounds_width a.decisive u1 (piLower_le _) (le_piUpper _) u2 (pi_width _) a.denom a dvd_rfl
        obtain ⟨b1, b2⟩ := Trig.bounds_sound a.decisive u1 (piLower_le _) (le_piUpper _) u2 a
        generalize hb : a.bounds a.decisive (piLower a.decisive) (piUpper a.decisive) = b at *
        have g1' : ((b.1 : Rat) : ℝ) ≤ 0 := by exact_mod_cast not_lt.mp g1
        have g2' : (0 : ℝ) ≤ ((b.2 : Rat) : ℝ) := by exact_mod_cast not_lt.mp g2
        have habs : |a.val| ≤ ((b.2 : Rat) : ℝ) - ((b.1 : Rat) : ℝ) := by
          rw [abs_le]; constructor <;> linarith
        have h1 : |2 * (a.denom : ℝ) * a.val| ≤ (a.height a.denom : ℝ) * (1 / 2) ^ a.decisive := by
          rw [abs_mul, abs_of_nonneg (by positivity)]
          refine le_trans ?_ hw
          gcongr
        have hlt : a.height a.denom < 2 ^ ((a.height a.denom).log2 + 1) := Nat.lt_log2_self
        have h2 : (a.height a.denom : ℝ) ^ (a.order + 1) < 2 ^ a.decisive := by
          unfold Trig.decisive
          rw [Nat.mul_comm, pow_mul]
          exact_mod_cast Nat.pow_lt_pow_left hlt (by omega)
        have h3 : ((1 : ℝ) / 2) ^ a.decisive * 2 ^ a.decisive = 1 := by rw [← mul_pow]; norm_num
        have hpos : (0 : ℝ) < (1 / 2) ^ a.decisive := by positivity
        have h4 : (1 : ℝ) ≤ (a.height a.denom : ℝ) ^ (a.order + 1) * (1 / 2) ^ a.decisive := by
          refine hs.trans ?_
          rw [pow_succ]
          calc _ ≤ (a.height a.denom : ℝ) * (1 / 2) ^ a.decisive * (a.height a.denom : ℝ) ^ a.order := by gcongr
            _ = _ := by ring
        have h5 : (a.height a.denom : ℝ) ^ (a.order + 1) * (1 / 2) ^ a.decisive <
            2 ^ a.decisive * (1 / 2) ^ a.decisive := by gcongr
        linarith

end Sys2Proof
end

