-- ==== Sys2Proof/Laws/Real.lean ====
section
/-! SUPPORT. The arithmetic of Machine/Real.lean is real arithmetic: every operation on spectral values names the real
number it should, and every comparison is the order of the reals. -/

namespace Sys2Proof

open Real

/-! ## Towers of square roots -/

/-- The real number a number of a tower names. -/
noncomputable def Tower.val : {n : Nat} → Tower n → Surd n → ℝ
  | _, .base, a           => Trig.val a
  | _, .root t r, (a, b)  => t.val a + t.val b * Real.sqrt (t.val r)

/-- Every root of the tower is one of a positive number. -/
def Tower.Ok : {n : Nat} → Tower n → Prop
  | _, .base     => True
  | _, .root t r => t.Ok ∧ 0 < t.val r

@[simp] theorem Tower.val_root {n : Nat} (t : Tower n) (r a b : Surd n) :
    (Tower.root t r).val (a, b) = t.val a + t.val b * Real.sqrt (t.val r) := rfl

@[simp] theorem Tower.val_ofTrig {n : Nat} (t : Tower n) (c : Trig) : t.val (Surd.ofTrig c n) = c.val := by
  induction t generalizing c with
  | base => rfl
  | root t r ih => simp [Surd.ofTrig, ih]

@[simp] theorem Tower.val_add {n : Nat} (t : Tower n) (a b : Surd n) :
    t.val (Surd.add n a b) = t.val a + t.val b := by
  induction t with
  | base => exact Trig.val_add a b
  | root t r ih =>
    obtain ⟨a1, a2⟩ := a
    obtain ⟨b1, b2⟩ := b
    simp [Surd.add, ih]; ring

@[simp] theorem Tower.val_neg {n : Nat} (t : Tower n) (a : Surd n) : t.val (Surd.neg n a) = -t.val a := by
  induction t with
  | base => exact (Trig.val_scale (-1) a).trans (by push_cast; exact neg_one_mul _)
  | root t r ih =>
    obtain ⟨a1, a2⟩ := a
    simp [Surd.neg, ih]; ring

theorem Tower.val_mul {n : Nat} {t : Tower n} (h : t.Ok) (a b : Surd n) : t.val (t.mul a b) = t.val a * t.val b := by
  induction t with
  | base => exact Trig.val_mul a b
  | root t r ih =>
    obtain ⟨a1, a2⟩ := a
    obtain ⟨b1, b2⟩ := b
    have hs := Real.mul_self_sqrt h.2.le
    simp only [Tower.mul, Tower.val_root, Tower.val_add, ih h.1]
    linear_combination (-(t.val a2 * t.val b2)) * hs

/-- The sign of a sum `x + y`, from those of x, of y and of x² − y². -/
theorem surdSign_eq (x y : ℝ) : surdSign (cmp x 0) (cmp y 0) (cmp (x * x - y * y) 0) = cmp (x + y) 0 := by
  have lt : ∀ {z : ℝ}, z < 0 → cmp z 0 = .lt := (cmp_eq_lt_iff _ _).mpr
  have gt : ∀ {z : ℝ}, 0 < z → cmp z 0 = .gt := (cmp_eq_gt_iff _ _).mpr
  rcases lt_trichotomy y 0 with hy | rfl | hy
  · rcases lt_trichotomy x 0 with hx | rfl | hx
    · rw [lt hx, lt hy, lt (by linarith : x + y < 0)]; simp [surdSign]
    · rw [zero_add, lt hy]; simp [surdSign]
    · rw [gt hx, lt hy]
      rcases lt_trichotomy (x * x - y * y) 0 with h | h | h
      · rw [lt h, lt (by nlinarith : x + y < 0)]; simp [surdSign]
      · have : x + y = 0 := by
          rcases mul_eq_zero.mp (by linarith : (x - y) * (x + y) = 0) with h' | h' <;> linarith
        rw [h, this]; simp [surdSign]
      · rw [gt h, gt (by nlinarith : 0 < x + y)]; simp [surdSign]
  · simp [surdSign]
  · rcases lt_trichotomy x 0 with hx | rfl | hx
    · rw [lt hx, gt hy]
      rcases lt_trichotomy (x * x - y * y) 0 with h | h | h
      · rw [lt h, gt (by nlinarith : 0 < x + y)]; simp [surdSign]
      · have : x + y = 0 := by
          rcases mul_eq_zero.mp (by linarith : (x - y) * (x + y) = 0) with h' | h' <;> linarith
        rw [h, this]; simp [surdSign]
      · rw [gt h, lt (by nlinarith : x + y < 0)]; simp [surdSign]
    · rw [zero_add, gt hy]; simp [surdSign]
    · rw [gt hx, gt hy, gt (by linarith : 0 < x + y)]; simp [surdSign]

/-- The sign of a number of a tower is the sign of its real number. -/
theorem Tower.sign_eq {n : Nat} {t : Tower n} (h : t.Ok) (a : Surd n) : t.sign a = cmp (t.val a) 0 := by
  induction t with
  | base => exact Trig.sign_eq a
  | root t r ih =>
    obtain ⟨a, b⟩ := a
    have hr := Real.sqrt_pos.mpr h.2
    have hb : cmp (t.val b) 0 = cmp (t.val b * Real.sqrt (t.val r)) 0 := by
      rw [show (0 : ℝ) = 0 * Real.sqrt (t.val r) by simp]
      simpa using (cmp_mul_pos_right hr (t.val b) 0).symm
    have hd : t.val (Surd.add _ (t.mul a a) (Surd.neg _ (t.mul r (t.mul b b)))) =
        t.val a * t.val a - t.val b * Real.sqrt (t.val r) * (t.val b * Real.sqrt (t.val r)) := by
      have hs := Real.mul_self_sqrt h.2.le
      simp only [Tower.val_add, Tower.val_neg, Tower.val_mul h.1]
      linear_combination (t.val b * t.val b) * hs
    simp only [Tower.sign, ih h.1, Tower.val_root, hd, hb]
    exact surdSign_eq _ _

/-! ## Values as quotients in a tower -/

/-- `p` is the real number `x` in a tower over `t`. -/
structure Frac.Is {n : Nat} (p : Frac n) (t : Tower n) (x : ℝ) : Prop where
  ok   : p.tower.Ok
  lift : ∀ a, p.tower.val (p.lift a) = t.val a
  den  : 0 < p.tower.val p.den
  val  : x = p.tower.val p.num / p.tower.val p.den

theorem Frac.ofTrig_is {n : Nat} {t : Tower n} (h : t.Ok) (c : Trig) : (Frac.ofTrig t c).Is t c.val :=
  ⟨h, fun _ => rfl, by simp [Frac.ofTrig], by simp [Frac.ofTrig]⟩

theorem Frac.zeroed_is {n : Nat} {p : Frac n} {t : Tower n} {x : ℝ} (h : p.Is t x) : p.zeroed.Is t 0 :=
  ⟨h.ok, h.lift, by simp [Frac.zeroed], by simp [Frac.zeroed]⟩

theorem Frac.plus_is {n : Nat} {p : Frac n} {q : Frac p.top} {t : Tower n} {x y : ℝ} (hp : p.Is t x)
    (hq : q.Is p.tower y) : (p.plus q).Is t (x + y) := by
  have hpd := hp.den.ne'
  have hqd := hq.den.ne'
  refine ⟨hq.ok, fun a => by rw [← hp.lift, ← hq.lift]; rfl, ?_, ?_⟩ <;>
    simp only [Frac.plus, Tower.val_mul hq.ok, Tower.val_add, hq.lift]
  · exact mul_pos hp.den hq.den
  · rw [hp.val, hq.val]; field_simp

theorem Frac.times_is {n : Nat} {p : Frac n} {q : Frac p.top} {t : Tower n} {x y : ℝ} (hp : p.Is t x)
    (hq : q.Is p.tower y) : (p.times q).Is t (x * y) := by
  refine ⟨hq.ok, fun a => by rw [← hp.lift, ← hq.lift]; rfl, ?_, ?_⟩ <;>
    simp only [Frac.times, Tower.val_mul hq.ok, hq.lift]
  · exact mul_pos hp.den hq.den
  · rw [hp.val, hq.val, div_mul_div_comm]

theorem Frac.inverse_is {n : Nat} {q : Frac n} {t : Tower n} {x : ℝ} (h : q.Is t x) : q.inverse.Is t x⁻¹ := by
  have hs := Tower.sign_eq h.ok q.num
  unfold Frac.inverse
  split <;> rename_i hc <;> rw [hc] at hs
  · have hn := (cmp_eq_gt_iff _ _).mp hs.symm
    exact ⟨h.ok, h.lift, hn, by rw [h.val, inv_div]⟩
  · have hn := (cmp_eq_eq_iff _ _).mp hs.symm
    have : x⁻¹ = 0 := by rw [h.val, hn]; simp
    rw [this]; exact Frac.zeroed_is h
  · have hn := (cmp_eq_lt_iff _ _).mp hs.symm
    refine ⟨h.ok, h.lift, ?_, ?_⟩ <;> simp only [Tower.val_neg]
    · linarith
    · rw [h.val, inv_div, neg_div_neg_eq]

theorem Frac.root_is {n : Nat} {p : Frac n} {t : Tower n} {x : ℝ} (h : p.Is t x) : p.root.Is t (Real.sqrt x) := by
  have hs := Tower.sign_eq h.ok (p.tower.mul p.num p.den)
  rw [Tower.val_mul h.ok] at hs
  have hd := h.den
  have hx : x = p.tower.val p.num * p.tower.val p.den / (p.tower.val p.den * p.tower.val p.den) := by
    rw [h.val]; field_simp
  have hroot : Real.sqrt x = Real.sqrt (p.tower.val p.num * p.tower.val p.den) / p.tower.val p.den := by
    rw [hx, Real.sqrt_div' _ (by positivity), Real.sqrt_mul_self hd.le]
  unfold Frac.root
  dsimp only
  split
  · rename_i hc
    rw [hc] at hs
    have hn := (cmp_eq_gt_iff _ _).mp hs.symm
    refine ⟨⟨h.ok, by rwa [Tower.val_mul h.ok]⟩, fun a => by simp [h.lift], by simpa using hd, ?_⟩
    simp [Tower.val_mul h.ok, hroot]
  · rename_i hc
    have hn : p.tower.val p.num * p.tower.val p.den ≤ 0 := by
      by_contra hlt
      exact hc (hs.trans ((cmp_eq_gt_iff _ _).mpr (not_le.mp hlt)))
    have : Real.sqrt x = 0 := by rw [hroot, Real.sqrt_eq_zero_of_nonpos hn, zero_div]
    rw [this]; exact Frac.zeroed_is h

theorem SVal.frac_is (x : SVal) : ∀ {n : Nat} {t : Tower n}, t.Ok → (x.frac t).Is t x.val := by
  induction x with
  | trig c => intro n t h; exact Frac.ofTrig_is h c
  | rootQuot a b =>
    intro n t h
    have hp := Frac.root_is (Frac.ofTrig_is h a)
    have hq := Frac.inverse_is (Frac.root_is (Frac.ofTrig_is hp.ok b))
    exact Frac.times_is hp hq
  | add x y ihx ihy => intro n t h; exact Frac.plus_is (ihx h) (ihy (ihx h).ok)
  | mul x y ihx ihy => intro n t h; exact Frac.times_is (ihx h) (ihy (ihx h).ok)
  | div x y ihx ihy => intro n t h; exact Frac.times_is (ihx h) (Frac.inverse_is (ihy (ihx h).ok))
  | sqrt x ih => intro n t h; exact Frac.root_is (ih h)

/-- The sign of a value is the sign of its real number. -/
theorem SVal.sign_eq (x : SVal) : x.sign = cmp x.val 0 := by
  have h := x.frac_is (t := .base) trivial
  unfold SVal.sign
  dsimp only
  rw [Tower.sign_eq h.ok, h.val, div_eq_mul_inv]
  simpa using (cmp_mul_pos_right (inv_pos.mpr h.den) ((x.frac .base).tower.val (x.frac .base).num) 0).symm

/-! ## Spectral values -/

@[simp] theorem SVal.val_trig (c : Trig) : (SVal.trig c).val = c.val := rfl

@[simp] theorem SVal.val_ofRat (q : Rat) : (SVal.ofRat q).val = q := by simp [SVal.ofRat]

@[simp] theorem SVal.val_zero : SVal.zero.val = 0 := by simp [SVal.zero]

@[simp] theorem SVal.val_plus (x y : SVal) : (x.plus y).val = x.val + y.val := by
  unfold SVal.plus
  split
  · simp
  · split_ifs with h1 h2
    · simp [h1]
    · simp [h2]
    · rfl

theorem isqrt_le_of {q r : Rat} (h : ratSqrt? q = some r) : 0 ≤ r ∧ r * r = q := by
  unfold ratSqrt? at h
  dsimp only at h
  split_ifs at h with hc
  cases h
  obtain ⟨h0, hn, hd⟩ := hc
  refine ⟨by positivity, ?_⟩
  rw [div_mul_div_comm]
  have e1 : ((isqrt q.num.toNat : Rat) * isqrt q.num.toNat) = (q.num : Rat) := by exact_mod_cast hn
  have e2 : ((isqrt q.den : Rat) * isqrt q.den) = (q.den : Rat) := by exact_mod_cast hd
  rw [e1, e2, Rat.num_div_den]

theorem ratSqrt?_val {q r : Rat} (h : ratSqrt? q = some r) : Real.sqrt (q : ℝ) = r := by
  obtain ⟨h0, h1⟩ := isqrt_le_of h
  rw [← h1]; push_cast
  exact Real.sqrt_mul_self (by exact_mod_cast h0)

@[simp] theorem mkRootQuot_val (n d : Trig) : (mkRootQuot n d).val = Real.sqrt n.val / Real.sqrt d.val := by
  unfold mkRootQuot
  split
  · rename_i e he
    have hd := Trig.val_rat? he
    split_ifs with hpos
    · have hpos' : (0 : ℝ) < e := by exact_mod_cast hpos
      have hm : ((n.scale (1 / e)).val) = n.val / e := by rw [Trig.val_scale]; push_cast; ring
      have hq : Real.sqrt n.val / Real.sqrt d.val = Real.sqrt ((n.scale (1 / e)).val) := by
        rw [hm, hd, Real.sqrt_div' _ hpos'.le]
      rw [hq]
      dsimp only
      split
      · rename_i r hr
        obtain ⟨q, h1, h2⟩ := Option.bind_eq_some_iff.mp hr
        rw [Trig.val_rat? h1, ratSqrt?_val h2]; simp
      · simp [SVal.val]
    · rfl
  · split_ifs with h
    · simp [h]
    · rfl

/-- The product of two values is their product, roots being taken of values at least 0. -/
theorem SVal.val_times {x y : SVal} (hx : x.Proper) : (x.times y).val = x.val * y.val := by
  unfold SVal.times
  split
  · simp
  · rename_i n d m e
    split
    · rename_i q hq
      split_ifs with h
      · obtain ⟨rfl, rfl, hpos⟩ := h
        have hpos' : (0 : ℝ) < q := by exact_mod_cast hpos
        have hd := Trig.val_rat? hq
        simp only [SVal.val, SVal.Proper, Trig.val_scale] at *
        rw [div_mul_div_comm, Real.mul_self_sqrt hx.1, Real.mul_self_sqrt hx.2.le, hd]
        push_cast; ring
      · rfl
    · rfl
  · rename_i a n d
    split
    · rename_i q hq
      split_ifs with h
      · have h' : (0 : ℝ) ≤ q := by exact_mod_cast h
        rw [mkRootQuot_val, Trig.val_scale]
        push_cast
        rw [Real.sqrt_mul (by positivity), Real.sqrt_mul_self h']
        simp only [SVal.val, Trig.val_rat? hq]; ring
      · rfl
    · rfl
  · rfl

@[simp] theorem SVal.val_root (x : SVal) : x.root.val = Real.sqrt x.val := by
  unfold SVal.root
  split
  · simp
  · rfl

theorem SVal.asRootQuot?_val {x : SVal} {n d : Trig} (h : x.asRootQuot? = some (n, d)) :
    x.val = Real.sqrt n.val / Real.sqrt d.val ∧ 0 ≤ n.val ∧ 0 < d.val := by
  unfold SVal.asRootQuot? at h
  split at h
  · rename_i c
    split_ifs at h with hs
    cases h
    rw [Trig.sign_eq, cmp_eq_lt_iff, not_lt] at hs
    simp [Real.sqrt_mul_self hs, mul_self_nonneg]
  · split_ifs at h with hs
    cases h
    rw [Trig.sign_eq, Trig.sign_eq, Ne, cmp_eq_lt_iff, not_lt, cmp_eq_gt_iff] at hs
    exact ⟨rfl, hs⟩
  · cases h

theorem SVal.val_over (x y : SVal) : (x.over y).val = x.val / y.val := by
  unfold SVal.over
  split
  · rename_i a b
    split
    · rename_i q hq
      split_ifs with h
      · rfl
      · simp [Trig.val_rat? hq]; ring
    · rfl
  · split
    · rename_i n d m e h1 h2
      obtain ⟨hx1, hn, hd⟩ := SVal.asRootQuot?_val h1
      obtain ⟨hy1, hm, he⟩ := SVal.asRootQuot?_val h2
      rw [mkRootQuot_val, hx1, hy1, Trig.val_mul, Trig.val_mul, Real.sqrt_mul hn, Real.sqrt_mul hd.le]
      have : Real.sqrt e.val ≠ 0 := (Real.sqrt_pos.mpr he).ne'
      have : Real.sqrt d.val ≠ 0 := (Real.sqrt_pos.mpr hd).ne'
      field_simp
    · rfl

theorem cmp_sub_zero (x y : ℝ) : cmp (x - y) 0 = cmp x y := by
  rcases lt_trichotomy x y with h | h | h
  · rw [(cmp_eq_lt_iff _ _).mpr h, (cmp_eq_lt_iff _ _).mpr (by linarith)]
  · simp [h]
  · rw [(cmp_eq_gt_iff _ _).mpr h, (cmp_eq_gt_iff _ _).mpr (by linarith)]

/-- The comparison of two values is that of their real numbers. -/
theorem SVal.compare_eq (x y : SVal) : x.compare y = cmp x.val y.val := by
  unfold SVal.compare
  split
  · rw [Trig.sign_eq, Trig.val_sub, cmp_sub_zero]; rfl
  · split
    · rename_i n d m e h1 h2
      obtain ⟨hx1, hn, hd⟩ := SVal.asRootQuot?_val h1
      obtain ⟨hy1, hm, he⟩ := SVal.asRootQuot?_val h2
      rw [Trig.sign_eq, Trig.val_sub, Trig.val_mul, Trig.val_mul, cmp_sub_zero]
      have ex : x.val = Real.sqrt (n.val / d.val) := by rw [hx1, Real.sqrt_div hn]
      have ey : y.val = Real.sqrt (m.val / e.val) := by rw [hy1, Real.sqrt_div hm]
      have hnd : 0 ≤ n.val / d.val := by positivity
      have hme : 0 ≤ m.val / e.val := by positivity
      rw [ex, ey]
      rcases lt_trichotomy (n.val * e.val) (m.val * d.val) with h | h | h
      · rw [(cmp_eq_lt_iff _ _).mpr h, eq_comm, cmp_eq_lt_iff, Real.sqrt_lt_sqrt_iff hnd, div_lt_div_iff₀ hd he]
        exact h
      · rw [(cmp_eq_eq_iff _ _).mpr h, eq_comm, cmp_eq_eq_iff, Real.sqrt_inj hnd hme, div_eq_div_iff hd.ne' he.ne']
        exact h
      · rw [(cmp_eq_gt_iff _ _).mpr h, eq_comm, cmp_eq_gt_iff, Real.sqrt_lt_sqrt_iff hme, div_lt_div_iff₀ he hd]
        exact h
    · rw [SVal.sign_eq]
      have : (SVal.add x (.mul (.ofRat (-1)) y)).val = x.val - y.val := by
        change x.val + (SVal.ofRat (-1)).val * y.val = _
        rw [SVal.val_ofRat]; push_cast; ring
      rw [this, cmp_sub_zero]

@[simp] theorem SVal.less_iff (x y : SVal) : x.less y = true ↔ x.val < y.val := by
  simp [SVal.less, SVal.compare_eq, cmp_eq_lt_iff]

end Sys2Proof
end

