-- ==== Sys2Proof/Laws/Spectrum.lean ====
section
/-! SUPPORT. The loops of the spectral path (Machine/Spectrum.lean, Machine/Thdn.lean): what each leaves in every
element. -/

namespace Sys2Proof.Machine

/-! ## Loops over the bins -/

/-- A loop that rewrites the elements 0..n−1 of an array, each from its own old value. -/
theorem loop_spec {α : Type} [DecidableEq α] {d : α} (g : Nat → α → α) (n : Nat) {m : Memory α}
    (hm : Memory.wf d m = true) :
    let r := (List.range n).foldl (fun m k => Memory.write d k (g k (Memory.read d m k)) m) m
    Memory.wf d r = true ∧ ∀ i, Memory.read d r i = if i < n then g i (Memory.read d m i) else Memory.read d m i := by
  induction n with
  | zero => exact ⟨hm, fun i => by simp⟩
  | succ n ih =>
    obtain ⟨h1, h2⟩ := ih
    rw [List.range_succ, List.foldl_append]
    refine ⟨Memory.wf_write _ _ h1, fun i => ?_⟩
    show Memory.read d (Memory.write d n _ _) i = _
    rw [Memory.read_write h1, h2 i, h2 n, if_neg (lt_irrefl n)]
    by_cases hi : i = n
    · subst hi; simp
    · rw [if_neg hi]
      by_cases hl : i < n
      · rw [if_pos hl, if_pos (by omega)]
      · rw [if_neg hl, if_neg (by omega)]

theorem accumulate_wf (ar : ArithOps) (len nAvg : Nat) (xs : List Rat) {m : Memory SVal} (hm : Memory.wf .zero m = true) :
    Memory.wf .zero (accumulate ar len nAvg xs m) = true :=
  (loop_spec (fun k x => ar.add x (power ar (ar.fft (windowed ar len 0 xs)) len nAvg k)) (len / 2 + 1) hm).1

/-- A pass adds its power to the bins up to N/2 and leaves the others (43_spectrum.md R186). -/
theorem accumulate_read (ar : ArithOps) (len nAvg : Nat) (xs : List Rat) {m : Memory SVal}
    (hm : Memory.wf .zero m = true) (k : Nat) :
    Memory.read .zero (accumulate ar len nAvg xs m) k =
      if k < len / 2 + 1 then ar.add (Memory.read .zero m k) (power ar (ar.fft (windowed ar len 0 xs)) len nAvg k)
      else Memory.read .zero m k :=
  (loop_spec (fun k x => ar.add x (power ar (ar.fft (windowed ar len 0 xs)) len nAvg k)) (len / 2 + 1) hm).2 k

theorem takeRoots_wf (ar : ArithOps) (len : Nat) {m : Memory SVal} (hm : Memory.wf .zero m = true) :
    Memory.wf .zero (takeRoots ar len m) = true :=
  (loop_spec (fun _ x => ar.sqrt x) (len / 2 + 1) hm).1

/-- ACC_FINAL takes the roots of the bins up to N/2 and leaves the others (43_spectrum.md R187). -/
theorem takeRoots_read (ar : ArithOps) (len : Nat) {m : Memory SVal} (hm : Memory.wf .zero m = true) (k : Nat) :
    Memory.read .zero (takeRoots ar len m) k =
      if k < len / 2 + 1 then ar.sqrt (Memory.read .zero m k) else Memory.read .zero m k :=
  (loop_spec (fun _ x => ar.sqrt x) (len / 2 + 1) hm).2 k

/-! ## The window -/

@[simp] theorem windowed_length (ar : ArithOps) (len n : Nat) (xs : List Rat) :
    (windowed ar len n xs).length = xs.length := by
  induction xs generalizing n with
  | nil => rfl
  | cons x r ih => simp [windowed, ih]

theorem windowed_getElem? (ar : ArithOps) (len n : Nat) (xs : List Rat) (i : Nat) :
    (windowed ar len n xs)[i]? = xs[i]?.map fun x => ar.mul (.ofRat x) (hanningWeight ar len (n + i)) := by
  induction xs generalizing n i with
  | nil => simp [windowed]
  | cons x r ih =>
    cases i with
    | zero => rfl
    | succ i =>
      simp only [windowed, List.getElem?_cons_succ, ih]
      rw [show n + 1 + i = n + (i + 1) by omega]

/-! ## Sums -/

@[simp] theorem sumOf_nil (ar : ArithOps) : sumOf ar [] = .zero := rfl

@[simp] theorem sumOf_singleton (ar : ArithOps) (x : SVal) : sumOf ar [x] = x := rfl

/-- Under ARITH = exact a sum is the sum of the real numbers. -/
theorem sumOf_exact_val (sineNegated : Bool) (xs : List SVal) :
    (sumOf (ArithOps.exact sineNegated) xs).val = (xs.map SVal.val).sum := by
  have fold : ∀ (xs : List SVal) (x : SVal), (xs.foldl SVal.plus x).val = x.val + (xs.map SVal.val).sum := by
    intro xs
    induction xs with
    | nil => simp
    | cons y ys ih => intro x; rw [List.foldl_cons, ih, SVal.val_plus, List.map_cons, List.sum_cons, add_assoc]
  cases xs with
  | nil => simp
  | cons x xs => exact fold xs x

end Sys2Proof.Machine
end

