-- ==== Sys2Proof/Laws/State.lean ====
section
/-! SUPPORT. One lemma per field per named update of State, each true by rfl: what an update writes, and that it leaves
every other field alone. -/

namespace Sys2Proof.Machine

/-! ## goOn -/

@[simp] theorem State.goOn_params (s : State) (i : Instr) (p : Progress) : (s.goOn i p).params = s.params := rfl
@[simp] theorem State.goOn_cfg (s : State) (i : Instr) (p : Progress) : (s.goOn i p).cfg = s.cfg := rfl
@[simp] theorem State.goOn_seq (s : State) (i : Instr) (p : Progress) : (s.goOn i p).seq = .busy (encode i) p := rfl
@[simp] theorem State.goOn_stall (s : State) (i : Instr) (p : Progress) : (s.goOn i p).stall = s.stall := rfl
@[simp] theorem State.goOn_done (s : State) (i : Instr) (p : Progress) : (s.goOn i p).done = s.done := rfl
@[simp] theorem State.goOn_ovr (s : State) (i : Instr) (p : Progress) : (s.goOn i p).ovr = s.ovr := rfl
@[simp] theorem State.goOn_drop (s : State) (i : Instr) (p : Progress) : (s.goOn i p).drop = s.drop := rfl
@[simp] theorem State.goOn_err (s : State) (i : Instr) (p : Progress) : (s.goOn i p).err = s.err := rfl
@[simp] theorem State.goOn_errcmd (s : State) (i : Instr) (p : Progress) : (s.goOn i p).errcmd = s.errcmd := rfl
@[simp] theorem State.goOn_passcnt (s : State) (i : Instr) (p : Progress) : (s.goOn i p).passcnt = s.passcnt := rfl
@[simp] theorem State.goOn_fifo (s : State) (i : Instr) (p : Progress) : (s.goOn i p).fifo = s.fifo := rfl
@[simp] theorem State.goOn_eos (s : State) (i : Instr) (p : Progress) : (s.goOn i p).eos = s.eos := rfl
@[simp] theorem State.goOn_hpfst (s : State) (i : Instr) (p : Progress) : (s.goOn i p).hpfst = s.hpfst := rfl
@[simp] theorem State.goOn_hlen (s : State) (i : Instr) (p : Progress) : (s.goOn i p).hlen = s.hlen := rfl
@[simp] theorem State.goOn_hfill (s : State) (i : Instr) (p : Progress) : (s.goOn i p).hfill = s.hfill := rfl
@[simp] theorem State.goOn_hpf0 (s : State) (i : Instr) (p : Progress) : (s.goOn i p).hpf0 = s.hpf0 := rfl
@[simp] theorem State.goOn_hpf1 (s : State) (i : Instr) (p : Progress) : (s.goOn i p).hpf1 = s.hpf1 := rfl
@[simp] theorem State.goOn_accst (s : State) (i : Instr) (p : Progress) : (s.goOn i p).accst = s.accst := rfl
@[simp] theorem State.goOn_accn (s : State) (i : Instr) (p : Progress) : (s.goOn i p).accn = s.accn := rfl
@[simp] theorem State.goOn_accfs (s : State) (i : Instr) (p : Progress) : (s.goOn i p).accfs = s.accfs := rfl
@[simp] theorem State.goOn_accnavg (s : State) (i : Instr) (p : Progress) : (s.goOn i p).accnavg = s.accnavg := rfl
@[simp] theorem State.goOn_spec0 (s : State) (i : Instr) (p : Progress) : (s.goOn i p).spec0 = s.spec0 := rfl
@[simp] theorem State.goOn_spec1 (s : State) (i : Instr) (p : Progress) : (s.goOn i p).spec1 = s.spec1 := rfl
@[simp] theorem State.goOn_res0 (s : State) (i : Instr) (p : Progress) : (s.goOn i p).res0 = s.res0 := rfl
@[simp] theorem State.goOn_res1 (s : State) (i : Instr) (p : Progress) : (s.goOn i p).res1 = s.res1 := rfl
@[simp] theorem State.goOn_y0 (s : State) (i : Instr) (p : Progress) : (s.goOn i p).y0 = s.y0 := rfl
@[simp] theorem State.goOn_y1 (s : State) (i : Instr) (p : Progress) : (s.goOn i p).y1 = s.y1 := rfl
@[simp] theorem State.goOn_yvalid (s : State) (i : Instr) (p : Progress) : (s.goOn i p).yvalid = s.yvalid := rfl
@[simp] theorem State.goOn_host (s : State) (i : Instr) (p : Progress) : (s.goOn i p).host = s.host := rfl
@[simp] theorem State.goOn_reads (s : State) (i : Instr) (p : Progress) : (s.goOn i p).reads = s.reads := rfl
@[simp] theorem State.goOn_sched (s : State) (i : Instr) (p : Progress) : (s.goOn i p).sched = s.sched := rfl
@[simp] theorem State.goOn_draws (s : State) (i : Instr) (p : Progress) : (s.goOn i p).draws = s.draws := rfl

/-! ## complete -/

@[simp] theorem State.complete_params (s : State) : (s.complete).params = s.params := rfl
@[simp] theorem State.complete_cfg (s : State) : (s.complete).cfg = s.cfg := rfl
@[simp] theorem State.complete_seq (s : State) : (s.complete).seq = .idle := rfl
@[simp] theorem State.complete_stall (s : State) : (s.complete).stall = false := rfl
@[simp] theorem State.complete_done (s : State) : (s.complete).done = true := rfl
@[simp] theorem State.complete_ovr (s : State) : (s.complete).ovr = s.ovr := rfl
@[simp] theorem State.complete_drop (s : State) : (s.complete).drop = s.drop := rfl
@[simp] theorem State.complete_err (s : State) : (s.complete).err = s.err := rfl
@[simp] theorem State.complete_errcmd (s : State) : (s.complete).errcmd = s.errcmd := rfl
@[simp] theorem State.complete_passcnt (s : State) : (s.complete).passcnt = s.passcnt := rfl
@[simp] theorem State.complete_fifo (s : State) : (s.complete).fifo = s.fifo := rfl
@[simp] theorem State.complete_eos (s : State) : (s.complete).eos = s.eos := rfl
@[simp] theorem State.complete_hpfst (s : State) : (s.complete).hpfst = s.hpfst := rfl
@[simp] theorem State.complete_hlen (s : State) : (s.complete).hlen = s.hlen := rfl
@[simp] theorem State.complete_hfill (s : State) : (s.complete).hfill = s.hfill := rfl
@[simp] theorem State.complete_hpf0 (s : State) : (s.complete).hpf0 = s.hpf0 := rfl
@[simp] theorem State.complete_hpf1 (s : State) : (s.complete).hpf1 = s.hpf1 := rfl
@[simp] theorem State.complete_accst (s : State) : (s.complete).accst = s.accst := rfl
@[simp] theorem State.complete_accn (s : State) : (s.complete).accn = s.accn := rfl
@[simp] theorem State.complete_accfs (s : State) : (s.complete).accfs = s.accfs := rfl
@[simp] theorem State.complete_accnavg (s : State) : (s.complete).accnavg = s.accnavg := rfl
@[simp] theorem State.complete_spec0 (s : State) : (s.complete).spec0 = s.spec0 := rfl
@[simp] theorem State.complete_spec1 (s : State) : (s.complete).spec1 = s.spec1 := rfl
@[simp] theorem State.complete_res0 (s : State) : (s.complete).res0 = s.res0 := rfl
@[simp] theorem State.complete_res1 (s : State) : (s.complete).res1 = s.res1 := rfl
@[simp] theorem State.complete_y0 (s : State) : (s.complete).y0 = s.y0 := rfl
@[simp] theorem State.complete_y1 (s : State) : (s.complete).y1 = s.y1 := rfl
@[simp] theorem State.complete_yvalid (s : State) : (s.complete).yvalid = s.yvalid := rfl
@[simp] theorem State.complete_host (s : State) : (s.complete).host = s.host := rfl
@[simp] theorem State.complete_reads (s : State) : (s.complete).reads = s.reads := rfl
@[simp] theorem State.complete_sched (s : State) : (s.complete).sched = s.sched := rfl
@[simp] theorem State.complete_draws (s : State) : (s.complete).draws = s.draws := rfl

/-! ## raise -/

@[simp] theorem State.raise_params (s : State) (e : ErrCode) (w : Word) : (s.raise e w).params = s.params := rfl
@[simp] theorem State.raise_cfg (s : State) (e : ErrCode) (w : Word) : (s.raise e w).cfg = s.cfg := rfl
@[simp] theorem State.raise_seq (s : State) (e : ErrCode) (w : Word) : (s.raise e w).seq = .idle := rfl
@[simp] theorem State.raise_stall (s : State) (e : ErrCode) (w : Word) : (s.raise e w).stall = false := rfl
@[simp] theorem State.raise_done (s : State) (e : ErrCode) (w : Word) : (s.raise e w).done = s.done := rfl
@[simp] theorem State.raise_ovr (s : State) (e : ErrCode) (w : Word) : (s.raise e w).ovr = s.ovr := rfl
@[simp] theorem State.raise_drop (s : State) (e : ErrCode) (w : Word) : (s.raise e w).drop = s.drop := rfl
@[simp] theorem State.raise_err (s : State) (e : ErrCode) (w : Word) : (s.raise e w).err = e := rfl
@[simp] theorem State.raise_errcmd (s : State) (e : ErrCode) (w : Word) : (s.raise e w).errcmd = w := rfl
@[simp] theorem State.raise_passcnt (s : State) (e : ErrCode) (w : Word) : (s.raise e w).passcnt = s.passcnt := rfl
@[simp] theorem State.raise_fifo (s : State) (e : ErrCode) (w : Word) : (s.raise e w).fifo = s.fifo := rfl
@[simp] theorem State.raise_eos (s : State) (e : ErrCode) (w : Word) : (s.raise e w).eos = s.eos := rfl
@[simp] theorem State.raise_hpfst (s : State) (e : ErrCode) (w : Word) : (s.raise e w).hpfst = s.hpfst := rfl
@[simp] theorem State.raise_hlen (s : State) (e : ErrCode) (w : Word) : (s.raise e w).hlen = s.hlen := rfl
@[simp] theorem State.raise_hfill (s : State) (e : ErrCode) (w : Word) : (s.raise e w).hfill = s.hfill := rfl
@[simp] theorem State.raise_hpf0 (s : State) (e : ErrCode) (w : Word) : (s.raise e w).hpf0 = s.hpf0 := rfl
@[simp] theorem State.raise_hpf1 (s : State) (e : ErrCode) (w : Word) : (s.raise e w).hpf1 = s.hpf1 := rfl
@[simp] theorem State.raise_accst (s : State) (e : ErrCode) (w : Word) : (s.raise e w).accst = s.accst := rfl
@[simp] theorem State.raise_accn (s : State) (e : ErrCode) (w : Word) : (s.raise e w).accn = s.accn := rfl
@[simp] theorem State.raise_accfs (s : State) (e : ErrCode) (w : Word) : (s.raise e w).accfs = s.accfs := rfl
@[simp] theorem State.raise_accnavg (s : State) (e : ErrCode) (w : Word) : (s.raise e w).accnavg = s.accnavg := rfl
@[simp] theorem State.raise_spec0 (s : State) (e : ErrCode) (w : Word) : (s.raise e w).spec0 = s.spec0 := rfl
@[simp] theorem State.raise_spec1 (s : State) (e : ErrCode) (w : Word) : (s.raise e w).spec1 = s.spec1 := rfl
@[simp] theorem State.raise_res0 (s : State) (e : ErrCode) (w : Word) : (s.raise e w).res0 = s.res0 := rfl
@[simp] theorem State.raise_res1 (s : State) (e : ErrCode) (w : Word) : (s.raise e w).res1 = s.res1 := rfl
@[simp] theorem State.raise_y0 (s : State) (e : ErrCode) (w : Word) : (s.raise e w).y0 = s.y0 := rfl
@[simp] theorem State.raise_y1 (s : State) (e : ErrCode) (w : Word) : (s.raise e w).y1 = s.y1 := rfl
@[simp] theorem State.raise_yvalid (s : State) (e : ErrCode) (w : Word) : (s.raise e w).yvalid = s.yvalid := rfl
@[simp] theorem State.raise_host (s : State) (e : ErrCode) (w : Word) : (s.raise e w).host = s.host := rfl
@[simp] theorem State.raise_reads (s : State) (e : ErrCode) (w : Word) : (s.raise e w).reads = s.reads := rfl
@[simp] theorem State.raise_sched (s : State) (e : ErrCode) (w : Word) : (s.raise e w).sched = s.sched := rfl
@[simp] theorem State.raise_draws (s : State) (e : ErrCode) (w : Word) : (s.raise e w).draws = s.draws := rfl

/-! ## takeTurn -/

@[simp] theorem State.takeTurn_params (s : State) : (s.takeTurn).params = s.params := rfl
@[simp] theorem State.takeTurn_cfg (s : State) : (s.takeTurn).cfg = s.cfg := rfl
@[simp] theorem State.takeTurn_seq (s : State) : (s.takeTurn).seq = s.seq := rfl
@[simp] theorem State.takeTurn_stall (s : State) : (s.takeTurn).stall = s.stall := rfl
@[simp] theorem State.takeTurn_done (s : State) : (s.takeTurn).done = s.done := rfl
@[simp] theorem State.takeTurn_ovr (s : State) : (s.takeTurn).ovr = s.ovr := rfl
@[simp] theorem State.takeTurn_drop (s : State) : (s.takeTurn).drop = s.drop := rfl
@[simp] theorem State.takeTurn_err (s : State) : (s.takeTurn).err = s.err := rfl
@[simp] theorem State.takeTurn_errcmd (s : State) : (s.takeTurn).errcmd = s.errcmd := rfl
@[simp] theorem State.takeTurn_passcnt (s : State) : (s.takeTurn).passcnt = s.passcnt := rfl
@[simp] theorem State.takeTurn_fifo (s : State) : (s.takeTurn).fifo = s.fifo := rfl
@[simp] theorem State.takeTurn_eos (s : State) : (s.takeTurn).eos = s.eos := rfl
@[simp] theorem State.takeTurn_hpfst (s : State) : (s.takeTurn).hpfst = s.hpfst := rfl
@[simp] theorem State.takeTurn_hlen (s : State) : (s.takeTurn).hlen = s.hlen := rfl
@[simp] theorem State.takeTurn_hfill (s : State) : (s.takeTurn).hfill = s.hfill := rfl
@[simp] theorem State.takeTurn_hpf0 (s : State) : (s.takeTurn).hpf0 = s.hpf0 := rfl
@[simp] theorem State.takeTurn_hpf1 (s : State) : (s.takeTurn).hpf1 = s.hpf1 := rfl
@[simp] theorem State.takeTurn_accst (s : State) : (s.takeTurn).accst = s.accst := rfl
@[simp] theorem State.takeTurn_accn (s : State) : (s.takeTurn).accn = s.accn := rfl
@[simp] theorem State.takeTurn_accfs (s : State) : (s.takeTurn).accfs = s.accfs := rfl
@[simp] theorem State.takeTurn_accnavg (s : State) : (s.takeTurn).accnavg = s.accnavg := rfl
@[simp] theorem State.takeTurn_spec0 (s : State) : (s.takeTurn).spec0 = s.spec0 := rfl
@[simp] theorem State.takeTurn_spec1 (s : State) : (s.takeTurn).spec1 = s.spec1 := rfl
@[simp] theorem State.takeTurn_res0 (s : State) : (s.takeTurn).res0 = s.res0 := rfl
@[simp] theorem State.takeTurn_res1 (s : State) : (s.takeTurn).res1 = s.res1 := rfl
@[simp] theorem State.takeTurn_y0 (s : State) : (s.takeTurn).y0 = s.y0 := rfl
@[simp] theorem State.takeTurn_y1 (s : State) : (s.takeTurn).y1 = s.y1 := rfl
@[simp] theorem State.takeTurn_yvalid (s : State) : (s.takeTurn).yvalid = s.yvalid := rfl
@[simp] theorem State.takeTurn_host (s : State) : (s.takeTurn).host = s.host := rfl
@[simp] theorem State.takeTurn_reads (s : State) : (s.takeTurn).reads = s.reads := rfl
@[simp] theorem State.takeTurn_sched (s : State) : (s.takeTurn).sched = s.sched.tail := rfl
@[simp] theorem State.takeTurn_draws (s : State) : (s.takeTurn).draws = s.draws := rfl

/-! ## accClear -/

@[simp] theorem State.accClear_params (s : State) : (s.accClear).params = s.params := rfl
@[simp] theorem State.accClear_cfg (s : State) : (s.accClear).cfg = s.cfg := rfl
@[simp] theorem State.accClear_seq (s : State) : (s.accClear).seq = s.seq := rfl
@[simp] theorem State.accClear_stall (s : State) : (s.accClear).stall = s.stall := rfl
@[simp] theorem State.accClear_done (s : State) : (s.accClear).done = s.done := rfl
@[simp] theorem State.accClear_ovr (s : State) : (s.accClear).ovr = s.ovr := rfl
@[simp] theorem State.accClear_drop (s : State) : (s.accClear).drop = s.drop := rfl
@[simp] theorem State.accClear_err (s : State) : (s.accClear).err = s.err := rfl
@[simp] theorem State.accClear_errcmd (s : State) : (s.accClear).errcmd = s.errcmd := rfl
@[simp] theorem State.accClear_passcnt (s : State) : (s.accClear).passcnt = 0 := rfl
@[simp] theorem State.accClear_fifo (s : State) : (s.accClear).fifo = s.fifo := rfl
@[simp] theorem State.accClear_eos (s : State) : (s.accClear).eos = s.eos := rfl
@[simp] theorem State.accClear_hpfst (s : State) : (s.accClear).hpfst = s.hpfst := rfl
@[simp] theorem State.accClear_hlen (s : State) : (s.accClear).hlen = s.hlen := rfl
@[simp] theorem State.accClear_hfill (s : State) : (s.accClear).hfill = s.hfill := rfl
@[simp] theorem State.accClear_hpf0 (s : State) : (s.accClear).hpf0 = s.hpf0 := rfl
@[simp] theorem State.accClear_hpf1 (s : State) : (s.accClear).hpf1 = s.hpf1 := rfl
@[simp] theorem State.accClear_accst (s : State) : (s.accClear).accst = .opened := rfl
@[simp] theorem State.accClear_accn (s : State) : (s.accClear).accn = BitVec.ofNat 32 (2 ^ s.cfg.log2n.toNat) := rfl
@[simp] theorem State.accClear_accfs (s : State) : (s.accClear).accfs = s.cfg.srate := rfl
@[simp] theorem State.accClear_accnavg (s : State) : (s.accClear).accnavg = s.cfg.navg := rfl
@[simp] theorem State.accClear_spec0 (s : State) : (s.accClear).spec0 = [] := rfl
@[simp] theorem State.accClear_spec1 (s : State) : (s.accClear).spec1 = [] := rfl
@[simp] theorem State.accClear_res0 (s : State) : (s.accClear).res0 = { s.res0 with valid := false } := rfl
@[simp] theorem State.accClear_res1 (s : State) : (s.accClear).res1 = { s.res1 with valid := false } := rfl
@[simp] theorem State.accClear_y0 (s : State) : (s.accClear).y0 = s.y0 := rfl
@[simp] theorem State.accClear_y1 (s : State) : (s.accClear).y1 = s.y1 := rfl
@[simp] theorem State.accClear_yvalid (s : State) : (s.accClear).yvalid = s.yvalid := rfl
@[simp] theorem State.accClear_host (s : State) : (s.accClear).host = s.host := rfl
@[simp] theorem State.accClear_reads (s : State) : (s.accClear).reads = s.reads := rfl
@[simp] theorem State.accClear_sched (s : State) : (s.accClear).sched = s.sched := rfl
@[simp] theorem State.accClear_draws (s : State) : (s.accClear).draws = s.draws := rfl

/-! ## setRes -/

@[simp] theorem State.setRes_params (s : State) (c : Channel) (r : Result) : (s.setRes c r).params = s.params := by cases c <;> rfl
@[simp] theorem State.setRes_cfg (s : State) (c : Channel) (r : Result) : (s.setRes c r).cfg = s.cfg := by cases c <;> rfl
@[simp] theorem State.setRes_seq (s : State) (c : Channel) (r : Result) : (s.setRes c r).seq = s.seq := by cases c <;> rfl
@[simp] theorem State.setRes_stall (s : State) (c : Channel) (r : Result) : (s.setRes c r).stall = s.stall := by cases c <;> rfl
@[simp] theorem State.setRes_done (s : State) (c : Channel) (r : Result) : (s.setRes c r).done = s.done := by cases c <;> rfl
@[simp] theorem State.setRes_ovr (s : State) (c : Channel) (r : Result) : (s.setRes c r).ovr = s.ovr := by cases c <;> rfl
@[simp] theorem State.setRes_drop (s : State) (c : Channel) (r : Result) : (s.setRes c r).drop = s.drop := by cases c <;> rfl
@[simp] theorem State.setRes_err (s : State) (c : Channel) (r : Result) : (s.setRes c r).err = s.err := by cases c <;> rfl
@[simp] theorem State.setRes_errcmd (s : State) (c : Channel) (r : Result) : (s.setRes c r).errcmd = s.errcmd := by cases c <;> rfl
@[simp] theorem State.setRes_passcnt (s : State) (c : Channel) (r : Result) : (s.setRes c r).passcnt = s.passcnt := by cases c <;> rfl
@[simp] theorem State.setRes_fifo (s : State) (c : Channel) (r : Result) : (s.setRes c r).fifo = s.fifo := by cases c <;> rfl
@[simp] theorem State.setRes_eos (s : State) (c : Channel) (r : Result) : (s.setRes c r).eos = s.eos := by cases c <;> rfl
@[simp] theorem State.setRes_hpfst (s : State) (c : Channel) (r : Result) : (s.setRes c r).hpfst = s.hpfst := by cases c <;> rfl
@[simp] theorem State.setRes_hlen (s : State) (c : Channel) (r : Result) : (s.setRes c r).hlen = s.hlen := by cases c <;> rfl
@[simp] theorem State.setRes_hfill (s : State) (c : Channel) (r : Result) : (s.setRes c r).hfill = s.hfill := by cases c <;> rfl
@[simp] theorem State.setRes_hpf0 (s : State) (c : Channel) (r : Result) : (s.setRes c r).hpf0 = s.hpf0 := by cases c <;> rfl
@[simp] theorem State.setRes_hpf1 (s : State) (c : Channel) (r : Result) : (s.setRes c r).hpf1 = s.hpf1 := by cases c <;> rfl
@[simp] theorem State.setRes_accst (s : State) (c : Channel) (r : Result) : (s.setRes c r).accst = s.accst := by cases c <;> rfl
@[simp] theorem State.setRes_accn (s : State) (c : Channel) (r : Result) : (s.setRes c r).accn = s.accn := by cases c <;> rfl
@[simp] theorem State.setRes_accfs (s : State) (c : Channel) (r : Result) : (s.setRes c r).accfs = s.accfs := by cases c <;> rfl
@[simp] theorem State.setRes_accnavg (s : State) (c : Channel) (r : Result) : (s.setRes c r).accnavg = s.accnavg := by cases c <;> rfl
@[simp] theorem State.setRes_spec0 (s : State) (c : Channel) (r : Result) : (s.setRes c r).spec0 = s.spec0 := by cases c <;> rfl
@[simp] theorem State.setRes_spec1 (s : State) (c : Channel) (r : Result) : (s.setRes c r).spec1 = s.spec1 := by cases c <;> rfl
@[simp] theorem State.setRes_y0 (s : State) (c : Channel) (r : Result) : (s.setRes c r).y0 = s.y0 := by cases c <;> rfl
@[simp] theorem State.setRes_y1 (s : State) (c : Channel) (r : Result) : (s.setRes c r).y1 = s.y1 := by cases c <;> rfl
@[simp] theorem State.setRes_yvalid (s : State) (c : Channel) (r : Result) : (s.setRes c r).yvalid = s.yvalid := by cases c <;> rfl
@[simp] theorem State.setRes_host (s : State) (c : Channel) (r : Result) : (s.setRes c r).host = s.host := by cases c <;> rfl
@[simp] theorem State.setRes_reads (s : State) (c : Channel) (r : Result) : (s.setRes c r).reads = s.reads := by cases c <;> rfl
@[simp] theorem State.setRes_sched (s : State) (c : Channel) (r : Result) : (s.setRes c r).sched = s.sched := by cases c <;> rfl
@[simp] theorem State.setRes_draws (s : State) (c : Channel) (r : Result) : (s.setRes c r).draws = s.draws := by cases c <;> rfl

@[simp] theorem State.setRes_same (s : State) (c : Channel) (r : Result) : (s.setRes c r).res c = r := by cases c <;> rfl

theorem State.setRes_other (s : State) (c d : Channel) (r : Result) (h : d ≠ c) : (s.setRes c r).res d = s.res d := by
  cases c <;> cases d <;> first | rfl | exact absurd rfl h

/-! ## hpfPreload -/

@[simp] theorem State.hpfPreload_params (s : State) (a b : Word) : (s.hpfPreload a b).params = s.params := by
  unfold State.hpfPreload; dsimp only; split <;> rfl
@[simp] theorem State.hpfPreload_cfg (s : State) (a b : Word) : (s.hpfPreload a b).cfg = s.cfg := by
  unfold State.hpfPreload; dsimp only; split <;> rfl
@[simp] theorem State.hpfPreload_seq (s : State) (a b : Word) : (s.hpfPreload a b).seq = s.seq := by
  unfold State.hpfPreload; dsimp only; split <;> rfl
@[simp] theorem State.hpfPreload_stall (s : State) (a b : Word) : (s.hpfPreload a b).stall = s.stall := by
  unfold State.hpfPreload; dsimp only; split <;> rfl
@[simp] theorem State.hpfPreload_done (s : State) (a b : Word) : (s.hpfPreload a b).done = s.done := by
  unfold State.hpfPreload; dsimp only; split <;> rfl
@[simp] theorem State.hpfPreload_ovr (s : State) (a b : Word) : (s.hpfPreload a b).ovr = s.ovr := by
  unfold State.hpfPreload; dsimp only; split <;> rfl
@[simp] theorem State.hpfPreload_drop (s : State) (a b : Word) : (s.hpfPreload a b).drop = s.drop := by
  unfold State.hpfPreload; dsimp only; split <;> rfl
@[simp] theorem State.hpfPreload_err (s : State) (a b : Word) : (s.hpfPreload a b).err = s.err := by
  unfold State.hpfPreload; dsimp only; split <;> rfl
@[simp] theorem State.hpfPreload_errcmd (s : State) (a b : Word) : (s.hpfPreload a b).errcmd = s.errcmd := by
  unfold State.hpfPreload; dsimp only; split <;> rfl
@[simp] theorem State.hpfPreload_passcnt (s : State) (a b : Word) : (s.hpfPreload a b).passcnt = s.passcnt := by
  unfold State.hpfPreload; dsimp only; split <;> rfl
@[simp] theorem State.hpfPreload_fifo (s : State) (a b : Word) : (s.hpfPreload a b).fifo = s.fifo := by
  unfold State.hpfPreload; dsimp only; split <;> rfl
@[simp] theorem State.hpfPreload_eos (s : State) (a b : Word) : (s.hpfPreload a b).eos = s.eos := by
  unfold State.hpfPreload; dsimp only; split <;> rfl
@[simp] theorem State.hpfPreload_hlen (s : State) (a b : Word) : (s.hpfPreload a b).hlen = s.hlen := by
  unfold State.hpfPreload; dsimp only; split <;> rfl
@[simp] theorem State.hpfPreload_accst (s : State) (a b : Word) : (s.hpfPreload a b).accst = s.accst := by
  unfold State.hpfPreload; dsimp only; split <;> rfl
@[simp] theorem State.hpfPreload_accn (s : State) (a b : Word) : (s.hpfPreload a b).accn = s.accn := by
  unfold State.hpfPreload; dsimp only; split <;> rfl
@[simp] theorem State.hpfPreload_accfs (s : State) (a b : Word) : (s.hpfPreload a b).accfs = s.accfs := by
  unfold State.hpfPreload; dsimp only; split <;> rfl
@[simp] theorem State.hpfPreload_accnavg (s : State) (a b : Word) : (s.hpfPreload a b).accnavg = s.accnavg := by
  unfold State.hpfPreload; dsimp only; split <;> rfl
@[simp] theorem State.hpfPreload_spec0 (s : State) (a b : Word) : (s.hpfPreload a b).spec0 = s.spec0 := by
  unfold State.hpfPreload; dsimp only; split <;> rfl
@[simp] theorem State.hpfPreload_spec1 (s : State) (a b : Word) : (s.hpfPreload a b).spec1 = s.spec1 := by
  unfold State.hpfPreload; dsimp only; split <;> rfl
@[simp] theorem State.hpfPreload_res0 (s : State) (a b : Word) : (s.hpfPreload a b).res0 = s.res0 := by
  unfold State.hpfPreload; dsimp only; split <;> rfl
@[simp] theorem State.hpfPreload_res1 (s : State) (a b : Word) : (s.hpfPreload a b).res1 = s.res1 := by
  unfold State.hpfPreload; dsimp only; split <;> rfl
@[simp] theorem State.hpfPreload_y0 (s : State) (a b : Word) : (s.hpfPreload a b).y0 = s.y0 := by
  unfold State.hpfPreload; dsimp only; split <;> rfl
@[simp] theorem State.hpfPreload_y1 (s : State) (a b : Word) : (s.hpfPreload a b).y1 = s.y1 := by
  unfold State.hpfPreload; dsimp only; split <;> rfl
@[simp] theorem State.hpfPreload_yvalid (s : State) (a b : Word) : (s.hpfPreload a b).yvalid = s.yvalid := by
  unfold State.hpfPreload; dsimp only; split <;> rfl
@[simp] theorem State.hpfPreload_host (s : State) (a b : Word) : (s.hpfPreload a b).host = s.host := by
  unfold State.hpfPreload; dsimp only; split <;> rfl
@[simp] theorem State.hpfPreload_reads (s : State) (a b : Word) : (s.hpfPreload a b).reads = s.reads := by
  unfold State.hpfPreload; dsimp only; split <;> rfl
@[simp] theorem State.hpfPreload_sched (s : State) (a b : Word) : (s.hpfPreload a b).sched = s.sched := by
  unfold State.hpfPreload; dsimp only; split <;> rfl
@[simp] theorem State.hpfPreload_draws (s : State) (a b : Word) : (s.hpfPreload a b).draws = s.draws := by
  unfold State.hpfPreload; dsimp only; split <;> rfl
@[simp] theorem State.hpfPreload_hfill (s : State) (a b : Word) : (s.hpfPreload a b).hfill = s.hfill + 1 := by
  unfold State.hpfPreload; dsimp only; split <;> rfl

end Sys2Proof.Machine
end

