-- ==== Sys2Proof/Tests/Slice0.lean ====
section
/-! SUPPORT. The model's own tests, each about one step, with the expected values of spec/95_test_vectors.md; and a
witness for the hypotheses of every obligation. -/

namespace Sys2Proof.Tests

open Sys2Proof Sys2Proof.Machine

/-! ## Small states -/

/-- The smallest block but for a FIFO of 16 bytes, SENTINEL 0xFF. -/
def tiny : Params := ⟨2, 4, 16, 0xFF, .exact false, 0⟩

/-- The block after Init, at N = 4 and H = 4. -/
def quiet : State :=
  { State.reset with params := tiny, seq := .idle, cfg := { Cfg.reset with log2n := 2, srate := 40 } }

/-- `s` with command `i` running at progress `p`. -/
def at' (i : Instr) (p : Progress) (s : State) : State := { s with seq := .busy (encode i) p }

/-- A view of the state a step answers. -/
def after {α : Type} (o : Host.Outcome State Fault Refusal) (f : State → α) : Option α :=
  match o with
  | .next t    => some (f t)
  | .fault _   => none
  | .refused _ => none

/-! ## Well-formedness -/

theorem test_discard_count_in_range : (Instr.discard 16777215).wellFormed = true := by decide
theorem test_discard_count_refused : (Instr.discard 16777216).wellFormed = false := by decide
theorem test_assembler_refuses_count : assemble "DISCARD" [.number 16777216] = none := by decide
theorem test_assembler_channel : assemble "THDN" [.R] = some 0x20000001#32 ∧ assemble "THDN" [.number 2] = none := by
  decide

/-! ## Decoding: the words of 95_test_vectors.md 2.1, bits 31:24 the OPC of 30_encoding.md R102 -/

theorem test_decode_nop : decode 0b00000000_000000000000000000000000#32 = .ok .nop := by decide
theorem test_decode_srst : decode 0b00000001_000000000000000000000000#32 = .ok .srst := by decide
theorem test_decode_discard : decode 0b00000010_000000000000000000000011#32 = .ok (.discard 3) := by decide
theorem test_decode_discard_last : decode 0x02FFFFFF#32 = .ok (.discard 16777215) := by decide
theorem test_decode_frame : decode 0b00000011_000000000000000000000000#32 = .ok .frame := by decide
theorem test_decode_accClear : decode 0b00010000_000000000000000000000000#32 = .ok .accClear := by decide
theorem test_decode_accPass : decode 0b00010001_000000000000000000000000#32 = .ok .accPass := by decide
theorem test_decode_accFinal : decode 0b00010010_000000000000000000000000#32 = .ok .accFinal := by decide
theorem test_decode_thdn_left : decode 0b00100000_000000000000000000000000#32 = .ok (.thdn .left) := by decide
theorem test_decode_thdn_right : decode 0b00100000_000000000000000000000001#32 = .ok (.thdn .right) := by decide
theorem test_decode_measure : decode 0b00100001_000000000000000000000000#32 = .ok .measure := by decide
theorem test_decode_illegal_operand :
    decode 0x00000001#32 = .error (.reservedOperand 0) ∧ decode 0x03800000#32 = .error (.reservedOperand 3) ∧
      decode 0x20000002#32 = .error (.reservedOperand 0x20) := by decide
theorem test_decode_illegal_opcode :
    decode 0x04000000#32 = .error (.reservedOpcode 4) ∧ decode 0xFF000000#32 = .error (.reservedOpcode 0xFF) := by
  decide
theorem test_table_word : decodeTableWord 32 0x20000001 = some (.thdn .right) := by decide

/-! ## Samples and readout: 95_test_vectors.md 2.2, 2.3 -/

theorem test_sample32 :
    sample32 0x00 0x00 0x00 0x40 = 0x40000000#32 ∧ sample32 0x01 0x00 0x00 0x00 = 0x00000001#32 := by decide
theorem test_sample16 : sample16 0x34 0x12 = 0x12340000#32 ∧ sample16 0xFF 0x7F = 0x7FFF0000#32 := by decide
theorem test_readout_sample :
    rnd64Rat (normalize 0x7FFFFFFF#32) = 0x3FEFFFFFFFC00000#64 ∧ rnd64Rat (normalize 0xFFFFFFFF#32) = 0xBE00000000000000#64 := by
  decide +kernel
theorem test_readout_inexact : rnd64Rat (-1 / 40) = 0xBF9999999999999A#64 := by decide +kernel

/-- 43_spectrum.md R180, R184 by hand: at N = 8 the weights of i = 1..7 add up to 7 and the peak, i = 4, is 2, so that with
x = 0, 1/4, 1/4, 1/4, -5/8, 1/4, 1/4, 1/4 the windowed samples add up to 0 and so does P_0, here as four cosines. -/
theorem test_readout_of_a_vanishing_combination :
    rnd64 (.trig [(0, 7 / 1024), (1 / 14, -7 / 512), (1 / 7, 7 / 512), (3 / 14, -7 / 512)]) = 0 := by decide +kernel

/-- √2 + √3 = √(5 + 2√6), and √2 + 1 is less. -/
theorem test_compare_nested_roots :
    let r := SVal.sqrt (.add (.ofRat 5) (.mul (.ofRat 2) (.sqrt (.ofRat 6))))
    (SVal.add (.sqrt (.ofRat 2)) (.sqrt (.ofRat 3))).compare r = .eq ∧
      (SVal.add (.sqrt (.ofRat 2)) (.ofRat 1)).compare r = .lt := by decide +kernel

/-! ## Commands -/

/-- V-CTL-1 -/
theorem test_nop_status : after (exec .nop (at' .nop .start quiet)) (·.statusWord) = some 0x00000004#32 := by decide

/-- V-CTL-4: the step after SRST's, the end of Init -/
theorem test_srst_ends_with_done :
    after (exec .srst (at' .srst .start { quiet with eos := true, fifo := [1] }))
      (fun t => (t.statusWord, t.level, t.busy)) = some (0x00000001#32, 0, true) := by decide
theorem test_init_end :
    after (seqStep quiet.beginSrst) (fun t => (t.statusWord, t.errcmd)) = some (0x00000004#32, 0) := by decide

/-- V-CTL-12: the bytes are gone, the stream has ended -/
theorem test_discard_short :
    after (exec (.discard 3) (at' (.discard 3) (.discard 1) { quiet with eos := true }))
      (fun t => (t.statusWord, t.errcmd)) = some (0x00080300#32, 0x02000003#32) := by decide
theorem test_discard_takes_one :
    after (exec (.discard 3) (at' (.discard 3) .start { quiet with fifo := [0xAA, 0xBB] }))
      (fun t => (t.fifo, t.seq)) = some ([0xBB], .busy 0x02000003#32 (.discard 2)) := by decide

/-- V-HPF-5, its second output: HBUF = 0x20000000, 0xE0000000, 0x20000000, 0xE0000000, HCUR = 0 -/
theorem test_frame_filtered :
    after (exec .frame (at' .frame .start { quiet with
        cfg := { quiet.cfg with ctrl := 1 }, hpfst := .run, hlen := 4, hfill := 3,
        hpf0 := ⟨[(0, 0x20000000), (1, 0xE0000000), (2, 0x20000000), (3, 0xE0000000)], 0, 0⟩,
        hpf1 := ⟨[(0, 0x20000000), (1, 0xE0000000), (2, 0x20000000), (3, 0xE0000000)], 0, 0⟩,
        fifo := [0, 0, 0, 0x20, 0, 0, 0, 0x20] }))
      (fun t => (t.seq, t.hpf0.cur, t.hpf0.sum)) = some (.busy 0x03000000#32 (.output (1 / 4) (1 / 4)), 1, 0) := by
  decide +kernel
/-- P4, its second FRAME with SENTINEL 0xFF -/
theorem test_frame_sentinel :
    after (exec .frame (at' .frame .start { quiet with
        cfg := { quiet.cfg with ctrl := 6 }, eos := true, fifo := [0x12] }))
      (fun t => (t.seq, t.err)) = some (.busy 0x03000000#32 (.output (-119 / 16384) (-1 / 32768)), .none) := by
  decide +kernel

/-- 95_test_vectors.md 2.5, configuration errors: SRATE = 30 raises, SRATE = 39 does not -/
theorem test_accClear_empty_range :
    after (exec .accClear (at' .accClear .start { quiet with cfg := { quiet.cfg with srate := 30 } }))
      (·.err) = some .cfg := by decide +kernel
theorem test_accClear_latches :
    after (exec .accClear (at' .accClear .start { quiet with cfg := { quiet.cfg with srate := 39 } }))
      (fun t => (t.accst, t.accn, t.accfs, t.accnavg)) = some (.opened, 4, 39, 1) := by decide +kernel

/-- ACC_PASS's computation on V-ACC-1: P = 9/256, 25/64, 9/256 -/
theorem test_accPass_power :
    after (exec .accPass (at' .accPass (.pass [(1 / 2, 0), (0, 0), (-1 / 2, 0), (0, 0)])
        { quiet with accst := .opened, accn := 4, accfs := 100, accnavg := 1 }))
      (fun t => (t.bin .left 0, t.bin .left 1, t.bin .left 2, t.bin .right 1, t.passcnt, t.done)) =
        some (.ofRat (9 / 256), .ofRat (25 / 64), .ofRat (9 / 256), .zero, 1, true) := by decide +kernel
/-- ACC_PASS from reset raises ERR_SEQ -/
theorem test_accPass_sequence :
    after (exec .accPass (at' .accPass .start quiet)) (fun t => (t.err, t.errcmd)) = some (.seq, 0x11000000#32) := by
  decide

/-- V-ACC-1: A = 3/16, 5/8, 3/16 -/
theorem test_accFinal_roots :
    after (exec .accFinal (at' .accFinal .start { quiet with
        accst := .opened, accn := 4, accfs := 100, accnavg := 1,
        spec0 := [(0, .ofRat (9 / 256)), (1, .ofRat (25 / 64)), (2, .ofRat (9 / 256))] }))
      (fun t => (t.bin .left 0, t.bin .left 1, t.bin .right 0, t.accst)) =
        some (.ofRat (3 / 16), .ofRat (5 / 8), .zero, .final) := by decide +kernel

/-- The state THDN reads in V-THD-1: A of V-ACC-1, HALFW0 = 0, SRATE = 100 -/
def reduced : State := { quiet with
  cfg := { quiet.cfg with srate := 100, halfw0 := 0 }, accst := .final, accn := 4, accfs := 100, accnavg := 1,
  spec0 := [(0, .ofRat (3 / 16)), (1, .ofRat (5 / 8)), (2, .ofRat (3 / 16))] }

/-- V-THD-1 -/
theorem test_thdn_left :
    after (exec (.thdn .left) (at' (.thdn .left) .start reduced))
      (fun t => (t.res0.fbin, t.res0.sigP, t.res0.noiseP, rnd64 t.res0.thdn, t.res1.valid)) =
        some (1, .ofRat (25 / 64), .ofRat (9 / 256), 0x403E000000000000#64, false) := by decide +kernel
/-- V-THD-12: TFREQ0 = 500000, HALFW0 = 1 -/
theorem test_thdn_outside :
    after (exec (.thdn .left) (at' (.thdn .left) .start
        { reduced with cfg := { reduced.cfg with tfreq0 := 500000, halfw0 := 1 } }))
      (fun t => (t.res0.fbin, t.res0.noiseP, rnd64 t.res0.thdn)) =
        some (20, .ofRat (109 / 256), 0x4059000000000000#64) := by decide +kernel

/-- V-CTL-15 -/
theorem test_measure_config :
    after (exec .measure (at' .measure .start { quiet with cfg := { quiet.cfg with log2n := 1 } }))
      (fun t => (t.statusWord, t.errcmd, t.accst)) = some (0x00000200#32, 0x21000000#32, .none) := by decide +kernel
/-- P2, the right channel's reduction: silence -/
theorem test_measure_right :
    after (exec .measure (at' .measure (.measureThdn .right) reduced))
      (fun t => (t.res1.fbin, rnd64 t.res1.thdn, t.seq)) =
        some (1, 0x4059000000000000#64, .busy 0x21000000#32 .finish) := by decide +kernel

/-! ## Dispatch and the window -/

/-- V-CTL-5 -/
theorem test_illegal_interrupts :
    (({ quiet with cfg := { quiet.cfg with ctrl := 0x18 } }.memWrite 0x02C 0x00000001#32).statusWord) = 0x00100100#32 := by
  decide
/-- V-CTL-9 -/
theorem test_busy_refuses_srate :
    let t := (at' .frame .start quiet).memWrite 0x010 100#32
    (t.ovr, t.cfg.srate) = (true, 40#32) := by decide
/-- V-CTL-13 -/
theorem test_din_after_eos :
    ((quiet.memWrite 0x040 1).memWrite 0x03C 0x55#32).statusWord = 0x00080010#32 := by decide
/-- P2: SPEC[0][1] = 5/8 reads at 0x100008 and 0x10000C -/
theorem test_spectrum_window :
    ((reduced.memRead 0x100008).1, (reduced.memRead 0x10000C).1) = (0x00000000#32, 0x3FE40000#32) := by decide +kernel
/-- P4, after DISCARD: LEVEL = 5, EOS -/
theorem test_inctrl :
    ({ quiet with eos := true, fifo := [1, 2, 3, 4, 5] }.memRead 0x040).1 = 0x00050001#32 := by decide
/-- A placed command is the next step's -/
theorem test_step_runs_placed_word :
    after (step (State.reset.withFetchWord 32 0x11000000)) (fun t => (t.err, t.errcmd)) = some (.seq, 0x11000000#32) := by
  decide

/-! ## Witnesses: for every obligation with hypotheses, values that meet them -/

theorem witness_EncodingRoundTrips :
    (Instr.discard 16777215).wellFormed = true ∧ decode 0x02FFFFFF#32 = .ok (.discard 16777215) := by decide

theorem witness_OpcodeMapSelectsOneRow :
    decode 0x20000001#32 = .ok (.thdn .right) ∧ decode 0x20000002#32 = .error (.reservedOperand 0x20) := by decide

theorem witness_ReservedEncodingsRaiseIllegal :
    (0x22000000 / 2 ^ 24 ∉ [0x00, 0x01, 0x02, 0x03, 0x10, 0x11, 0x12, 0x20, 0x21]) ∧
    (0x21800000 / 2 ^ 24 ∈ [0x00, 0x01, 0x03, 0x10, 0x11, 0x12, 0x21] ∧ 0x21800000 % 2 ^ 24 ≠ 0) ∧
    (0x20000002 / 2 ^ 24 = 0x20 ∧ 0x20000002 % 2 ^ 24 / 2 ≠ 0) ∧
    quiet.seq = .idle ∧ quiet.err = .none ∧ quiet.stall = false := by decide

theorem witness_StepRunsTheDecodedCommand :
    (at' .nop .start quiet).turn = .sequencer ∧ (at' .nop .start quiet).seq = .busy 0x00000000#32 .start ∧
      decode 0x00000000#32 = .ok .nop := by decide

theorem witness_StepMakesTheHostAccess :
    let r := { quiet with host := [.read 0x3FFFFC 4] }
    let w := { quiet with host := [.write 0x000 4 1] }
    r.turn = .host ∧ w.turn = .host ∧ 0x3FFFFC % 4 = 0 ∧ 0x3FFFFC < 0x400000 ∧ r.host = .read 0x3FFFFC 4 :: [] ∧
      w.host = .write 0x000 4 1 :: [] := by decide

theorem witness_CmdWriteDispatches :
    (0x00000000#32 ≠ 0x01000000#32 ∧ (at' .frame .start quiet).busy = true) ∧
    ({ quiet with err := .seq }.busy = false ∧ { quiet with err := .seq }.err ≠ .none) ∧
    (quiet.busy = false ∧ quiet.err = .none ∧ decode 0x00000000#32 = .ok .nop) ∧
    decode 0x00000001#32 = .error (.reservedOperand 0) := by decide

theorem witness_OnlyTheHostWritesConfiguration :
    let w := { quiet with host := [.write 0x028 4 1] }
    (∃ t, seqStep (at' .nop .start quiet) = .next t) ∧ (∃ t, hostStep w = .next t ∧ t.cfg ≠ w.cfg) :=
  ⟨⟨_, rfl⟩, ⟨_, rfl, by decide⟩⟩

theorem witness_SequencingErrors :
    ((at' .accPass .start reduced).runs .accPass .start ∧ reduced.accst ≠ .opened) ∧
    ((at' .accFinal .start quiet).runs .accFinal .start ∧ quiet.accst ≠ .opened) ∧
    ((at' (.thdn .right) .start quiet).runs (.thdn .right) .start ∧ quiet.accst ≠ .final) :=
  ⟨⟨rfl, by decide⟩, ⟨rfl, by decide⟩, rfl, by decide⟩

theorem witness_ErrorEntryRecordsTheCommand :
    let s := at' .accFinal .start quiet
    s.runs .accFinal .start ∧ Instr.accFinal.wellFormed = true ∧ ∃ t, seqStep s = .next t ∧ t.err ≠ s.err :=
  ⟨rfl, by decide, _, rfl, by decide⟩

/-- Seven bytes of an eight-byte frame, and the end of the stream. -/
def shortOf (i : Instr) (p : Progress) : State :=
  at' i p { quiet with eos := true, fifo := [1, 2, 3, 4, 5, 6, 7], accst := .opened, accn := 4 }

theorem witness_ShortFrameRaisesInput :
    ((shortOf .frame .start).wantsFrame .frame .start ∧
      (shortOf .accPass (.pass [])).wantsFrame .accPass (.pass []) ∧
      (shortOf .measure (.measurePass 1 [])).wantsFrame .measure (.measurePass 1 [])) ∧
    ∀ i p, (shortOf i p).eos = true ∧ (shortOf i p).cfg.tol = false ∧ (shortOf i p).cfg.hpfen = false ∧
      (shortOf i p).level < (shortOf i p).frameBytes :=
  ⟨⟨⟨rfl, trivial⟩, ⟨rfl, by decide⟩, ⟨rfl, by decide⟩⟩, fun _ _ => by
    refine ⟨rfl, ?_, ?_, ?_⟩
    · show quiet.cfg.tol = false; decide
    · show quiet.cfg.hpfen = false; decide
    · show 7 < 2 * quiet.cfg.bytesPerChannel; decide⟩

/-- Tolerance mode, past the end of the stream. -/
def lenient : State := { quiet with cfg := { quiet.cfg with ctrl := 4 }, eos := true }

theorem witness_ToleranceModeUsesSentinel :
    lenient.cfg.tol = true ∧ (∃ t, exec .srst { lenient with err := .input } = .next t) ∧
    (∃ t, exec .nop { lenient with err := .input } = .next t ∧ t.err = .input) ∧
    (lenient.eos = true ∧ lenient.level < lenient.frameBytes ∧ lenient.fifo = []) :=
  ⟨by decide, ⟨_, rfl⟩, ⟨_, rfl, by decide⟩, by decide⟩

theorem witness_MissingInputStalls :
    let s := at' .frame .start { quiet with fifo := [1, 2, 3, 4, 5, 6, 7] }
    let d := at' (.discard 1) (.discard 1) quiet
    (s.eos = false ∧ s.wantsFrame .frame .start ∧ s.cfg.hpfen = false ∧ s.level < s.frameBytes) ∧
    (d.eos = false ∧ d.runs (.discard 1) (.discard (0 + 1)) ∧ d.fifo = []) :=
  ⟨⟨rfl, ⟨rfl, trivial⟩, by decide, by decide⟩, rfl, rfl, rfl⟩

theorem witness_DinWritePushesByte :
    ({ quiet with eos := true }.eos = true) ∧
    ({ quiet with fifo := List.replicate 16 0 }.level = { quiet with fifo := List.replicate 16 0 }.params.fifoDepth) ∧
    ({ quiet with fifo := List.replicate 15 0 }.eos = false ∧
      { quiet with fifo := List.replicate 15 0 }.level ≠ { quiet with fifo := List.replicate 15 0 }.params.fifoDepth) := by
  decide

theorem witness_EosStaysUntilReset :
    ((∃ t, exec .nop quiet = .next t) ∧ Instr.nop ≠ .srst) ∧
    ((∀ p, ¬ { quiet with seq := .init 0 true }.runs .srst p) ∧ ∃ t, seqStep { quiet with seq := .init 0 true } = .next t) ∧
    ∀ op, op = .wait ∨ op = .reset ∨ op = .write 0x040 4 1 ∨ op = .write 0x02C 4 0x01000000#32 →
      ∃ t, hostStep { quiet with eos := true, host := [op] } = .next t :=
  ⟨⟨⟨_, rfl⟩, by decide⟩, ⟨(fun _ h => nomatch h), _, rfl⟩, fun op h => by
    rcases h with rfl | rfl | rfl | rfl <;> exact ⟨_, rfl⟩⟩

theorem witness_DiscardStep :
    (at' (.discard 5) (.discard 0) quiet).runs (.discard 5) (.discard 0) ∧
    (let s := at' (.discard 1) .start quiet
     s.runs (.discard 1) .start ∧ 1 = 0 + 1 ∧ s.fifo = [] ∧ s.eos = false) ∧
    (let s := at' (.discard 5) (.discard 1) { quiet with fifo := [7] }
     s.runs (.discard 5) (.discard 1) ∧ 1 = 0 + 1 ∧ s.fifo = 7 :: []) ∧
    (let s := at' (.discard 5) (.discard 1) { quiet with eos := true }
     s.runs (.discard 5) (.discard 1) ∧ s.fifo = [] ∧ s.eos = true ∧ s.cfg.tol = false) ∧
    (let s := at' (.discard 5) (.discard 1) lenient
     s.runs (.discard 5) (.discard 1) ∧ s.fifo = [] ∧ s.eos = true ∧ s.cfg.tol = true) :=
  ⟨rfl, ⟨rfl, rfl, rfl, rfl⟩, ⟨rfl, rfl, rfl⟩, ⟨rfl, rfl, rfl, by decide⟩, rfl, rfl, rfl, by decide⟩

theorem witness_DiscardDropsCountBytes :
    (let s := at' (.discard 2) .start { quiet with fifo := [1, 2] }
     2 ≤ 16777215 ∧ s.runs (.discard 2) .start ∧ 2 ≤ s.level) ∧
    (let s := at' (.discard 0) .start quiet
     s.runs (.discard 0) .start ∧ 0 ≤ s.level) :=
  ⟨⟨by decide, rfl, by decide⟩, rfl, by decide⟩

theorem witness_FrameWritesItsOutput : (at' .frame (.output (-1) 0) quiet).runs .frame (.output (-1) 0) := rfl

/-- `s` at the end of its stream in tolerance mode, three bytes left. -/
def ended (s : State) : State :=
  { s with fifo := [1, 2, 3], eos := true, cfg := { s.cfg with ctrl := s.cfg.ctrl ||| 4 } }

theorem ended_inv {s : State} (h : s.ControlInv) : (ended s).ControlInv where
  params := h.params
  level := by
    have hp := h.params
    simp only [Params.legal, decide_eq_true_eq] at hp
    show 3 ≤ s.params.fifoDepth
    omega
  doneOrErr := h.doneOrErr
  errIdle := h.errIdle
  busyDone := h.busyDone
  stallRuns := h.stallRuns
  word := h.word
  init := h.init
  uninit := h.uninit
  fill := h.fill
  run := h.run
  length := h.length
  cursors := h.cursors
  accNone := h.accNone
  accOpen := h.accOpen
  progress := h.progress

theorem witness_BypassedFrameCompletes :
    (let s := ended (at' .frame .start quiet)
     s.runs .frame .start ∧ s.cfg.hpfen = false ∧ s.frameReady ∧ s.level < s.frameBytes) ∧
    (let s := at' .frame .start { quiet with fifo := [1, 2, 3, 4, 5, 6, 7, 8] }
     s.runs .frame .start ∧ s.cfg.hpfen = false ∧ s.cfg.w16 = false ∧ s.fifo = 1 :: 2 :: 3 :: 4 :: 5 :: 6 :: 7 :: 8 :: []) ∧
    (let s := at' .frame .start { quiet with fifo := [1, 2, 3, 4, 5], cfg := { quiet.cfg with ctrl := 2 } }
     s.runs .frame .start ∧ s.cfg.hpfen = false ∧ s.cfg.w16 = true ∧ s.fifo = 1 :: 2 :: 3 :: 4 :: [5]) :=
  ⟨⟨rfl, by decide, .inr ⟨rfl, by decide⟩, by decide⟩, ⟨rfl, by decide, by decide, rfl⟩, rfl, by decide, by decide, rfl⟩

/-! The filter about to start, filling and running. -/

/-- FRAME wanted with the filter on and SRATE = `fs`. -/
def starting (fs : Word) : State := at' .frame .start { quiet with cfg := { quiet.cfg with ctrl := 1, srate := fs } }

theorem witness_FilterStartsAtFirstUse :
    (∀ fs, (starting fs).wantsFrame .frame .start ∧ (starting fs).cfg.hpfen = true ∧ (starting fs).hpfst = .uninit) ∧
    (starting 19).cfg.srate.toNat / 10 < 2 ∧ (starting 50).params.hmax < (starting 50).cfg.srate.toNat / 10 ∧
    (2 ≤ (starting 20).cfg.srate.toNat / 10 ∧ (starting 49).cfg.srate.toNat / 10 ≤ (starting 49).params.hmax) :=
  ⟨fun _ => ⟨⟨rfl, trivial⟩, by show ({ quiet.cfg with ctrl := 1 } : Cfg).hpfen = true; decide, rfl⟩, by decide⟩

/-- H = 4 latched and `fill` frames stored, the first a 5. -/
def filling (fill : Word) : State := at' .frame .start { quiet with
  cfg := { quiet.cfg with ctrl := 1 }, hpfst := .fill, hlen := 4, hfill := fill, hpf0 := ⟨[(0, 5)], 5, 0⟩,
  hpf1 := ⟨[(0, 5)], 5, 0⟩, fifo := [1, 2, 3, 4, 5, 6, 7, 8] }

/-- H = 4, the filter running. -/
def filtering : State := { filling 3 with hpfst := .run, hpf0 := ⟨[(0, 5)], 5, 3⟩, hpf1 := ⟨[(0, 5)], 5, 3⟩ }

theorem filling_inv (fill : Word) (h : fill = 1 ∨ fill = 2) : (filling fill).ControlInv := by
  rcases h with rfl | rfl <;> exact {
    params := by decide, level := by decide, doneOrErr := by decide, errIdle := by decide, busyDone := by decide
    stallRuns := fun h => (by cases h), word := fun w p h => ⟨.frame, by injection h with h _; subst h; decide, by decide⟩
    init := by decide, uninit := by decide, fill := by decide, run := by decide, length := by decide
    cursors := by decide, accNone := by decide, accOpen := fun h => absurd rfl h, progress := trivial }

theorem filtering_inv : filtering.ControlInv where
  params := by decide
  level := by decide
  doneOrErr := by decide
  errIdle := by decide
  busyDone := by decide
  stallRuns := fun h => by cases h
  word := fun w p h => ⟨.frame, by injection h with h _; subst h; decide, by decide⟩
  init := by decide
  uninit := by decide
  fill := by decide
  run := by decide
  length := by decide
  cursors := by decide
  accNone := by decide
  accOpen := fun h => absurd rfl h
  progress := trivial

theorem filtering_sum : filtering.SumInv where
  sum := by intro c; cases c <;> decide
  tail := by
    intro c i hi
    have : i ≠ 0 := by rintro rfl; revert hi; decide
    cases c <;> simp [filtering, State.hpf, HpfChan.sample, Memory.read, this]
  fill := fun h => absurd rfl h

theorem witness_PreloadStep :
    ∀ fill, fill = 1 ∨ fill = 2 → ∀ s, s = filling fill ∨ s = ended (filling fill) →
      s.wantsFrame .frame .start ∧ s.ControlInv ∧ s.arraysCanonical = true ∧ s.cfg.hpfen = true ∧ s.hpfst = .fill ∧
        s.frameReady := by
  rintro fill h s (rfl | rfl)
  · exact ⟨⟨rfl, trivial⟩, filling_inv fill h, by rcases h with rfl | rfl <;> decide,
      by rcases h with rfl | rfl <;> decide, rfl, .inl (by rcases h with rfl | rfl <;> decide)⟩
  · exact ⟨⟨rfl, trivial⟩, ended_inv (filling_inv fill h), by rcases h with rfl | rfl <;> decide,
      by rcases h with rfl | rfl <;> decide, rfl, .inr ⟨rfl, by rcases h with rfl | rfl <;> decide⟩⟩

theorem witness_RunningFilterStep :
    ∀ s, s = filtering ∨ s = ended filtering →
      s.wantsFrame .frame .start ∧ s.ControlInv ∧ s.arraysCanonical = true ∧ s.cfg.hpfen = true ∧ s.hpfst = .run ∧
        s.frameReady := by
  rintro s (rfl | rfl)
  · exact ⟨⟨rfl, trivial⟩, filtering_inv, by decide, by decide, rfl, .inl (by decide)⟩
  · exact ⟨⟨rfl, trivial⟩, ended_inv filtering_inv, by decide, by decide, rfl, .inr ⟨rfl, by decide⟩⟩

theorem witness_BypassLeavesTheFilter :
    (∃ t, exec .frame quiet = .next t ∧ quiet.cfg.hpfen = false) ∧
      (∃ t, exec .frame filtering = .next t ∧ filtering.hpfst ≠ .uninit) :=
  ⟨⟨_, rfl, by decide⟩, ⟨_, rfl, by decide⟩⟩

theorem witness_FilterClosedForm : (2 ≤ 2 ∧ 2 ≤ 131072 ∧ 2 - 1 + 0 < [0x10000000#32, 0x20000000#32].length) ∧
    (131072 ≤ 131072 ∧ 131072 - 1 + 0 < (List.replicate 131072 (0 : Word)).length) := by
  refine ⟨by decide, by decide, ?_⟩
  rw [List.length_replicate]; decide

theorem witness_ConstantInputGivesZero :
    2 ≤ 2 ∧ 2 ≤ 131072 ∧ 2 - 1 + 1 < [7#32, 5#32, 5#32].length ∧
      ∀ i, 1 ≤ i → i ≤ 2 - 1 + 1 → [7#32, 5#32, 5#32].getD i 0 = 5#32 :=
  ⟨by decide, by decide, by decide, fun i h1 h2 => by interval_cases i <;> rfl⟩

theorem witness_FrameOutputRange :
    filtering.ControlInv ∧ filtering.SumInv ∧ filtering.arraysCanonical = true ∧
      (∃ x0 x1 t, frameIn filtering = .frame x0 x1 t) ∧
      ∃ x0 x1 t, frameIn { quiet with fifo := [0, 0, 0, 0x80, 0, 0, 0, 0] } = .frame x0 x1 t :=
  ⟨filtering_inv, filtering_sum, by decide, ⟨_, _, _, rfl⟩, _, _, _, rfl⟩

/-! The accumulator open at N = 4, the reduced spectrum, and the reducer's values. -/

/-- ACCST = OPEN at N = 4, command `i` at progress `p`. -/
def opened (i : Instr) (p : Progress) : State :=
  at' i p { quiet with accst := .opened, accn := 4, accfs := 40, accnavg := 1, spec0 := [(1, .ofRat (1 / 4))] }

theorem opened_inv (i : Instr) (p : Progress) (hw : decode (encode i) = .ok i) (hi : i ≠ .srst)
    (hp : (opened i p).progressFits) : (opened i p).ControlInv where
  params := by show tiny.legal = true; decide
  level := Nat.zero_le _
  doneOrErr := fun _ => rfl
  errIdle := fun h => absurd rfl h
  busyDone := fun _ => rfl
  stallRuns := fun h => by cases h
  word := fun w q h => ⟨i, by injection h with h _; subst h; exact hw, hi⟩
  init := fun h => by cases h
  uninit := fun _ => ⟨rfl, rfl, rfl, rfl⟩
  fill := fun h => by cases h
  run := fun h => by cases h
  length := fun h => absurd rfl h
  cursors := rfl
  accNone := fun h => by cases h
  accOpen := fun _ => ⟨⟨2, le_rfl, le_rfl, rfl⟩, by show (40#32) ≠ 0; decide, by show (1#32) ≠ 0; decide, by
    show kMin 4 40 ≤ 4 / 2; decide⟩
  progress := hp

theorem opened_spectrum (i : Instr) (p : Progress) : (opened i p).ExactSpectrum := by
  have key : ∀ c k, (opened i p).bin c k = .zero ∨ (opened i p).bin c k = .ofRat (1 / 4) := by
    intro c k
    cases c
    · by_cases h : k = 1
      · right; subst h; rfl
      · left; simp [State.bin, State.spec, opened, at', Memory.read, h]
    · left; rfl
  refine ⟨fun c k => ?_, fun c k => ?_, fun _ c k => ?_⟩ <;> rcases key c k with h | h <;> rw [h]
  · exact trivial
  · exact trivial
  · exact le_rfl
  · rw [SVal.val_ofRat]; norm_num
  · exact ⟨_, rfl⟩
  · exact ⟨_, rfl⟩

theorem opened_sum (i : Instr) (p : Progress) : (opened i p).SumInv where
  sum := by intro c; cases c <;> rfl
  tail := by intro c i _; cases c <;> rfl
  fill := by intro _ c i _; cases c <;> rfl

theorem witness_AccClearLatchesAndClears :
    ∀ l fs navg, (at' .accClear .start { quiet with cfg := { quiet.cfg with log2n := l, srate := fs, navg := navg } }).runs
      .accClear .start ∧ (at' .accClear .finish quiet).runs .accClear .finish := fun _ _ _ => ⟨rfl, rfl⟩

/-- The boundaries of the checks of ACC_CLEAR on `tiny`: each bad case, and one that is not. -/
theorem witness_AccClearChecks :
    (1 < 2) ∧ tiny.log2nMax < 3 ∧ ((2 ^ 2 / 2 : Nat) : Int) < ⌊(20 * 2 ^ 2 : Rat) / 30 + 1 / 2⌋ ∧
    ¬((2 ^ 2 / 2 : Nat) : Int) < ⌊(20 * 2 ^ 2 : Rat) / 39 + 1 / 2⌋ := by
  refine ⟨by decide, by decide, ?_, ?_⟩ <;> decide +kernel

theorem witness_AccPassSteps :
    ((opened .accPass .start).runs .accPass .start ∧ (opened .accPass .start).accst = .opened) ∧
    (let s := ended (opened .accPass (.pass [(0, 0), (0, 0), (0, 0)]))
     s.runs .accPass (.pass [(0, 0), (0, 0), (0, 0)]) ∧ [((0 : Rat), (0 : Rat)), (0, 0), (0, 0)].length < s.accn.toNat ∧
       s.cfg.hpfen = false ∧ s.frameReady) ∧
    (let xs : List (Rat × Rat) := [(0, 0), (0, 0), (0, 0), (0, 0)]
     (opened .accPass (.pass xs)).runs .accPass (.pass xs) ∧ (opened .accPass (.pass xs)).accn.toNat ≤ xs.length ∧
       (opened .accPass (.pass xs)).arraysCanonical = true) :=
  ⟨⟨rfl, rfl⟩, ⟨rfl, by decide, by decide, .inr ⟨rfl, by decide⟩⟩, rfl, by decide, by decide +kernel⟩

theorem witness_AccPassTakesItsFrames :
    let s := { opened .accPass .start with fifo := List.replicate 16 1, cfg := { quiet.cfg with ctrl := 2 } }
    s.runs .accPass .start ∧ s.accst = .opened ∧ s.cfg.hpfen = false ∧ s.accn.toNat * s.frameBytes ≤ s.level :=
  ⟨rfl, rfl, by decide, by decide⟩

theorem witness_AccFinalTakesRoots :
    ((opened .accFinal .start).runs .accFinal .start ∧ (opened .accFinal .start).accst = .opened ∧
      (opened .accFinal .start).arraysCanonical = true) ∧ (at' .accFinal .finish quiet).runs .accFinal .finish :=
  ⟨⟨rfl, rfl, by decide +kernel⟩, rfl⟩

theorem witness_ExactHanningWeight : 2 ≤ 2 ∧ 0 < 2 ^ 2 ∧ 3 < 2 ^ 2 := by decide

theorem witness_ExactTransform :
    let us : List SVal := [.ofRat 1, .zero, .ofRat (1 / 2), .zero]
    2 ≤ 2 ∧ us.length = 2 ^ 2 ∧ (∀ u ∈ us, u.Proper) ∧ 2 ≤ 2 ^ 2 / 2 ∧ 1 ≤ 2 ^ 2 / 2 - 1 :=
  ⟨by decide, rfl, by simp [SVal.ofRat, SVal.zero, SVal.Proper], by decide, by decide⟩

/-- Four frames of V-ACC-1. -/
def frames : List (Rat × Rat) := [(1 / 2, 0), (0, 0), (-1 / 2, 0), (0, 0)]

theorem witness_ExactPassAddsRealPower :
    let s := opened .accPass (.pass frames)
    s.params.arith = .exact false ∧ 2 ≤ 2 ∧ s.accn.toNat = 2 ^ 2 ∧ s.accnavg ≠ 0 ∧ frames.length = 2 ^ 2 ∧
      s.arraysCanonical = true ∧ s.accst = .opened ∧ s.ExactSpectrum ∧ s.runs .accPass (.pass frames) ∧ 2 ≤ 2 ^ 2 / 2 :=
  ⟨rfl, le_rfl, by decide, by decide, rfl, by decide +kernel, rfl, opened_spectrum _ _, rfl, by decide⟩

theorem witness_AveragingCountInvariance :
    let s := { opened .accPass (.pass frames) with spec0 := [], accnavg := 2 }
    s.params.arith = .exact false ∧ 2 ≤ 2 ∧ s.accn.toNat = 2 ^ 2 ∧ s.accnavg ≠ 0 ∧ frames.length = 2 ^ 2 ∧
      s.spec0 = [] ∧ s.spec1 = [] ∧ 2 ≤ 2 ^ 2 / 2 ∧ 1 ≤ s.accnavg.toNat :=
  ⟨rfl, le_rfl, by decide, by decide, rfl, rfl, rfl, by decide, by decide⟩

theorem witness_LeftChannelIgnoresRight :
    let s := { opened .accPass (.pass [(1, 2)]) with fifo := [1, 2, 3, 4, 5, 6, 7, 8] }
    let s' := { s with
      hpf1 := ⟨[], 9, 0⟩, spec1 := [], fifo := [1, 2, 3, 4, 0, 0, 0, 0], seq := .busy (encode .accPass) (.pass [(1, 7)]) }
    let u' := { s with
      hpf0 := ⟨[], 9, 0⟩, spec0 := [], fifo := [0, 0, 0, 0, 5, 6, 7, 8], seq := .busy (encode .accPass) (.pass [(7, 2)]) }
    (s.runs .accPass (.pass [(1, 2)]) ∧ ∃ t, exec .accPass s = .next t) ∧
    ([((1 : Rat), (7 : Rat))].map Prod.fst = [((1 : Rat), (2 : Rat))].map Prod.fst ∧
      s'.fifo.length = s.fifo.length ∧ (∀ j, j < s.cfg.bytesPerChannel → s'.fifo.getD j 0 = s.fifo.getD j 0) ∧
      ∃ t', exec .accPass s' = .next t') ∧
    [((7 : Rat), (2 : Rat))].map Prod.snd = [((1 : Rat), (2 : Rat))].map Prod.snd ∧
      u'.fifo.length = s.fifo.length ∧
      (∀ j, s.cfg.bytesPerChannel ≤ j → j < s.frameBytes → u'.fifo.getD j 0 = s.fifo.getD j 0) ∧
      ∃ t', exec .accPass u' = .next t' := by
  refine ⟨⟨rfl, _, rfl⟩, ⟨rfl, rfl, by decide, _, rfl⟩, rfl, rfl, ?_, _, rfl⟩
  intro j h1 h2
  have h1 : 4 ≤ j := h1
  have h2 : j < 8 := h2
  interval_cases j <;> rfl

theorem witness_BinsFromFrequencies : 1 ≤ 1 ∧ 37500 ≠ 0 := by decide

/-- Amplitudes 0, 1, 1, 0 …: two equal maxima. -/
def twoPeaks (k : Nat) : SVal := .ofRat (if k = 1 ∨ k = 2 then 1 else 0)

/-- Amplitudes 0, 1, 1, 0: the least of the two maxima (44_thdn.md R213). -/
theorem test_search_takes_the_least : searchBin twoPeaks 0 3 = 1 := by decide +kernel

theorem witness_SearchFindsLeastMaximum : 0 ≤ 3 ∧ 0 ≤ 1 ∧ 1 ≤ 3 ∧ 0 < fundamental 0 4 40 twoPeaks 0 3 := by
  decide +kernel

/-- At N = 4, SRATE = 40 the valid range is the bin 2: a caller's bin 10 has no signal bin, the search's bin 2 has one. -/
theorem witness_PowersSplitTheValidRange :
    (∀ k, (twoPeaks k).Proper) ∧
    (∀ k, kMin 4 40 ≤ k → k ≤ 4 / 2 → inSignal (fundamental 100000 4 40 twoPeaks (kMin 4 40) (4 / 2)) 0 k = false) ∧
    kMin 4 40 ≤ 2 ∧ ∀ j, kMin 4 40 ≤ j → j ≤ 4 / 2 →
      (inSignal (fundamental 0 4 40 twoPeaks (kMin 4 40) (4 / 2)) 0 j = true ↔ j = 2) := by
  have h : kMin 4 40 = 2 := by decide
  refine ⟨fun _ => trivial, fun k h1 h2 => ?_, h.le, fun j h1 h2 => ?_⟩
  · obtain rfl : k = 2 := by omega
    decide
  · obtain rfl : j = 2 := by omega
    decide

theorem witness_ExactMetric :
    ((SVal.ofRat 1).Proper ∧ (SVal.ofRat (1 / 4)).Proper ∧ 0 ≤ (SVal.ofRat 1).val ∧ 0 ≤ (SVal.ofRat (1 / 4)).val ∧
      0 < (SVal.ofRat 1).val) ∧
    (SVal.zero.Proper ∧ 0 ≤ SVal.zero.val ∧ SVal.zero.val = 0) := by
  simp only [SVal.val_ofRat]
  exact ⟨⟨trivial, trivial, by norm_num, by norm_num, by norm_num⟩, trivial, le_rfl, rfl⟩

theorem witness_ThdnWritesResults :
    ((at' (.thdn .right) .start reduced).runs (.thdn .right) .start ∧ reduced.accst = .final ∧ Channel.left ≠ .right) ∧
      (at' (.thdn .left) .finish reduced).runs (.thdn .left) .finish :=
  ⟨⟨rfl, rfl, by decide⟩, rfl⟩

/-- A FINAL spectrum whose right channel is silent. -/
def silent : State := at' (.thdn .right) .start { reduced with spec0 := [] }

theorem witness_SilenceReadsHundred :
    silent.params.arith = .exact false ∧ silent.ControlInv ∧ silent.runs (.thdn .right) .start ∧ silent.accst = .final ∧
      silent.tfreq .right = 0 ∧ ∀ k, silent.bin .right k = .zero :=
  ⟨rfl, { params := by decide, level := by decide, doneOrErr := by decide, errIdle := by decide, busyDone := by decide
          stallRuns := fun h => by cases h
          word := fun w p h => ⟨.thdn .right, by injection h with h _; subst h; decide, by decide⟩
          init := by decide, uninit := by decide, fill := by decide, run := by decide, length := by decide
          cursors := by decide, accNone := by decide
          accOpen := fun _ => ⟨⟨2, by decide, by decide, by decide⟩, by decide, by decide, by decide⟩
          progress := trivial },
    rfl, rfl, rfl, fun _ => rfl⟩

theorem witness_MeasureChecksFirst :
    ((at' .measure .start quiet).runs .measure .start ∧
      (∀ fs, (at' .measure .start (starting fs)).runs .measure .start ∧ (starting fs).cfg.hpfen = true ∧
        (starting fs).hpfst = .uninit)) ∧
    (starting 50).params.hmax < (starting 50).cfg.srate.toNat / 10 ∧
    ¬((starting 49).cfg.srate.toNat / 10 < 2 ∨ (starting 49).params.hmax < (starting 49).cfg.srate.toNat / 10) :=
  ⟨⟨rfl, fun _ => ⟨rfl, by show ({ quiet.cfg with ctrl := 1 } : Cfg).hpfen = true; decide, rfl⟩⟩, by decide, by decide⟩

theorem witness_MeasureRunsItsParts :
    ((opened .measure (.measurePass 1 frames)).runs .measure (.measurePass (0 + 1) frames) ∧
      (opened .measure (.measurePass 1 frames)).accn.toNat ≤ frames.length) ∧
    (let s := { opened .measure (.measurePass 1 []) with fifo := [1, 2, 3, 4, 5, 6, 7, 8] }
     s.runs .measure (.measurePass (0 + 1) []) ∧ 0 < s.accn.toNat ∧ s.cfg.hpfen = false ∧ s.frameReady) ∧
    (opened .measure (.measurePass 0 [])).runs .measure (.measurePass 0 []) ∧
    (at' .measure (.measureThdn .left) reduced).runs .measure (.measureThdn .left) ∧
    (at' .measure (.measureThdn .right) reduced).runs .measure (.measureThdn .right) ∧
    (at' .measure .finish reduced).runs .measure .finish :=
  ⟨⟨rfl, by decide⟩, ⟨rfl, by decide, by decide, .inl (by decide)⟩, rfl, rfl, rfl, rfl⟩

/-! The window, and the invariants. -/

theorem witness_ConfigurationWrites :
    (at' .frame .start quiet).busy = true ∧ quiet.busy = false ∧
      0x028 ∈ [0x00C, 0x010, 0x014, 0x018, 0x01C, 0x020, 0x024, 0x028] ∧ 0x00C ≠ 0x028 := by decide

theorem witness_ReadsHaveNoSideEffect :
    quiet.busy = false ∧ (at' .frame .start quiet).busy = true ∧ 0x104 ∈ [0x100, 0x104] ∧
    (0x100000 ≤ 0x2FFFFC ∧ 0x2FFFFC < 0x300000) ∧ 0x040 ∈ [0x000, 0x004, 0x008, 0x00C, 0x010, 0x014, 0x018, 0x01C, 0x020, 0x024, 0x028, 0x02C, 0x030,
      0x034, 0x03C, 0x040] := by decide

/-- Every code STATUS shows in ERR, ACCST and HPFST is some state's. -/
theorem witness_StatusRegister :
    ∀ (e : ErrCode) (a : AccPhase) (h : HpfPhase), ∃ s : State, s.err = e ∧ s.accst = a ∧ s.hpfst = h ∧ s.irq = true :=
  fun e a h => ⟨{ quiet with err := e, accst := a, hpfst := h, done := true, cfg := { quiet.cfg with ctrl := 8 } },
    rfl, rfl, rfl, by simp [State.irq, Cfg.ieDone]⟩

theorem witness_OddAccessesAreRefused :
    let s := { quiet with host := [.read 0x000 2] }
    let u := { quiet with host := [.read 0x003 4] }
    let w := { quiet with host := [.write 0x001 4 0] }
    (s.turn = .host ∧ 2 ≠ 4 ∧ s.host = .read 0x000 2 :: []) ∧ (u.turn = .host ∧ 0x003 % 4 ≠ 0 ∧ u.host = .read 0x003 4 :: []) ∧
      (w.turn = .host ∧ 0x001 % 4 ≠ 0 ∧ w.host = .write 0x001 4 0 :: []) := by decide

theorem witness_ReservedReadsZero :
    (0x078 % 4 = 0 ∧ 0x078 ≤ 0x078 ∧ 0x07C < 0x080) ∧ (0x090 % 4 = 0 ∧ 0x09C < 0x0A0) ∧ (0x0C8 % 4 = 0 ∧ 0x0DC < 0x0E0) ∧
      (0x108 % 4 = 0 ∧ 0x0FFFFC < 0x100000) ∧ (0x300000 % 4 = 0 ∧ 0x3FFFFC < 0x400000) := by decide

theorem witness_WindowsReadTheArrays :
    quiet.busy = false ∧ 8 * 65535 < 0x80000 ∧ ¬65535 ≤ quiet.params.nmax / 2 ∧ 2 ≤ quiet.params.nmax / 2 ∧
      4 * 131071 < 0x80000 ∧ ¬131071 < quiet.params.hmax ∧ 3 < quiet.params.hmax := by decide

theorem witness_IdentificationIsConstant : quiet.params.legal = true ∧ ∃ t, step quiet = .next t := ⟨by decide, _, rfl⟩

/-- The irrational amplitude 3·√2/32 of 95_test_vectors.md 2.5, and its readout there. -/
def amplitude : SVal := .rootQuot [(0, 9 / 512)] [(0, 1)]

theorem test_readout_of_a_root : rnd64 amplitude = 0x3FC0F876CCDF6CD9#64 := by decide +kernel

theorem witness_ReadoutOfARoot :
    (0 ≤ amplitude.val ∧ amplitude.val < 2 ^ 1024 - 2 ^ 970) ∧ (SVal.mul (.ofRat (-1)) amplitude).val < 0 ∧
      amplitude.val = -(SVal.mul (.ofRat (-1)) amplitude).val := by
  have h : amplitude.val = Real.sqrt (9 / 512) := by simp [amplitude, SVal.val]
  have hm : (SVal.mul (.ofRat (-1)) amplitude).val = -amplitude.val := by
    show (SVal.ofRat (-1)).val * amplitude.val = _
    simp
  have hpos : 0 < amplitude.val := by rw [h]; positivity
  have hone : amplitude.val ≤ 1 := by rw [h]; exact Real.sqrt_le_one.mpr (by norm_num)
  have hbig : (1 : ℝ) < 2 ^ 1024 - 2 ^ 970 := by
    have e : (2 : ℝ) ^ 1024 = 2 ^ 54 * 2 ^ 970 := by rw [← pow_add]
    have h1 : (1 : ℝ) ≤ 2 ^ 970 := one_le_pow₀ one_le_two
    rw [e]
    generalize (2 : ℝ) ^ 970 = t at h1
    linarith
  exact ⟨⟨hpos.le, hone.trans_lt hbig⟩, by rw [hm]; linarith, by rw [hm]; ring⟩

theorem witness_ReadoutIsNearestBinary64 :
    ((0 : Rat) ≤ 0 ∧ (0 : Rat) < 2 ^ 1024 - 2 ^ 970) ∧ ((0 : Rat) ≤ 2 ^ 1024 - 2 ^ 971 ∧ (2 : Rat) ^ 1024 - 2 ^ 971 < 2 ^ 1024 - 2 ^ 970) ∧
      (-1 : Rat) < 0 ∧ 0 < 0x7FF0000000000000 := by
  have h1 : (2 : Rat) ^ 970 < 2 ^ 971 := pow_lt_pow_right₀ (by norm_num) (by norm_num)
  have h2 : (2 : Rat) ^ 971 < 2 ^ 1024 := pow_lt_pow_right₀ (by norm_num) (by norm_num)
  exact ⟨⟨le_rfl, sub_pos.mpr (h1.trans h2)⟩, ⟨sub_nonneg.mpr h2.le, sub_lt_sub_left h1 _⟩, by norm_num, by norm_num⟩

theorem witness_StepKeepsControlInvariant :
    filtering.ControlInv ∧ (∃ t, step filtering = .next t) ∧
    (opened .accPass (.pass frames)).ControlInv ∧ ∃ t, step (opened .accPass (.pass frames)) = .next t :=
  ⟨filtering_inv, ⟨_, rfl⟩, opened_inv _ _ (by decide) (by decide) ⟨rfl, by decide⟩, _, rfl⟩

theorem witness_StepKeepsArraysCanonical : filtering.arraysCanonical = true ∧ ∃ t, step filtering = .next t :=
  ⟨by decide, _, rfl⟩

theorem witness_StepKeepsSumInvariant :
    filtering.ControlInv ∧ filtering.arraysCanonical = true ∧ filtering.SumInv ∧ ∃ t, step filtering = .next t :=
  ⟨filtering_inv, by decide, filtering_sum, _, rfl⟩

theorem witness_StepKeepsSpectrumNonNegative :
    let s := opened .accPass (.pass frames)
    s.params.arith = .exact false ∧ s.ControlInv ∧ s.arraysCanonical = true ∧ s.ExactSpectrum ∧ ∃ t, step s = .next t :=
  ⟨rfl, opened_inv _ _ (by decide) (by decide) ⟨rfl, by decide⟩, by decide +kernel, opened_spectrum _ _, _, rfl⟩

end Sys2Proof.Tests
end

section
/-! The readout is the nearest binary64 (00_scope.md R16, 20_memory.md R80).  The values of the patterns rise strictly,
by the unit of the last place; the bit-by-bit search therefore ends at the greatest finite pattern not above x, and of
that pattern and its successor the midpoint test chooses the nearer. -/

namespace Sys2Proof

/-! ## The values of the patterns -/

/-- The significand of a pattern, with its leading bit where it is normal. -/
def binary64Significand (n : Nat) : Nat := if n / 2 ^ 52 = 0 then n % 2 ^ 52 else 2 ^ 52 + n % 2 ^ 52

/-- The exponent of a pattern's last place, 1075 above the true one. -/
def binary64Exponent (n : Nat) : Nat := if n / 2 ^ 52 = 0 then 1 else n / 2 ^ 52

theorem binary64Value_eq (n : Nat) :
    binary64Value n = binary64Significand n * 2 ^ binary64Exponent n / 2 ^ 1075 := by
  change (if 1075 ≤ binary64Exponent n
    then ((binary64Significand n * 2 ^ (binary64Exponent n - 1075) : Nat) : Rat)
    else (binary64Significand n : Rat) / ((2 ^ (1075 - binary64Exponent n) : Nat) : Rat)) = _
  generalize binary64Exponent n = s
  split_ifs with h
  · have hpow : (2 : Rat) ^ s = 2 ^ (s - 1075) * 2 ^ 1075 := by rw [← pow_add, Nat.sub_add_cancel h]
    rw [hpow, ← mul_assoc, mul_div_cancel_right₀ _ (by positivity)]
    push_cast
    rfl
  · obtain ⟨k, hk⟩ := Nat.exists_eq_add_of_le (Nat.le_of_not_le h)
    rw [hk, Nat.add_sub_cancel_left, pow_add, mul_comm (2 ^ s : Rat), mul_div_mul_right _ _ (by positivity)]
    push_cast
    rfl

theorem binary64Significand_succ (n : Nat) :
    binary64Significand (n + 1) * 2 ^ binary64Exponent (n + 1) = (binary64Significand n + 1) * 2 ^ binary64Exponent n := by
  unfold binary64Significand binary64Exponent
  by_cases hm : n % 2 ^ 52 + 1 < 2 ^ 52
  case pos =>
    have hdiv : (n + 1) / 2 ^ 52 = n / 2 ^ 52 := by omega
    have hmod : (n + 1) % 2 ^ 52 = n % 2 ^ 52 + 1 := by omega
    rw [hdiv, hmod]
    split_ifs <;> ring
  case neg =>
    have hdiv : (n + 1) / 2 ^ 52 = n / 2 ^ 52 + 1 := by omega
    have hmod : (n + 1) % 2 ^ 52 = 0 := by omega
    have hlast : n % 2 ^ 52 = 2 ^ 52 - 1 := by omega
    rw [hdiv, hmod, hlast, if_neg (Nat.succ_ne_zero _), if_neg (Nat.succ_ne_zero _)]
    split_ifs with he
    · rw [he, Nat.add_zero]
      rfl
    · rw [pow_succ]
      ring

/-- Neighbouring patterns are one unit of the last place apart. -/
theorem binary64Value_succ (n : Nat) :
    binary64Value (n + 1) = binary64Value n + 2 ^ binary64Exponent n / 2 ^ 1075 := by
  have h : ((binary64Significand (n + 1) : Rat) * 2 ^ binary64Exponent (n + 1)) =
      (binary64Significand n + 1) * 2 ^ binary64Exponent n := by
    exact_mod_cast binary64Significand_succ n
  rw [binary64Value_eq, binary64Value_eq, h, add_one_mul, add_div]

theorem binary64Value_strictMono : StrictMono binary64Value :=
  strictMono_nat_of_lt_succ fun n => by
    rw [binary64Value_succ]
    exact lt_add_of_pos_right _ (by positivity)

/-- The value of a pattern as a real number. -/
noncomputable def binary64Real (n : Nat) : ℝ := (binary64Value n : ℝ)

theorem binary64Real_strictMono : StrictMono binary64Real :=
  Rat.cast_strictMono.comp binary64Value_strictMono

@[simp] theorem binary64Real_zero : binary64Real 0 = 0 := by
  simp [binary64Real, binary64Value_eq, binary64Significand]

/-- The first pattern that is not finite would stand for 2^1024. -/
theorem binary64Real_infinity : binary64Real 0x7FF0000000000000 = 2 ^ 1024 := by
  have hsig : binary64Significand 0x7FF0000000000000 = 2 ^ 52 := rfl
  have hexp : binary64Exponent 0x7FF0000000000000 = 972 + 1075 := rfl
  have hv : binary64Value 0x7FF0000000000000 = 2 ^ 1024 := by
    rw [binary64Value_eq, hsig, hexp, pow_add, ← mul_assoc, mul_div_cancel_right₀ _ (by positivity), Nat.cast_pow,
      Nat.cast_ofNat, ← pow_add]
  rw [binary64Real, hv, Rat.cast_pow, Rat.cast_ofNat]

/-- The last finite pattern is 2^971 below it. -/
theorem binary64Real_last_add : binary64Real 0x7FEFFFFFFFFFFFFF + 2 ^ 971 = 2 ^ 1024 := by
  have hunit : (2 : Rat) ^ binary64Exponent 0x7FEFFFFFFFFFFFFF / 2 ^ 1075 = 2 ^ 971 := by
    rw [show binary64Exponent 0x7FEFFFFFFFFFFFFF = 971 + 1075 from rfl, pow_add]
    exact mul_div_cancel_right₀ _ (by positivity)
  have hsucc := congrArg (Rat.cast : Rat → ℝ) (binary64Value_succ 0x7FEFFFFFFFFFFFFF)
  rw [hunit, Rat.cast_add, Rat.cast_pow, Rat.cast_ofNat] at hsucc
  exact hsucc.symm.trans binary64Real_infinity

/-! ## Nearest, ties to even -/

/-- `b` is an index whose value under `f` is nearest to `x`, an even one if another index is as near. -/
def NearestEven (f : Nat → ℝ) (x : ℝ) (b : Nat) : Prop :=
  ∀ c, |f b - x| ≤ |f c - x| ∧ (c ≠ b → |f b - x| = |f c - x| → b % 2 = 0)

section
variable {f : Nat → ℝ} {x : ℝ} {a : Nat}

/-- The index below `x` is the nearest up to the midpoint. -/
theorem nearestEven_lower (hf : StrictMono f) (hlo : f a ≤ x) (hmid : x ≤ (f a + f (a + 1)) / 2)
    (heven : x = (f a + f (a + 1)) / 2 → a % 2 = 0) : NearestEven f x a := by
  intro c
  rw [abs_of_nonpos (sub_nonpos.mpr hlo)]
  rcases lt_trichotomy c a with hc | rfl | hc
  · have hca := hf hc
    rw [abs_of_nonpos (by linarith)]
    exact ⟨by linarith, fun _ h => by linarith⟩
  · rw [abs_of_nonpos (sub_nonpos.mpr hlo)]
    exact ⟨le_rfl, fun h => absurd rfl h⟩
  · have hac : f (a + 1) ≤ f c := hf.monotone hc
    rw [abs_of_nonneg (by linarith)]
    exact ⟨by linarith, fun _ h => heven (by linarith)⟩

/-- The index above `x` is the nearest from the midpoint on. -/
theorem nearestEven_upper (hf : StrictMono f) (hhi : x ≤ f (a + 1)) (hmid : (f a + f (a + 1)) / 2 ≤ x)
    (heven : x = (f a + f (a + 1)) / 2 → (a + 1) % 2 = 0) : NearestEven f x (a + 1) := by
  intro c
  rw [abs_of_nonneg (sub_nonneg.mpr hhi)]
  rcases lt_trichotomy c (a + 1) with hc | rfl | hc
  · have hca : f c ≤ f a := hf.monotone (Nat.lt_succ_iff.mp hc)
    rw [abs_of_nonpos (by linarith)]
    exact ⟨by linarith, fun _ h => heven (by linarith)⟩
  · rw [abs_of_nonneg (sub_nonneg.mpr hhi)]
    exact ⟨le_rfl, fun h => absurd rfl h⟩
  · have hac := hf hc
    rw [abs_of_nonneg (by linarith)]
    exact ⟨by linarith, fun _ h => by linarith⟩

end

/-! ## The search and the choice -/

/-- The finite patterns whose value is at most `x`. -/
def binary64AtMost (x : ℝ) : Set Nat := {c | c < 0x7FF0000000000000 ∧ binary64Real c ≤ x}

theorem binary64AtMost_of_le {x : ℝ} {c d : Nat} (h : c ≤ d) (hd : d ∈ binary64AtMost x) : c ∈ binary64AtMost x :=
  ⟨h.trans_lt hd.1, (binary64Real_strictMono.monotone h).trans hd.2⟩

theorem binary64Below_step (x : SVal) (b acc : Nat) [Decidable (acc + 2 ^ b ∈ binary64AtMost x.val)] :
    binary64Below x (b + 1) acc =
      if acc + 2 ^ b ∈ binary64AtMost x.val then binary64Below x b (acc + 2 ^ b) else binary64Below x b acc := by
  rw [binary64Below]
  refine if_congr (and_congr_right fun _ => ?_) rfl rfl
  rw [SVal.compare_eq, SVal.val_ofRat, ne_eq, cmp_eq_lt_iff, not_lt]
  rfl

/-- A search from bit `b` down finds the greatest finite pattern at most `x`, if that lies in the `2^b` patterns from
`acc` on. -/
theorem binary64Below_isGreatest (x : SVal) : ∀ b acc : Nat, acc ∈ binary64AtMost x.val →
    (∀ c ∈ binary64AtMost x.val, c < acc + 2 ^ b) → IsGreatest (binary64AtMost x.val) (binary64Below x b acc) := by
  classical
  intro b
  induction b with
  | zero => exact fun acc hacc htop => ⟨hacc, fun c hc => Nat.lt_succ_iff.mp (htop c hc)⟩
  | succ b ih =>
    intro acc hacc htop
    rw [binary64Below_step]
    split_ifs with h
    · exact ih _ h fun c hc => by have := htop c hc; rw [pow_succ] at this; omega
    · exact ih _ hacc fun c hc => not_le.mp fun hle => h (binary64AtMost_of_le hle hc)

theorem binary64Below_isGreatest_of_nonneg {x : SVal} (h : 0 ≤ x.val) :
    IsGreatest (binary64AtMost x.val) (binary64Below x 63 0) :=
  binary64Below_isGreatest x 63 0 ⟨by decide, by rwa [binary64Real_zero]⟩ fun c hc => by have := hc.1; omega

theorem lt_binary64Real_succ {x : SVal} (h : 0 ≤ x.val) (hx : x.val < 2 ^ 1024) :
    x.val < binary64Real (binary64Below x 63 0 + 1) := by
  obtain ⟨⟨hfin, -⟩, htop⟩ := binary64Below_isGreatest_of_nonneg h
  by_contra! hle
  by_cases hlast : binary64Below x 63 0 + 1 = 0x7FF0000000000000
  · rw [hlast, binary64Real_infinity] at hle
    exact hle.not_gt hx
  · have := htop (show _ ∈ binary64AtMost x.val from ⟨by omega, hle⟩)
    omega

/-- The midpoint between a pattern and its successor. -/
noncomputable def binary64Midpoint (c : Nat) : ℝ := (binary64Real c + binary64Real (c + 1)) / 2

theorem binary64Midpoint_last : binary64Midpoint 0x7FEFFFFFFFFFFFFF = 2 ^ 1024 - 2 ^ 970 := by
  have hlast := binary64Real_last_add
  rw [pow_succ (2 : ℝ) 970] at hlast
  rw [binary64Midpoint, binary64Real_infinity]
  generalize (2 : ℝ) ^ 1024 = t at hlast ⊢
  generalize (2 : ℝ) ^ 970 = u at hlast ⊢
  linarith

/-- Between the greatest pattern not above `x` and its successor, the midpoint decides. -/
theorem binary64Nearest_cases (x : SVal) :
    let c := binary64Below x 63 0
    (x.val < binary64Midpoint c ∧ binary64Nearest x = c) ∨
    (binary64Midpoint c < x.val ∧ binary64Nearest x = c + 1) ∨
    (x.val = binary64Midpoint c ∧ binary64Nearest x = if c % 2 = 0 then c else c + 1) := by
  intro c
  have hcmp : x.compare (.ofRat ((binary64Value c + binary64Value (c + 1)) / 2)) = cmp x.val (binary64Midpoint c) := by
    rw [SVal.compare_eq, SVal.val_ofRat]
    push_cast
    rfl
  cases h : cmp x.val (binary64Midpoint c) with
  | lt => exact .inl ⟨(cmp_eq_lt_iff _ _).mp h, by rw [binary64Nearest, hcmp, h]⟩
  | eq => exact .inr (.inr ⟨(cmp_eq_eq_iff _ _).mp h, by rw [binary64Nearest, hcmp, h]⟩)
  | gt => exact .inr (.inl ⟨(cmp_eq_gt_iff _ _).mp h, by rw [binary64Nearest, hcmp, h]⟩)

theorem binary64Nearest_le_succ (x : SVal) : binary64Nearest x ≤ binary64Below x 63 0 + 1 := by
  rcases binary64Nearest_cases x with ⟨-, hb⟩ | ⟨-, hb⟩ | ⟨-, hb⟩
  · exact hb.trans_le (Nat.le_succ _)
  · exact hb.le
  · rw [hb]
    split_ifs <;> omega

theorem binary64Nearest_le {x : SVal} (h : 0 ≤ x.val) : binary64Nearest x ≤ 0x7FF0000000000000 :=
  (binary64Nearest_le_succ x).trans (binary64Below_isGreatest_of_nonneg h).1.1

/-- Below the midpoint between the last finite pattern and 2^1024 the choice is a finite pattern. -/
theorem binary64Nearest_finite {x : SVal} (h : 0 ≤ x.val) (hx : x.val < 2 ^ 1024 - 2 ^ 970) :
    binary64Nearest x < 0x7FF0000000000000 := by
  obtain ⟨⟨hfin, -⟩, -⟩ := binary64Below_isGreatest_of_nonneg h
  rcases Nat.lt_or_ge (binary64Below x 63 0) 0x7FEFFFFFFFFFFFFF with hc | hc
  · have := binary64Nearest_le_succ x
    omega
  · have hlast : binary64Below x 63 0 = 0x7FEFFFFFFFFFFFFF := by omega
    have hmid : x.val < binary64Midpoint (binary64Below x 63 0) := by
      rw [hlast, binary64Midpoint_last]
      exact hx
    rcases binary64Nearest_cases x with ⟨-, hb⟩ | ⟨hb, -⟩ | ⟨hb, -⟩
    · rwa [hb]
    · exact absurd hb hmid.not_gt
    · exact absurd hb hmid.ne

theorem binary64Nearest_nearestEven {x : SVal} (h : 0 ≤ x.val) (hx : x.val < 2 ^ 1024) :
    NearestEven binary64Real x.val (binary64Nearest x) := by
  have hlo := (binary64Below_isGreatest_of_nonneg h).1.2
  have hhi := (lt_binary64Real_succ h hx).le
  rcases binary64Nearest_cases x with ⟨hm, hb⟩ | ⟨hm, hb⟩ | ⟨hm, hb⟩
  · rw [hb]
    exact nearestEven_lower binary64Real_strictMono hlo hm.le fun he => absurd he hm.ne
  · rw [hb]
    exact nearestEven_upper binary64Real_strictMono hhi hm.le fun he => absurd he hm.ne'
  · rw [hb]
    split_ifs with he
    · exact nearestEven_lower binary64Real_strictMono hlo hm.le fun _ => he
    · exact nearestEven_upper binary64Real_strictMono hhi hm.ge fun _ => by omega

/-! ## The readout -/

theorem binary64Below_congr {x y : SVal} (h : x.val = y.val) (b acc : Nat) :
    binary64Below x b acc = binary64Below y b acc := by
  induction b generalizing acc with
  | zero => rfl
  | succ b ih => simp only [binary64Below, SVal.compare_eq, h, ih]

/-- The choice depends on the real number alone, not on the expression that names it. -/
theorem binary64Nearest_congr {x y : SVal} (h : x.val = y.val) : binary64Nearest x = binary64Nearest y := by
  rw [binary64Nearest, binary64Nearest, binary64Below_congr h]
  simp only [SVal.compare_eq, h]

theorem rnd64_of_zero {x : SVal} (h : x.val = 0) : rnd64 x = 0 := by
  rw [rnd64, SVal.compare_eq, SVal.val_zero, h, cmp_self_eq_eq]

theorem rnd64_of_pos {x : SVal} (h : 0 < x.val) : (rnd64 x).toNat = binary64Nearest x := by
  have hle := binary64Nearest_le h.le
  rw [rnd64, SVal.compare_eq, SVal.val_zero, (cmp_eq_gt_iff _ _).mpr h]
  exact Nat.mod_eq_of_lt (by omega)

theorem rnd64_of_neg {x y : SVal} (h : x.val < 0) (hy : y.val = -x.val) :
    (rnd64 x).toNat = 2 ^ 63 + binary64Nearest y := by
  have hle := binary64Nearest_le (x := y) (by linarith)
  have hval : ((SVal.ofRat (-1)).times x).val = y.val := by
    rw [SVal.val_times (x := .ofRat (-1)) trivial, SVal.val_ofRat, hy]
    push_cast
    ring
  rw [rnd64, SVal.compare_eq, SVal.val_zero, (cmp_eq_lt_iff _ _).mpr h, binary64Nearest_congr hval]
  exact Nat.mod_eq_of_lt (by omega)

theorem rnd64_neg {x y : SVal} (h : x.val < 0) (hy : y.val = -x.val) :
    (rnd64 x).toNat = 2 ^ 63 + (rnd64 y).toNat := by
  rw [rnd64_of_neg h hy, rnd64_of_pos (x := y) (by linarith)]

theorem nearestEven_zero : NearestEven binary64Real 0 0 := by
  have h1 : binary64Real 0 < binary64Real 1 := binary64Real_strictMono Nat.zero_lt_one
  refine nearestEven_lower binary64Real_strictMono binary64Real_zero.le ?_ fun _ => rfl
  rw [binary64Real_zero] at h1 ⊢
  linarith

/-- The readout of a value of the finite range is a finite pattern, the nearest one, ties to even. -/
theorem rnd64_nearestEven {x : SVal} (h : 0 ≤ x.val) (hx : x.val < 2 ^ 1024 - 2 ^ 970) :
    (rnd64 x).toNat < 0x7FF0000000000000 ∧ NearestEven binary64Real x.val (rnd64 x).toNat := by
  rcases h.eq_or_lt with h0 | hpos
  · rw [rnd64_of_zero h0.symm, ← h0]
    exact ⟨by decide, nearestEven_zero⟩
  · rw [rnd64_of_pos hpos]
    exact ⟨binary64Nearest_finite h hx, binary64Nearest_nearestEven h (hx.trans (sub_lt_self _ (by positivity)))⟩

end Sys2Proof

open Sys2Proof

/-- Settles O55: the search ends at the greatest finite pattern not above x, and the midpoint test then chooses between
it and its successor; a negative x differs from its opposite by the sign bit alone. -/
theorem readoutIsNearestBinary64 : Obligations.ReadoutIsNearestBinary64 := by
  unfold Obligations.ReadoutIsNearestBinary64
  refine ⟨fun x h hx => ?_, fun x y => rnd64_neg, fun q h hq => ?_, fun q hq => ?_⟩
  · obtain ⟨hfin, hnear⟩ := rnd64_nearestEven h hx
    exact ⟨hfin, fun c _ => hnear c⟩
  · have hval := SVal.val_ofRat q
    have hq' : (SVal.ofRat q).val < 2 ^ 1024 - 2 ^ 970 := by
      rw [hval]
      exact_mod_cast hq
    obtain ⟨hfin, hnear⟩ := rnd64_nearestEven (x := .ofRat q) (by rw [hval]; exact_mod_cast h) hq'
    refine ⟨hfin, fun c _ => ?_⟩
    have hc := hnear c
    rw [hval] at hc
    unfold binary64Real at hc
    exact_mod_cast hc
  · exact rnd64_neg (x := .ofRat q) (y := .ofRat (-q)) (by simpa using hq) (by simp)

end

section
/-! The running word: a word that decodes is the encoding of its command (30_encoding.md R106), so that the word the
sequencer writes back is the one dispatched. -/

namespace Sys2Proof

/-- A word from its fields OPC and OPD (30_encoding.md R100). -/
theorem opcOf_append_opdOf (w : Word) : opcOf w ++ opdOf w = w := by
  exact (BitVec.extractLsb'_append_extractLsb'_eq_extractLsb' rfl).trans BitVec.extractLsb'_eq_self

theorem eq_append_of_fields {w : Word} {o : Nat} {d : BitVec 24} (ho : (opcOf w).toNat = o) (hd : opdOf w = d) :
    w = BitVec.ofNat 8 o ++ d := by
  rw [← ho, ← hd, BitVec.ofNat_toNat, BitVec.setWidth_eq]
  exact (opcOf_append_opdOf w).symm

theorem decodeZ_ok {w : Word} {i j : Instr} (h : decodeZ w i = .ok j) : j = i ∧ opdOf w = 0 := by
  unfold decodeZ at h
  split_ifs at h with hd
  exact ⟨(Except.ok.inj h).symm, hd⟩

theorem decodeC_ok {w : Word} {i : Channel → Instr} {j : Instr} (h : decodeC w i = .ok j) :
    (j = i .left ∧ opdOf w = 0) ∨ (j = i .right ∧ opdOf w = 1) := by
  unfold decodeC at h
  split_ifs at h with hz hb
  all_goals
    have hlow : w.toNat / 2 % 2 ^ 23 = 0 := by simpa [Nat.shiftRight_eq_div_pow] using congrArg BitVec.toNat hz
    have hopd : (opdOf w).toNat = w.toNat % 2 ^ 24 := by simp [opdOf]
    simp only [BitVec.getLsbD, Nat.testBit_zero, decide_eq_true_eq] at hb
  · exact .inr ⟨(Except.ok.inj h).symm, BitVec.eq_of_toNat_eq (hopd.trans (show _ = 1 by omega))⟩
  · exact .inl ⟨(Except.ok.inj h).symm, BitVec.eq_of_toNat_eq (hopd.trans (show _ = 0 by omega))⟩

theorem encode_discard (d : BitVec 24) : encode (.discard d.toNat) = 2#8 ++ d := by
  rw [encode, BitVec.ofNat_toNat, BitVec.setWidth_eq, BitVec.append_def]
  rfl

theorem encode_of_decode {w : Word} {i : Instr} (h : decode w = .ok i) : encode i = w := by
  unfold decode at h
  split at h
  case h_3 ho =>
    obtain rfl := Except.ok.inj h
    rw [encode_discard, ← eq_append_of_fields ho rfl]
  case h_8 ho =>
    rcases decodeC_ok h with ⟨rfl, hd⟩ | ⟨rfl, hd⟩ <;> rw [eq_append_of_fields ho hd] <;> rfl
  case h_10 => cases h
  all_goals
    rename_i ho
    obtain ⟨rfl, hd⟩ := decodeZ_ok h
    rw [eq_append_of_fields ho hd]
    rfl

end Sys2Proof
end

section
/-! What one step can do, said once for all the invariants: the effects of the input's operations (41_input.md,
42_hpf.md), those of a command's step, how a command's step moves SEQ, and what a host write comes to. -/

namespace Sys2Proof.Machine

/-! ## The input -/

/-- What `InByte()` or `FrameIn()` can do to the state in one step (41_input.md R140, 42_hpf.md R166). -/
inductive InputEffect (s : State) : State → Prop where
  | reads (rest : List Byte) (stall : Bool) (h : rest.length ≤ s.level) :
    InputEffect s { s with fifo := rest, stall := stall }
  | starts (hp : s.hpfst = .uninit) (hl : s.hpfLengthBad = false) : InputEffect s s.hpfStart
  | preloads (rest : List Byte) (vL vR : Word) (h : rest.length ≤ s.level) (hp : s.hpfst = .fill) :
    InputEffect s ({ s with fifo := rest, stall := false }.hpfPreload vL vR)
  | filters (rest : List Byte) (vL vR : Word) (h : rest.length ≤ s.level) (hp : s.hpfst = .run) :
    InputEffect s { s with
      fifo := rest, stall := false
      hpf0 := (s.hpf0.step s.hlen.toNat vL).1, hpf1 := (s.hpf1.step s.hlen.toNat vR).1 }

theorem InputEffect.unchanged (s : State) : InputEffect s s := .reads s.fifo s.stall le_rfl

/-- The state a step of `InByte()` leaves. -/
def ByteTaken.state : ByteTaken → State
  | .waiting t | .missing t | .byte _ t => t

/-- The state a step of `FrameIn()` leaves. -/
def FrameStep.state : FrameStep → State
  | .waiting t | .preparing t | .failed _ t | .frame _ _ t => t

theorem inByte_effect (s : State) : InputEffect s (inByte s).state := by
  rcases hf : s.fifo with _ | ⟨b, rest⟩
  · have keeps (b : Bool) : InputEffect s { s with stall := b } := .reads s.fifo b le_rfl
    rcases he : s.eos
    · rw [inByte_waiting hf he]
      exact keeps true
    · rcases ht : s.cfg.tol
      · rw [inByte_missing hf he ht]
        exact keeps false
      · rw [inByte_sentinel hf he ht]
        exact keeps false
  · rw [inByte_cons hf]
    exact .reads rest false (by rw [State.level, hf]; exact Nat.le_succ _)

theorem readFrame_rest {s t : State} {vL vR : Word} (h : readFrame s = .frame vL vR t) :
    ∃ rest, rest.length ≤ s.level ∧ t = { s with fifo := rest, stall := false } := by
  obtain ⟨n, rfl⟩ := readFrame_frame h
  exact ⟨_, (List.drop_sublist n s.fifo).length_le, rfl⟩

theorem frameIn_effect (s : State) : InputEffect s (frameIn s).state := by
  cases h : frameIn s with
  | waiting t =>
    obtain ⟨rfl, -⟩ := frameIn_waits h
    exact .reads s.fifo true le_rfl
  | preparing t =>
    obtain ⟨-, ⟨hp, hl, rfl⟩ | ⟨hp, vL, vR, u, hr, rfl⟩⟩ := frameIn_prepares h
    · exact .starts hp hl
    · obtain ⟨rest, hrest, rfl⟩ := readFrame_rest hr
      exact .preloads rest vL vR hrest hp
  | failed e t =>
    obtain ⟨-, rfl, -⟩ | ⟨-, rfl, -⟩ := frameIn_fails h
    · exact .unchanged _
    · exact .reads [] false (Nat.zero_le _)
  | frame x0 x1 t =>
    obtain ⟨vL, vR, u, hr, hu⟩ := frameIn_frame h
    obtain ⟨rest, hrest, rfl⟩ := readFrame_rest hr
    obtain ⟨-, -, -, rfl⟩ | ⟨-, hp, -, -, rfl⟩ := hu
    · exact .reads rest false hrest
    · exact .filters rest vL vR hrest hp

/-! ## The commands -/

/-- What a command's step can do to the state, its move of SEQ left aside. -/
inductive CommandEffect (s : State) : State → Prop where
  | input {u : State} (h : InputEffect s u) : CommandEffect s u
  | outputs (y0 y1 : Rat) : CommandEffect s { s with y0 := y0, y1 := y1, yvalid := true }
  | clears (h : s.accConfigBad = false) : CommandEffect s s.accClear
  | accumulates (xs : List (Rat × Rat)) (h : s.progressFits → s.accst = .opened) : CommandEffect s (s.accPass xs)
  | finalizes (h : s.progressFits → s.accst = .opened) : CommandEffect s s.accFinal
  | reduces (ch : Channel) : CommandEffect s (s.thdn ch)

theorem CommandEffect.unchanged (s : State) : CommandEffect s s := .input (.unchanged s)

/-- How a step of command `i` moves SEQ, from the state `u` that its effect leaves (40_control.md R124, 60_exceptions.md
R236): a command that goes on does so at a progress that fits, if its old one did. -/
inductive SeqMove (i : Instr) (s u : State) : State → Prop where
  | completes : SeqMove i s u u.complete
  | raises (e : ErrCode) : SeqMove i s u (u.raise e (encode i))
  | goesOn (p : Progress) (h : s.progressFits → (u.goOn i p).progressFits) : SeqMove i s u (u.goOn i p)

/-- `t` is the end of a step of command `i` from `s`. -/
def CommandStep (i : Instr) (s t : State) : Prop := ∃ u, CommandEffect s u ∧ SeqMove i s u t

theorem CommandEffect.completes {i : Instr} {s u : State} (h : CommandEffect s u) : CommandStep i s u.complete :=
  ⟨u, h, .completes⟩

theorem CommandEffect.raises {i : Instr} {s u : State} (h : CommandEffect s u) (e : ErrCode) :
    CommandStep i s (u.raise e (encode i)) :=
  ⟨u, h, .raises e⟩

theorem CommandEffect.goesOn {i : Instr} {s u : State} (h : CommandEffect s u) (p : Progress)
    (hp : s.progressFits → (u.goOn i p).progressFits) : CommandStep i s (u.goOn i p) :=
  ⟨u, h, .goesOn p hp⟩

/-- A command runs at any progress but the start. -/
theorem seq_of_progress {s : State} {p : Progress} (h : s.progress = p) (hp : p ≠ .start) :
    ∃ w, s.seq = .busy w p := by
  subst h
  unfold State.progress at hp ⊢
  split at hp
  · exact ⟨_, ‹_›⟩
  · exact absurd rfl hp
  · exact absurd rfl hp

/-- A pass in the making: the accumulator is OPEN and the pass lacks no more than ACCN frames. -/
def State.gathers (s : State) (xs : List (Rat × Rat)) : Prop := s.accst = .opened ∧ xs.length ≤ s.accn.toNat

theorem gathers_of_pass {s : State} {xs : List (Rat × Rat)} (h : s.progress = .pass xs) (hf : s.progressFits) :
    s.gathers xs := by
  obtain ⟨w, hs⟩ := seq_of_progress h (by simp)
  rwa [State.progressFits, hs] at hf

theorem gathers_of_measurePass {s : State} {n : Nat} {xs : List (Rat × Rat)} (h : s.progress = .measurePass n xs)
    (hf : s.progressFits) : s.gathers xs := by
  obtain ⟨w, hs⟩ := seq_of_progress h (by simp)
  rwa [State.progressFits, hs] at hf

theorem final_of_measureThdn {s : State} {ch : Channel} (h : s.progress = .measureThdn ch) (hf : s.progressFits) :
    s.accst = .final := by
  obtain ⟨w, hs⟩ := seq_of_progress h (by simp)
  rwa [State.progressFits, hs] at hf

/-- The input's operations leave the accumulator alone, so a pass in the making stays one. -/
theorem InputEffect.gathers {s u : State} {xs : List (Rat × Rat)} (h : InputEffect s u) (hg : s.gathers xs) :
    u.gathers xs := by
  cases h with
  | preloads rest vL vR => simpa [State.gathers] using hg
  | _ => exact hg

theorem gathers_append {s : State} {xs : List (Rat × Rat)} (x : Rat × Rat) (h : s.gathers xs)
    (hl : xs.length < s.accn.toNat) : s.gathers (xs ++ [x]) :=
  ⟨h.1, by simpa using hl⟩

theorem execDiscard_step {n : Nat} {s t : State} (h : execDiscard n s = .next t) : CommandStep (.discard n) s t := by
  have key (left : Nat) : CommandStep (.discard n) s (discardStep n left s) := by
    have hin := CommandEffect.input (inByte_effect s)
    unfold discardStep
    cases left with
    | zero => exact (CommandEffect.unchanged s).completes
    | succ k =>
      cases hb : inByte s <;> rw [hb] at hin
      · exact hin.goesOn _ fun _ => trivial
      · exact hin.raises _
      · exact hin.goesOn _ fun _ => trivial
  unfold execDiscard at h
  split at h <;> exact Host.Outcome.next.inj h ▸ key _

theorem execFrame_step {s t : State} (h : execFrame s = .next t) : CommandStep .frame s t := by
  unfold execFrame at h
  split at h
  · exact Host.Outcome.next.inj h ▸ (CommandEffect.outputs _ _).completes
  · have hin := CommandEffect.input (frameIn_effect s)
    cases hf : frameIn s <;> rw [hf] at h hin <;> cases h
    · exact hin.goesOn _ fun _ => trivial
    · exact hin.goesOn _ fun _ => trivial
    · exact hin.raises _
    · exact hin.goesOn _ fun _ => trivial

theorem execAccClear_step {s t : State} (h : execAccClear s = .next t) : CommandStep .accClear s t := by
  unfold execAccClear at h
  split at h
  · cases h
    exact (CommandEffect.unchanged s).completes
  · split_ifs at h with hbad <;> cases h
    · exact (CommandEffect.unchanged s).raises _
    · exact (CommandEffect.clears (Bool.eq_false_iff.mpr hbad)).goesOn _ fun _ => trivial

theorem execAccPass_step {s t : State} (h : execAccPass s = .next t) : CommandStep .accPass s t := by
  unfold execAccPass at h
  split at h
  · rename_i xs hxs
    have hg := gathers_of_pass hxs
    have hin := frameIn_effect s
    split_ifs at h with hlen
    · cases hf : frameIn s <;> rw [hf] at h hin <;> cases h
      · exact (CommandEffect.input hin).goesOn _ fun hp => hin.gathers (hg hp)
      · exact (CommandEffect.input hin).goesOn _ fun hp => hin.gathers (hg hp)
      · exact (CommandEffect.input hin).raises _
      · exact (CommandEffect.input hin).goesOn _ fun hp => hin.gathers (gathers_append _ (hg hp) hlen)
    · cases h
      exact (CommandEffect.accumulates xs fun hp => (hg hp).1).completes
  · split_ifs at h with ho <;> cases h
    · exact (CommandEffect.unchanged s).goesOn _ fun _ => ⟨ho, Nat.zero_le _⟩
    · exact (CommandEffect.unchanged s).raises _

theorem execAccFinal_step {s t : State} (h : execAccFinal s = .next t) : CommandStep .accFinal s t := by
  unfold execAccFinal at h
  split at h
  · cases h
    exact (CommandEffect.unchanged s).completes
  · split_ifs at h with ho <;> cases h
    · exact (CommandEffect.finalizes fun _ => ho).goesOn _ fun _ => trivial
    · exact (CommandEffect.unchanged s).raises _

theorem execThdn_step {ch : Channel} {s t : State} (h : execThdn ch s = .next t) : CommandStep (.thdn ch) s t := by
  unfold execThdn at h
  split at h
  · cases h
    exact (CommandEffect.unchanged s).completes
  · split_ifs at h <;> cases h
    · exact (CommandEffect.reduces ch).goesOn _ fun _ => trivial
    · exact (CommandEffect.unchanged s).raises _

theorem measurePassStep_step {left : Nat} {xs : List (Rat × Rat)} {s : State}
    (hg : s.progressFits → s.gathers xs) : CommandStep .measure s (measurePassStep left xs s) := by
  have hin := frameIn_effect s
  unfold measurePassStep
  split_ifs with hlen
  · cases hf : frameIn s <;> rw [hf] at hin
    · exact (CommandEffect.input hin).goesOn _ fun hp => hin.gathers (hg hp)
    · exact (CommandEffect.input hin).goesOn _ fun hp => hin.gathers (hg hp)
    · exact (CommandEffect.input hin).raises _
    · exact (CommandEffect.input hin).goesOn _ fun hp => hin.gathers (gathers_append _ (hg hp) hlen)
  · exact (CommandEffect.accumulates xs fun hp => (hg hp).1).goesOn _ fun hp => ⟨(hg hp).1, Nat.zero_le _⟩

theorem execMeasure_step {s t : State} (h : execMeasure s = .next t) : CommandStep .measure s t := by
  unfold execMeasure at h
  split at h
  case h_1 xs hp =>
    cases h
    exact (CommandEffect.finalizes fun hf => (gathers_of_measurePass hp hf).1).goesOn _ fun _ => rfl
  case h_2 left xs hp =>
    cases h
    exact measurePassStep_step (gathers_of_measurePass hp)
  case h_3 hp =>
    cases h
    exact (CommandEffect.reduces .left).goesOn _ fun hf => show s.accst = .final from final_of_measureThdn hp hf
  case h_4 =>
    cases h
    exact (CommandEffect.reduces .right).goesOn _ fun _ => trivial
  case h_5 =>
    cases h
    exact (CommandEffect.unchanged s).completes
  case h_6 =>
    split_ifs at h with hbad <;> cases h
    · exact (CommandEffect.unchanged s).raises _
    · rw [Bool.or_eq_true, not_or, Bool.not_eq_true] at hbad
      exact (CommandEffect.clears hbad.1).goesOn _ fun _ => ⟨rfl, Nat.zero_le _⟩

/-- A step of any command but SRST is one of the effects, then one of the moves of SEQ. -/
theorem exec_step {i : Instr} {s t : State} (hi : i ≠ .srst) (h : exec i s = .next t) : CommandStep i s t := by
  cases i with
  | nop =>
    cases h
    exact (CommandEffect.unchanged s).completes
  | srst      => exact absurd rfl hi
  | discard n => exact execDiscard_step h
  | frame     => exact execFrame_step h
  | accClear  => exact execAccClear_step h
  | accPass   => exact execAccPass_step h
  | accFinal  => exact execAccFinal_step h
  | thdn ch   => exact execThdn_step h
  | measure   => exact execMeasure_step h

/-! ## The host -/

/-- A host read changes the host's record and the model's count of volatile reads alone. -/
theorem hostRead_eq (s : State) (a : Nat) :
    ∃ reads draws, s.hostRead a = { s with reads := reads, draws := draws } := by
  unfold State.hostRead State.memRead
  split_ifs <;> exact ⟨_, _, rfl⟩

/-- A write of CMD begins SRST, sets OVR, changes nothing, or, in a quiet block, raises ERR_ILLEGAL or starts a command
(40_control.md R120-R123). -/
theorem dispatch_cases (s : State) (w : Word) :
    s.dispatch w = s.beginSrst ∨ s.dispatch w = { s with ovr := true } ∨ s.dispatch w = s ∨
    (s.busy = false ∧ s.err = .none ∧
      (s.dispatch w = { s with done := false }.raise .illegal w ∨
        ∃ i, decode w = .ok i ∧ i ≠ .srst ∧ s.dispatch w = { s with done := false, seq := .busy w .start })) := by
  unfold State.dispatch
  split_ifs with hb hw he hw
  · exact .inl rfl
  · exact .inr (.inl rfl)
  · exact .inl rfl
  · exact .inr (.inr (.inl rfl))
  · rw [Bool.not_eq_true] at hb
    rw [not_not] at he
    cases hd : decode w with
    | error e => exact .inr (.inr (.inr ⟨hb, he, .inl rfl⟩))
    | ok i =>
      by_cases hi : i = .srst
      · exact .inl (if_pos hi)
      · exact .inr (.inr (.inr ⟨hb, he, .inr ⟨i, rfl, hi, if_neg hi⟩⟩))

/-- What a host write can do (20_memory.md R77, R78): it dispatches a command word, clears flags of STATUS, pushes a
byte, or changes the configuration, OVR or EOS at most. -/
theorem memWrite_cases (s : State) (a : Nat) (v : Word) :
    (∃ w, s.memWrite a v = s.dispatch w) ∨ (∃ w, s.memWrite a v = s.writeStatus w) ∨
    (∃ b, s.memWrite a v = s.push b) ∨
    ∃ cfg ovr eos, s.memWrite a v = { s with cfg := cfg, ovr := ovr, eos := eos } := by
  have hcfg (c : Cfg) : ∃ cfg ovr eos, s.writeCfg c = { s with cfg := cfg, ovr := ovr, eos := eos } := by
    unfold State.writeCfg
    split_ifs <;> exact ⟨_, _, _, rfl⟩
  unfold State.memWrite
  cases regAt a with
  | ctrl | srate | log2n | navg => exact .inr (.inr (.inr (hcfg _)))
  | tfreq c | halfw c => cases c <;> exact .inr (.inr (.inr (hcfg _)))
  | cmd => exact .inl ⟨_, rfl⟩
  | status => exact .inr (.inl ⟨_, rfl⟩)
  | din => exact .inr (.inr (.inl ⟨_, rfl⟩))
  | inctrl =>
    unfold State.writeReg State.writeInctrl
    exact .inr (.inr (.inr (by dsimp only; split_ifs <;> exact ⟨_, _, _, rfl⟩)))
  | _ => exact .inr (.inr (.inr ⟨_, _, _, rfl⟩))

/-- A byte written to DIN is dropped or goes to the end of a FIFO with room for it (41_input.md R141). -/
theorem push_cases (s : State) (b : Byte) :
    s.push b = { s with drop := true } ∨
    (s.level ≠ s.params.fifoDepth ∧ s.push b = { s with fifo := s.fifo ++ [b] }) := by
  unfold State.push
  split_ifs with h
  · exact .inl rfl
  · rw [Bool.or_eq_true, not_or, decide_eq_true_eq] at h
    exact .inr ⟨h.2, rfl⟩

end Sys2Proof.Machine
end

section
/-! The control invariant of a reachable state, `State.ControlInv`: what it says of the filter and of the accumulator,
which the effects keep, and what it says in each control state, which the moves of SEQ keep. -/

namespace Sys2Proof.Machine

/-! ## The invariant in parts -/

/-- The filter's phase with HLEN, HFILL and the cursors (10_state.md R52). -/
structure FilterInv (hmax : Nat) (phase : HpfPhase) (hlen hfill cur0 cur1 : Word) : Prop where
  uninit  : phase = .uninit → hlen = 0 ∧ hfill = 0 ∧ cur0 = 0 ∧ cur1 = 0
  fill    : phase = .fill → hfill.toNat + 1 < hlen.toNat ∧ cur0 = 0 ∧ cur1 = 0
  run     : phase = .run → hfill.toNat + 1 = hlen.toNat ∧ cur0.toNat < hlen.toNat
  length  : phase ≠ .uninit → 2 ≤ hlen.toNat ∧ hlen.toNat ≤ hmax
  cursors : cur0 = cur1

/-- The accumulator's phase with what ACC_CLEAR latches (10_state.md R46). -/
structure AccInv (log2nMax : Nat) (phase : AccPhase) (n fs navg : Word) : Prop where
  none   : phase = .none → n = 0 ∧ fs = 0 ∧ navg = 0
  opened : phase ≠ .none → (∃ l, 2 ≤ l ∧ l ≤ log2nMax ∧ n.toNat = 2 ^ l) ∧
    fs ≠ 0 ∧ navg ≠ 0 ∧ kMin n.toNat fs.toNat ≤ n.toNat / 2

/-- The part of the control invariant that SEQ and the flags have no part in. -/
structure State.PhaseInv (s : State) : Prop where
  params : s.params.legal = true
  level  : s.level ≤ s.params.fifoDepth
  filter : FilterInv s.params.hmax s.hpfst s.hlen s.hfill s.hpf0.cur s.hpf1.cur
  acc    : AccInv s.params.log2nMax s.accst s.accn s.accfs s.accnavg

/-- The rest of it, by control state: what the flags and the phases are while the block is idle, runs a command or is in
Init (40_control.md R120-R126). -/
def State.SeqInv (s : State) : Prop :=
  match s.seq with
  | .idle     => s.stall = false ∧ (s.done = true → s.err = .none)
  | .busy w _ => s.done = false ∧ s.err = .none ∧ (∃ i, decode w = .ok i ∧ i ≠ .srst) ∧ s.progressFits
  | .init _ _ => s.stall = false ∧ s.done = false ∧ s.err = .none ∧ s.hpfst = .uninit ∧ s.accst = .none

theorem State.ControlInv.phases {s : State} (h : s.ControlInv) : s.PhaseInv where
  params := h.params
  level  := h.level
  filter := ⟨h.uninit, h.fill, h.run, h.length, h.cursors⟩
  acc    := ⟨h.accNone, h.accOpen⟩

theorem State.ControlInv.seqInv {s : State} (h : s.ControlInv) : s.SeqInv := by
  have herr (hs : s.seq ≠ .idle) : s.err = .none := by
    by_contra he
    exact hs (h.errIdle he)
  have hstall (hs : ∀ w p, s.seq ≠ .busy w p) : s.stall = false := by
    by_contra hst
    obtain ⟨w, p, hwp⟩ := h.stallRuns (by simpa using hst)
    exact hs w p hwp
  unfold State.SeqInv
  split
  case h_1 hs => exact ⟨hstall (by simp [hs]), h.doneOrErr⟩
  case h_2 w p hs => exact ⟨h.busyDone (by simp [State.busy, hs]), herr (by simp [hs]), h.word w p hs, h.progress⟩
  case h_3 hs =>
    exact ⟨hstall (by simp [hs]), h.busyDone (by simp [State.busy, hs]), herr (by simp [hs]),
      h.init (by simp [State.inInit, hs])⟩

theorem State.PhaseInv.control {s : State} (h : s.PhaseInv) (hs : s.SeqInv) : s.ControlInv := by
  obtain ⟨hparams, hlevel, ⟨huninit, hfill, hrun, hlength, hcursors⟩, ⟨hnone, hopened⟩⟩ := h
  unfold State.SeqInv at hs
  split at hs
  case h_1 hseq =>
    obtain ⟨hstall, hdone⟩ := hs
    refine ⟨hparams, hlevel, hdone, fun _ => hseq, ?_, ?_, ?_, ?_, huninit, hfill, hrun, hlength, hcursors, hnone,
      hopened, ?_⟩ <;> simp [State.busy, State.inInit, State.progressFits, hseq, hstall]
  case h_2 w p hseq =>
    obtain ⟨hdone, herr, hword, hfits⟩ := hs
    refine ⟨hparams, hlevel, fun _ => herr, fun he => absurd herr he, fun _ => hdone, fun _ => ⟨w, p, hseq⟩, ?_, ?_,
      huninit, hfill, hrun, hlength, hcursors, hnone, hopened, hfits⟩
    · intro w' p' h'
      cases hseq.symm.trans h'
      exact hword
    · simp [State.inInit, hseq]
  case h_3 hseq =>
    obtain ⟨hstall, hdone, herr, hphases⟩ := hs
    refine ⟨hparams, hlevel, fun _ => herr, fun he => absurd herr he, fun _ => hdone, ?_, ?_, fun _ => hphases,
      huninit, hfill, hrun, hlength, hcursors, hnone, hopened, ?_⟩ <;> simp [State.progressFits, hseq, hstall]

/-! ## The effects keep the phases' part -/

theorem hmax_le_of_legal {p : Params} (h : p.legal = true) : p.hmax ≤ 131072 := by
  rw [Params.legal, decide_eq_true_eq] at h
  omega

/-- `hpf_start` latches an H in its range (42_hpf.md R161). -/
theorem hpfStart_filterInv {s : State} (hl : s.hpfLengthBad = false) (hp : s.hpfst = .uninit)
    (h : FilterInv s.params.hmax s.hpfst s.hlen s.hfill s.hpf0.cur s.hpf1.cur) :
    FilterInv s.params.hmax .fill s.hpfStart.hlen 0 s.hpf0.cur s.hpf1.cur := by
  rw [State.hpfLengthBad, decide_eq_false_iff_not, not_or, Nat.not_lt, Nat.not_lt] at hl
  have hlen : s.hpfStart.hlen.toNat = s.cfg.hpfLength :=
    Nat.mod_eq_of_lt ((Nat.div_le_self _ _).trans_lt s.cfg.srate.isLt)
  rw [← hlen] at hl
  obtain ⟨-, -, hcur⟩ := h.uninit hp
  exact ⟨by simp, fun _ => ⟨hl.1, hcur⟩, by simp, fun _ => hl, h.cursors⟩

/-- A preload step counts one frame more, the last of them setting the cursors (42_hpf.md R162). -/
theorem hpfPreload_filterInv {s : State} (vL vR : Word) (hp : s.hpfst = .fill)
    (h : FilterInv s.params.hmax s.hpfst s.hlen s.hfill s.hpf0.cur s.hpf1.cur) :
    let t := s.hpfPreload vL vR
    FilterInv s.params.hmax t.hpfst t.hlen t.hfill t.hpf0.cur t.hpf1.cur := by
  obtain ⟨hfill, hcur⟩ := h.fill hp
  have hlength := h.length (by simp [hp])
  have hnext : (s.hfill + 1).toNat = s.hfill.toNat + 1 := by bv_omega
  have hlast : (s.hlen - 1).toNat = s.hlen.toNat - 1 := by bv_omega
  unfold State.hpfPreload
  dsimp only
  split_ifs with hl
  · have heq := congrArg BitVec.toNat hl
    have hfull : (s.hfill + 1).toNat + 1 = s.hlen.toNat ∧ (s.hlen - 1).toNat < s.hlen.toNat := by omega
    exact ⟨by simp, by simp, fun _ => hfull, fun _ => hlength, rfl⟩
  · have hne : s.hfill.toNat + 1 ≠ s.hlen.toNat - 1 := fun he => hl (BitVec.eq_of_toNat_eq (by omega))
    have hmore : (s.hfill + 1).toNat + 1 < s.hlen.toNat := by omega
    exact ⟨by simp [hp], fun _ => ⟨hmore, hcur⟩, by simp [hp], fun _ => hlength, h.cursors⟩

/-- A running step moves both cursors to the same next place (42_hpf.md R163). -/
theorem step_filterInv {hmax : Nat} {hlen hfill : Word} {h0 h1 : HpfChan} (vL vR : Word)
    (h : FilterInv hmax .run hlen hfill h0.cur h1.cur) :
    FilterInv hmax .run hlen hfill (h0.step hlen.toNat vL).1.cur (h1.step hlen.toNat vR).1.cur := by
  obtain ⟨hlast, hcur⟩ := h.run rfl
  have hpos : 0 < hlen.toNat := Nat.zero_lt_of_lt hcur
  refine ⟨by simp, by simp, fun _ => ⟨hlast, ?_⟩, fun _ => h.length (by simp), ?_⟩
  · rw [step_cur vL hpos hlen.isLt.le]
    exact Nat.mod_lt _ hpos
  · simp only [HpfChan.step, h.cursors]

theorem InputEffect.phaseInv {s u : State} (h : InputEffect s u) (hs : s.PhaseInv) : u.PhaseInv := by
  obtain ⟨hparams, hlevel, hfilter, hacc⟩ := hs
  cases h with
  | reads rest stall hr => exact ⟨hparams, hr.trans hlevel, hfilter, hacc⟩
  | starts hp hl => exact ⟨hparams, hlevel, hpfStart_filterInv (s := s) hl hp hfilter, hacc⟩
  | preloads rest vL vR hr hp =>
    refine ⟨by simpa, ?_, ?_, by simpa⟩
    · simpa [State.level] using hr.trans hlevel
    · simpa using hpfPreload_filterInv (s := { s with fifo := rest, stall := false }) vL vR hp hfilter
  | filters rest vL vR hr hp =>
    refine ⟨hparams, hr.trans hlevel, ?_, hacc⟩
    rw [hp] at hfilter
    simpa [hp] using step_filterInv vL vR hfilter

/-- What ACC_CLEAR latches past its checks is legal (43_spectrum.md R185). -/
theorem accClear_accInv {s : State} (h : s.accConfigBad = false) :
    AccInv s.params.log2nMax .opened s.accClear.accn s.accClear.accfs s.accClear.accnavg := by
  simp only [State.accConfigBad, Bool.or_eq_false_iff, decide_eq_false_iff_not, not_or, Nat.not_lt] at h
  obtain ⟨⟨hlow, hhigh⟩, ⟨hnavg, hsrate⟩, hrange⟩ := h
  have hn : s.accClear.accn.toNat = 2 ^ s.cfg.log2n.toNat :=
    Nat.mod_eq_of_lt (Nat.pow_lt_pow_right Nat.one_lt_two (by omega))
  exact ⟨by simp, fun _ => ⟨⟨_, hlow, hhigh, hn⟩, hsrate, hnavg, by rw [hn]; exact hrange⟩⟩

theorem AccInv.final {log2nMax : Nat} {n fs navg : Word} (h : AccInv log2nMax .opened n fs navg) :
    AccInv log2nMax .final n fs navg :=
  ⟨by simp, fun _ => h.opened (by simp)⟩

theorem CommandEffect.phaseInv {s u : State} (h : CommandEffect s u) (hs : s.PhaseInv) (hf : s.progressFits) :
    u.PhaseInv := by
  obtain ⟨hparams, hlevel, hfilter, hacc⟩ := id hs
  cases h with
  | input h => exact h.phaseInv hs
  | outputs => exact ⟨hparams, hlevel, hfilter, hacc⟩
  | clears h => exact ⟨hparams, hlevel, hfilter, accClear_accInv h⟩
  | accumulates => exact ⟨hparams, hlevel, hfilter, hacc⟩
  | finalizes h => exact ⟨hparams, hlevel, hfilter, AccInv.final (h hf ▸ hacc)⟩
  | reduces ch => cases ch <;> exact ⟨hparams, hlevel, hfilter, hacc⟩

/-! ## Every step keeps it -/

/-- The filter and the accumulator at their reset values (10_state.md R53). -/
theorem initial_phaseInv {s : State} (hp : s.params.legal = true) (hf : s.fifo = []) (hfilter : s.hpfst = .uninit ∧
    s.hlen = 0 ∧ s.hfill = 0 ∧ s.hpf0.cur = 0 ∧ s.hpf1.cur = 0)
    (hacc : s.accst = .none ∧ s.accn = 0 ∧ s.accfs = 0 ∧ s.accnavg = 0) : s.PhaseInv := by
  obtain ⟨hst, hvalues⟩ := hfilter
  obtain ⟨hast, havalues⟩ := hacc
  refine ⟨hp, by simp [State.level, hf], ?_, ?_⟩
  · exact ⟨fun _ => hvalues, by simp [hst], by simp [hst], by simp [hst], by simp [hvalues]⟩
  · exact ⟨fun _ => havalues, by simp [hast]⟩

theorem beginSrst_controlInv {s : State} (h : s.params.legal = true) : s.beginSrst.ControlInv :=
  (initial_phaseInv (s := s.beginSrst) h rfl ⟨rfl, rfl, rfl, rfl, rfl⟩ ⟨rfl, rfl, rfl, rfl⟩).control
    ⟨rfl, rfl, rfl, rfl, rfl⟩

theorem hardwareReset_controlInv {s : State} (h : s.params.legal = true) : s.hardwareReset.ControlInv :=
  (initial_phaseInv (s := s.hardwareReset) h rfl ⟨rfl, rfl, rfl, rfl, rfl⟩ ⟨rfl, rfl, rfl, rfl⟩).control
    ⟨rfl, rfl, rfl, rfl, rfl⟩

theorem reset_controlInv : State.reset.ControlInv :=
  (initial_phaseInv rfl rfl ⟨rfl, rfl, rfl, rfl, rfl⟩ ⟨rfl, rfl, rfl, rfl⟩).control
    ⟨rfl, rfl, rfl, rfl, rfl⟩

/-- The effects leave DONE and ERR to the moves of SEQ. -/
theorem CommandEffect.flags {s u : State} (h : CommandEffect s u) : u.done = s.done ∧ u.err = s.err := by
  cases h with
  | input h => cases h <;> simp [State.hpfStart]
  | reduces ch => cases ch <;> exact ⟨rfl, rfl⟩
  | _ => exact ⟨rfl, rfl⟩

/-- A command's step from a state that runs it keeps the control invariant. -/
theorem CommandStep.controlInv {i : Instr} {s t : State} {w : Word} {p : Progress} (h : CommandStep i s t)
    (hseq : s.seq = .busy w p) (hi : decode w = .ok i) (hne : i ≠ .srst) (hs : s.ControlInv) : t.ControlInv := by
  obtain ⟨u, he, hmove⟩ := h
  have hseqInv := hs.seqInv
  rw [State.SeqInv, hseq] at hseqInv
  obtain ⟨hdone, herr, -, hfits⟩ := hseqInv
  have hu := he.phaseInv hs.phases hfits
  obtain ⟨hudone, huerr⟩ := he.flags
  cases hmove with
  | completes =>
    exact State.PhaseInv.control ⟨hu.params, hu.level, hu.filter, hu.acc⟩ ⟨rfl, fun _ => huerr.trans herr⟩
  | raises e =>
    refine State.PhaseInv.control ⟨hu.params, hu.level, hu.filter, hu.acc⟩ ⟨rfl, fun hd => ?_⟩
    exact absurd (hd.symm.trans (hudone.trans hdone)) (by simp)
  | goesOn q hq =>
    refine State.PhaseInv.control ⟨hu.params, hu.level, hu.filter, hu.acc⟩
      ⟨hudone.trans hdone, huerr.trans herr, ⟨i, ?_, hne⟩, hq hfits⟩
    rw [encode_of_decode hi, hi]

theorem seqStep_controlInv {s t : State} (h : seqStep s = .next t) (hs : s.ControlInv) : t.ControlInv := by
  obtain ⟨hparams, hlevel, hfilter, hacc⟩ := hs.phases
  have hseq := hs.seqInv
  rcases seqStep_cases h with ⟨-, rfl⟩ | ⟨b, hi, rfl⟩ | ⟨n, b, hi, rfl⟩ | ⟨w, p, i, hi, hw, he⟩ | ⟨w, p, e, hi, hw, -⟩
  · exact hs
  · rw [State.SeqInv, hi] at hseq
    obtain ⟨hstall, -, herr, -⟩ := hseq
    exact State.PhaseInv.control ⟨hparams, hlevel, hfilter, hacc⟩ ⟨hstall, fun _ => herr⟩
  · rw [State.SeqInv, hi] at hseq
    exact State.PhaseInv.control ⟨hparams, hlevel, hfilter, hacc⟩ hseq
  · obtain ⟨j, hj, hne⟩ := hs.word w p hi
    obtain rfl : i = j := Except.ok.inj (hw.symm.trans hj)
    exact (exec_step hne he).controlInv hi hw hne hs
  · obtain ⟨j, hj, -⟩ := hs.word w p hi
    cases hw.symm.trans hj

theorem dispatch_controlInv {s : State} (w : Word) (hs : s.ControlInv) : (s.dispatch w).ControlInv := by
  obtain ⟨hparams, hlevel, hfilter, hacc⟩ := hs.phases
  rcases dispatch_cases s w with h | h | h | ⟨hbusy, herr, h | ⟨i, hi, hne, h⟩⟩ <;> rw [h]
  · exact beginSrst_controlInv hparams
  · exact State.PhaseInv.control ⟨hparams, hlevel, hfilter, hacc⟩ hs.seqInv
  · exact hs
  · exact State.PhaseInv.control ⟨hparams, hlevel, hfilter, hacc⟩ ⟨rfl, by simp⟩
  · exact State.PhaseInv.control ⟨hparams, hlevel, hfilter, hacc⟩ ⟨rfl, herr, ⟨i, hi, hne⟩, trivial⟩

/-- Clearing DONE keeps what the control states say. -/
theorem writeStatus_seqInv {s : State} (v : Word) (h : s.SeqInv) : (s.writeStatus v).SeqInv := by
  have hset : (s.writeStatus v).done = true → s.done = true := fun hd => (Bool.and_eq_true_iff.mp hd).1
  have hclear (hd : s.done = false) : (s.writeStatus v).done = false := by simp [State.writeStatus, hd]
  have hseq : (s.writeStatus v).seq = s.seq := rfl
  unfold State.SeqInv at h ⊢
  rw [hseq]
  split at h
  · exact ⟨h.1, fun hd => h.2 (hset hd)⟩
  · exact ⟨hclear h.1, h.2⟩
  · exact ⟨h.1, hclear h.2.1, h.2.2⟩

theorem memWrite_controlInv {s : State} (a : Nat) (v : Word) (hs : s.ControlInv) : (s.memWrite a v).ControlInv := by
  obtain ⟨hparams, hlevel, hfilter, hacc⟩ := hs.phases
  rcases memWrite_cases s a v with ⟨w, h⟩ | ⟨w, h⟩ | ⟨b, h⟩ | ⟨cfg, ovr, eos, h⟩ <;> rw [h]
  · exact dispatch_controlInv w hs
  · exact State.PhaseInv.control ⟨hparams, hlevel, hfilter, hacc⟩ (writeStatus_seqInv w hs.seqInv)
  · rcases push_cases s b with h | ⟨hroom, h⟩ <;> rw [h]
    · exact State.PhaseInv.control ⟨hparams, hlevel, hfilter, hacc⟩ hs.seqInv
    · refine State.PhaseInv.control ⟨hparams, ?_, hfilter, hacc⟩ hs.seqInv
      show (s.fifo ++ [b]).length ≤ s.params.fifoDepth
      rw [List.length_append]
      exact Nat.lt_of_le_of_ne hlevel hroom
  · exact State.PhaseInv.control ⟨hparams, hlevel, hfilter, hacc⟩ hs.seqInv

theorem hostRead_controlInv {s : State} (a : Nat) (hs : s.ControlInv) : (s.hostRead a).ControlInv := by
  obtain ⟨hparams, hlevel, hfilter, hacc⟩ := hs.phases
  obtain ⟨reads, draws, h⟩ := hostRead_eq s a
  rw [h]
  exact State.PhaseInv.control ⟨hparams, hlevel, hfilter, hacc⟩ hs.seqInv

/-- The host's program and the schedule are no part of the invariant. -/
theorem State.ControlInv.withAgents {s : State} (hs : s.ControlInv) (host : List HostOp) (sched : List Agent) :
    { s with host := host, sched := sched }.ControlInv := by
  obtain ⟨hparams, hlevel, hfilter, hacc⟩ := hs.phases
  exact State.PhaseInv.control ⟨hparams, hlevel, hfilter, hacc⟩ hs.seqInv

theorem hostStep_controlInv {s t : State} (h : hostStep s = .next t) (hs : s.ControlInv) : t.ControlInv := by
  rcases hostStep_cases h with ⟨-, rfl⟩ | ⟨a, rest, -, -, -, rfl⟩ | ⟨a, v, rest, -, -, -, rfl⟩ | ⟨rest, -, rfl⟩ |
    ⟨rest, -, rfl⟩
  · exact hs
  · exact hostRead_controlInv a (hs.withAgents rest s.sched)
  · exact memWrite_controlInv a v (hs.withAgents rest s.sched)
  · exact hostRead_controlInv _ (hs.withAgents _ s.sched)
  · exact hardwareReset_controlInv hs.params

theorem step_controlInv {s t : State} (h : step s = .next t) (hs : s.ControlInv) : t.ControlInv := by
  have htaken : s.takeTurn.ControlInv := hs.withAgents s.host s.sched.tail
  rcases step_cases h with ⟨-, h⟩ | ⟨-, h⟩
  · exact seqStep_controlInv h htaken
  · exact hostStep_controlInv h htaken

end Sys2Proof.Machine

open Sys2Proof Sys2Proof.Machine

/-- Settles O57: the effects of a command's step keep the phases' part of the invariant, its move of SEQ then meets what
the control state asks, and what the host can do is one of the few cases of `memWrite_cases`. -/
theorem stepKeepsControlInvariant : Obligations.StepKeepsControlInvariant := by
  unfold Obligations.StepKeepsControlInvariant
  exact fun s t hs h => step_controlInv h hs

end

section
/-! The filter and the spectrum across a step: which of the effects it has on them, and that each keeps the canonical
form of the arrays. -/

namespace Sys2Proof.Machine

/-! ## What a step does to the arrays -/

/-- The filter, the spectrum and their phases, the rest of the state at its reset value: what the invariants of the
arrays speak of (10_state.md R44, R45, R47). -/
def State.arrayPart (s : State) : State :=
  { State.reset with
    hpfst := s.hpfst, hlen := s.hlen, hfill := s.hfill, hpf0 := s.hpf0, hpf1 := s.hpf1
    accst := s.accst, spec0 := s.spec0, spec1 := s.spec1 }

/-- What a step can do to the arrays. -/
inductive ArrayEffect (s : State) : State → Prop where
  | command {u : State} (h : CommandEffect s u) : ArrayEffect s u
  | beginSrst : ArrayEffect s s.beginSrst
  | hardwareReset : ArrayEffect s s.hardwareReset
  | endInit (srst : Bool) (h : s.inInit = true) : ArrayEffect s (s.endInit srst)

/-- `t` has the arrays that one of the effects leaves. -/
def ArrayStep (s t : State) : Prop := ∃ u, ArrayEffect s u ∧ t.arrayPart = u.arrayPart

theorem ArrayEffect.arrayStep {s t : State} (h : ArrayEffect s t) : ArrayStep s t := ⟨t, h, rfl⟩

theorem arrayStep_of_same {s t : State} (h : t.arrayPart = s.arrayPart) : ArrayStep s t :=
  ⟨s, .command (.unchanged s), h⟩

theorem CommandStep.arrayStep {i : Instr} {s t : State} (h : CommandStep i s t) : ArrayStep s t := by
  obtain ⟨u, he, hmove⟩ := h
  exact ⟨u, .command he, by cases hmove <;> rfl⟩

theorem seqStep_arrays {s t : State} (h : seqStep s = .next t) : ArrayStep s t := by
  rcases seqStep_cases h with ⟨-, rfl⟩ | ⟨b, hb, rfl⟩ | ⟨n, b, -, rfl⟩ | ⟨w, p, i, -, -, he⟩ | ⟨w, p, e, -, -, rfl⟩
  · exact arrayStep_of_same rfl
  · exact (ArrayEffect.endInit b (by rw [State.inInit, hb])).arrayStep
  · exact arrayStep_of_same rfl
  · by_cases hi : i = .srst
    · subst hi
      cases he
      exact ArrayEffect.beginSrst.arrayStep
    · exact (exec_step hi he).arrayStep
  · exact arrayStep_of_same rfl

theorem dispatch_arrays (s : State) (w : Word) : ArrayStep s (s.dispatch w) := by
  rcases dispatch_cases s w with h | h | h | ⟨-, -, h | ⟨i, -, -, h⟩⟩ <;> rw [h]
  · exact ArrayEffect.beginSrst.arrayStep
  all_goals exact arrayStep_of_same rfl

theorem memWrite_arrays (s : State) (a : Nat) (v : Word) : ArrayStep s (s.memWrite a v) := by
  rcases memWrite_cases s a v with ⟨w, h⟩ | ⟨w, h⟩ | ⟨b, h⟩ | ⟨cfg, ovr, eos, h⟩ <;> rw [h]
  · exact dispatch_arrays s w
  · exact arrayStep_of_same rfl
  · rcases push_cases s b with h | ⟨-, h⟩ <;> rw [h] <;> exact arrayStep_of_same rfl
  · exact arrayStep_of_same rfl

theorem hostRead_arrayPart (s : State) (a : Nat) : (s.hostRead a).arrayPart = s.arrayPart := by
  obtain ⟨reads, draws, h⟩ := hostRead_eq s a
  rw [h]
  rfl

theorem hostStep_arrays {s t : State} (h : hostStep s = .next t) : ∃ host, ArrayStep { s with host := host } t := by
  rcases hostStep_cases h with ⟨-, rfl⟩ | ⟨a, rest, -, -, -, rfl⟩ | ⟨a, v, rest, -, -, -, rfl⟩ | ⟨rest, -, rfl⟩ |
    ⟨rest, -, rfl⟩
  · exact ⟨t.host, arrayStep_of_same rfl⟩
  · exact ⟨rest, arrayStep_of_same (hostRead_arrayPart _ _)⟩
  · exact ⟨rest, memWrite_arrays _ a v⟩
  · exact ⟨_, arrayStep_of_same (hostRead_arrayPart _ _)⟩
  · exact ⟨rest, ArrayEffect.hardwareReset.arrayStep⟩

/-- A step has one of the effects on the arrays, from the state but for the host's program and the schedule. -/
theorem step_arrays {s t : State} (h : step s = .next t) :
    ∃ host sched, ArrayStep { s with host := host, sched := sched } t := by
  rcases step_cases h with ⟨-, h⟩ | ⟨-, h⟩
  · exact ⟨s.host, s.sched.tail, seqStep_arrays h⟩
  · obtain ⟨host, ht⟩ := hostStep_arrays h
    exact ⟨host, s.sched.tail, ht⟩

/-- A property of the arrays holds after a step if every effect the step may have leaves it true. -/
theorem step_keeps {P : State → Prop} (frame : ∀ s, P s.arrayPart ↔ P s) {s t : State} (h : step s = .next t)
    (effect : ∀ host sched u, ArrayEffect { s with host := host, sched := sched } u → P u) : P t := by
  obtain ⟨host, sched, u, he, hpart⟩ := step_arrays h
  rw [← frame, hpart, frame]
  exact effect host sched u he

/-! ## The canonical form -/

theorem arraysCanonical_iff (s : State) : s.arraysCanonical = true ↔
    Memory.wf 0 s.hpf0.buf = true ∧ Memory.wf 0 s.hpf1.buf = true ∧
      Memory.wf .zero s.spec0 = true ∧ Memory.wf .zero s.spec1 = true := by
  simp only [State.arraysCanonical, Bool.and_eq_true, and_assoc]

/-- A preload step changes HBUF and HSUM as `HpfChan.preload` does, whether or not it is the last (42_hpf.md R162). -/
theorem hpfPreload_channels (s : State) (vL vR : Word) : ∃ cur0 cur1,
    (s.hpfPreload vL vR).hpf0 = { s.hpf0.preload s.hfill.toNat vL with cur := cur0 } ∧
    (s.hpfPreload vL vR).hpf1 = { s.hpf1.preload s.hfill.toNat vR with cur := cur1 } := by
  unfold State.hpfPreload
  dsimp only
  split_ifs <;> exact ⟨_, _, rfl, rfl⟩

theorem InputEffect.arraysCanonical {s u : State} (h : InputEffect s u) (hs : s.arraysCanonical = true) :
    u.arraysCanonical = true := by
  rw [arraysCanonical_iff] at hs ⊢
  obtain ⟨h0, h1, hspec⟩ := hs
  cases h with
  | reads => exact ⟨h0, h1, hspec⟩
  | starts => exact ⟨h0, h1, hspec⟩
  | preloads rest vL vR =>
    obtain ⟨cur0, cur1, e0, e1⟩ := hpfPreload_channels { s with fifo := rest, stall := false } vL vR
    rw [e0, e1, State.hpfPreload_spec0, State.hpfPreload_spec1]
    exact ⟨preload_wf h0 _ vL, preload_wf h1 _ vR, hspec⟩
  | filters rest vL vR => exact ⟨step_wf h0 _ vL, step_wf h1 _ vR, hspec⟩

theorem CommandEffect.arraysCanonical {s u : State} (h : CommandEffect s u) (hs : s.arraysCanonical = true) :
    u.arraysCanonical = true := by
  obtain ⟨h0, h1, hspec0, hspec1⟩ := (arraysCanonical_iff s).mp hs
  cases h with
  | input h => exact h.arraysCanonical hs
  | outputs => exact hs
  | clears => exact (arraysCanonical_iff _).mpr ⟨h0, h1, rfl, rfl⟩
  | accumulates =>
    exact (arraysCanonical_iff _).mpr ⟨h0, h1, accumulate_wf _ _ _ _ hspec0, accumulate_wf _ _ _ _ hspec1⟩
  | finalizes => exact (arraysCanonical_iff _).mpr ⟨h0, h1, takeRoots_wf _ _ hspec0, takeRoots_wf _ _ hspec1⟩
  | reduces ch => cases ch <;> exact hs

theorem ArrayEffect.arraysCanonical {s u : State} (h : ArrayEffect s u) (hs : s.arraysCanonical = true) :
    u.arraysCanonical = true := by
  obtain ⟨-, -, hspec⟩ := (arraysCanonical_iff s).mp hs
  cases h with
  | command h => exact h.arraysCanonical hs
  | beginSrst => exact (arraysCanonical_iff _).mpr ⟨rfl, rfl, hspec⟩
  | hardwareReset => rfl
  | endInit => rfl

theorem step_arraysCanonical {s t : State} (h : step s = .next t) (hs : s.arraysCanonical = true) :
    t.arraysCanonical = true :=
  step_keeps (P := fun s => s.arraysCanonical = true) (fun _ => Iff.rfl) h fun _ _ _ he => he.arraysCanonical hs

end Sys2Proof.Machine

open Sys2Proof Sys2Proof.Machine

/-- Settles O58: every write of the arrays goes through `Memory.write`, or empties them. -/
theorem stepKeepsArraysCanonical : Obligations.StepKeepsArraysCanonical := by
  unfold Obligations.StepKeepsArraysCanonical
  exact fun s t hs h => step_arraysCanonical h hs

end

section
/-! The filter's running sum (10_state.md R45, 42_hpf.md R164): a preload step adds a sample in a cell that held 0, a
running step exchanges the oldest sample for the newest, and at most HMAX samples of 32 bits never wrap 64 bits. -/

namespace Sys2Proof.Machine

/-! ## Sums over the buffer -/

theorem bufferSum_eq (h : HpfChan) (hlen : Nat) :
    h.bufferSum hlen = ∑ i ∈ Finset.range hlen, (h.sample i).toInt := rfl

/-- Exchanging one sample of the buffer exchanges it in the sum. -/
theorem bufferSum_exchange {h h' : HpfChan} {c hlen : Nat} {v : Word} (hc : c < hlen)
    (hsample : ∀ i, h'.sample i = if i = c then v else h.sample i) :
    h'.bufferSum hlen = h.bufferSum hlen + v.toInt - (h.sample c).toInt := by
  have hmem : c ∈ Finset.range hlen := Finset.mem_range.mpr hc
  rw [bufferSum_eq, bufferSum_eq, ← Finset.add_sum_erase _ _ hmem, ← Finset.add_sum_erase (Finset.range hlen) _ hmem]
  have hrest : ∑ i ∈ (Finset.range hlen).erase c, (h'.sample i).toInt =
      ∑ i ∈ (Finset.range hlen).erase c, (h.sample i).toInt :=
    Finset.sum_congr rfl fun i hi => by rw [hsample, if_neg (Finset.ne_of_mem_erase hi)]
  rw [hrest, hsample, if_pos rfl]
  ring

theorem bufferSum_abs_le (h : HpfChan) (hlen : Nat) : |h.bufferSum hlen| ≤ hlen * 2 ^ 31 := by
  rw [bufferSum_eq]
  have hcell : ∀ i ∈ Finset.range hlen, |(h.sample i).toInt| ≤ 2 ^ 31 := fun i _ => by
    have hlo := BitVec.le_toInt (h.sample i)
    have hhi := BitVec.toInt_lt (x := h.sample i)
    exact abs_le.mpr ⟨by simpa using hlo, by simpa using hhi.le⟩
  simpa using (Finset.abs_sum_le_sum_abs _ _).trans (Finset.sum_le_sum hcell)

/-- No sum over a legal buffer wraps 64 bits. -/
theorem toInt_ofInt_bufferSum (h : HpfChan) {hlen : Nat} (hle : hlen ≤ 131072) :
    (BitVec.ofInt 64 (h.bufferSum hlen)).toInt = h.bufferSum hlen := by
  have hle' : (hlen : Int) ≤ 131072 := by exact_mod_cast hle
  have habs := abs_le.mp (bufferSum_abs_le h hlen)
  exact BitVec.toInt_ofInt_eq_self (by decide) (by norm_num at *; linarith) (by norm_num at *; linarith)

theorem bufferSum_of_zero {h : HpfChan} (hzero : ∀ i, h.sample i = 0) (hlen : Nat) : h.bufferSum hlen = 0 := by
  rw [bufferSum_eq]
  exact Finset.sum_eq_zero fun i _ => by rw [hzero]; rfl

/-! ## The invariant of one channel -/

/-- The sum invariant on one channel (10_state.md R45). -/
structure HpfChan.SumInv (phase : HpfPhase) (hlen hfill : Nat) (h : HpfChan) : Prop where
  sum  : h.sum.toInt = h.bufferSum hlen
  tail : ∀ i, hlen ≤ i → h.sample i = 0
  fill : phase ≠ .run → ∀ i, hfill ≤ i → h.sample i = 0

theorem sumInv_iff (s : State) : s.SumInv ↔
    s.hpf0.SumInv s.hpfst s.hlen.toNat s.hfill.toNat ∧ s.hpf1.SumInv s.hpfst s.hlen.toNat s.hfill.toNat where
  mp h := ⟨⟨h.sum .left, h.tail .left, fun hp => h.fill hp .left⟩,
    h.sum .right, h.tail .right, fun hp => h.fill hp .right⟩
  mpr h := by
    obtain ⟨⟨hsum0, htail0, hfill0⟩, ⟨hsum1, htail1, hfill1⟩⟩ := h
    constructor
    · rintro (_ | _) <;> assumption
    · rintro (_ | _) <;> assumption
    · rintro hp (_ | _)
      · exact hfill0 hp
      · exact hfill1 hp

theorem sumInv_withCursor {phase : HpfPhase} {hlen hfill : Nat} {h : HpfChan} (hs : h.SumInv phase hlen hfill)
    (cur : Word) : { h with cur := cur }.SumInv phase hlen hfill :=
  ⟨hs.sum, hs.tail, hs.fill⟩

theorem sumInv_reset (phase : HpfPhase) : HpfChan.reset.SumInv phase 0 0 :=
  ⟨rfl, fun _ _ => rfl, fun _ _ _ => rfl⟩

/-- Init empties a buffer that held nothing (40_control.md R126). -/
theorem sumInv_emptied {phase : HpfPhase} {h : HpfChan} (hs : h.SumInv phase 0 0) :
    { h with buf := [] }.SumInv phase 0 0 :=
  ⟨hs.sum, fun _ _ => rfl, fun _ _ _ => rfl⟩

/-- `hpf_start` finds an empty buffer (42_hpf.md R161). -/
theorem sumInv_start {h : HpfChan} (hs : h.SumInv .uninit 0 0) (hlen : Nat) : h.SumInv .fill hlen 0 := by
  have hzero (i : Nat) : h.sample i = 0 := hs.tail i (Nat.zero_le i)
  exact ⟨hs.sum.trans (bufferSum_of_zero hzero hlen).symm, fun i _ => hzero i, fun _ i _ => hzero i⟩

theorem sumInv_preload {h : HpfChan} {hlen hfill : Nat} (hw : Memory.wf 0 h.buf = true) (hs : h.SumInv .fill hlen hfill)
    (hlt : hfill < hlen) (hle : hlen ≤ 131072) (v : Word) (phase : HpfPhase) :
    (h.preload hfill v).SumInv phase hlen (hfill + 1) := by
  have hsample := preload_sample hw hfill v
  have hempty : h.sample hfill = 0 := hs.fill (by simp) hfill le_rfl
  have hnew : (h.preload hfill v).bufferSum hlen = h.sum.toInt + v.toInt := by
    rw [bufferSum_exchange hlt hsample, hempty, hs.sum]
    simp
  refine ⟨?_, fun i hi => ?_, fun _ i hi => ?_⟩
  · rw [← toInt_ofInt_bufferSum _ hle, hnew]
    rfl
  · rw [hsample, if_neg (by omega), hs.tail i hi]
  · rw [hsample, if_neg (by omega), hs.fill (by simp) i (by omega)]

theorem sumInv_step {h : HpfChan} {hlen hfill : Nat} (hw : Memory.wf 0 h.buf = true) (hs : h.SumInv .run hlen hfill)
    (hlt : h.cur.toNat < hlen) (hle : hlen ≤ 131072) (v : Word) : (h.step hlen v).1.SumInv .run hlen hfill := by
  have hsample := step_sample hw hlen v
  have hnew : (h.step hlen v).1.bufferSum hlen = h.sum.toInt + v.toInt - (h.sample h.cur.toNat).toInt := by
    rw [bufferSum_exchange hlt hsample, hs.sum]
  refine ⟨?_, fun i hi => ?_, fun hp => absurd rfl hp⟩
  · rw [← toInt_ofInt_bufferSum _ hle, hnew, step_sum]
  · rw [hsample, if_neg (by omega), hs.tail i hi]

/-! ## Every step keeps it -/

theorem InputEffect.sumInv {s u : State} (h : InputEffect s u) (hc : s.ControlInv) (hw : s.arraysCanonical = true)
    (hs : s.SumInv) : u.SumInv := by
  obtain ⟨hw0, hw1, -⟩ := (arraysCanonical_iff s).mp hw
  have hmax := hmax_le_of_legal hc.params
  rw [sumInv_iff] at hs ⊢
  cases h with
  | reads => exact hs
  | starts hp =>
    obtain ⟨hlen, hfill, -⟩ := hc.uninit hp
    rw [hp, hlen, hfill] at hs
    exact ⟨sumInv_start hs.1 _, sumInv_start hs.2 _⟩
  | preloads rest vL vR hr hp =>
    obtain ⟨hlt, -⟩ := hc.fill hp
    obtain ⟨-, hle⟩ := hc.length (by simp [hp])
    obtain ⟨cur0, cur1, e0, e1⟩ := hpfPreload_channels { s with fifo := rest, stall := false } vL vR
    have hnext : (s.hfill + 1).toNat = s.hfill.toNat + 1 := by bv_omega
    rw [e0, e1, State.hpfPreload_hlen, State.hpfPreload_hfill, hnext]
    rw [hp] at hs
    exact ⟨sumInv_withCursor (sumInv_preload hw0 hs.1 (by omega) (by omega) vL _) cur0,
      sumInv_withCursor (sumInv_preload hw1 hs.2 (by omega) (by omega) vR _) cur1⟩
  | filters rest vL vR hr hp =>
    obtain ⟨-, hlt⟩ := hc.run hp
    obtain ⟨-, hle⟩ := hc.length (by simp [hp])
    rw [hp] at hs ⊢
    exact ⟨sumInv_step hw0 hs.1 hlt (by omega) vL, sumInv_step hw1 hs.2 (hc.cursors ▸ hlt) (by omega) vR⟩

theorem CommandEffect.sumInv {s u : State} (h : CommandEffect s u) (hc : s.ControlInv) (hw : s.arraysCanonical = true)
    (hs : s.SumInv) : u.SumInv := by
  cases h with
  | input h => exact h.sumInv hc hw hs
  | reduces ch => cases ch <;> exact (sumInv_iff _).mpr ((sumInv_iff s).mp hs)
  | _ => exact (sumInv_iff _).mpr ((sumInv_iff s).mp hs)

theorem ArrayEffect.sumInv {s u : State} (h : ArrayEffect s u) (hc : s.ControlInv) (hw : s.arraysCanonical = true)
    (hs : s.SumInv) : u.SumInv := by
  cases h with
  | command h => exact h.sumInv hc hw hs
  | beginSrst | hardwareReset => exact (sumInv_iff _).mpr ⟨sumInv_reset _, sumInv_reset _⟩
  | endInit srst hi =>
    obtain ⟨hlen, hfill, -⟩ := hc.uninit (hc.init hi).1
    rw [sumInv_iff, hlen, hfill] at hs
    refine (sumInv_iff _).mpr ?_
    rw [State.endInit, hlen, hfill]
    exact ⟨sumInv_emptied hs.1, sumInv_emptied hs.2⟩

theorem sumInv_arrayPart (s : State) : s.arrayPart.SumInv ↔ s.SumInv := by
  rw [sumInv_iff, sumInv_iff]
  rfl

theorem step_sumInv {s t : State} (h : step s = .next t) (hc : s.ControlInv) (hw : s.arraysCanonical = true)
    (hs : s.SumInv) : t.SumInv :=
  step_keeps sumInv_arrayPart h fun host sched _ he =>
    he.sumInv (hc.withAgents host sched) hw ((sumInv_iff _).mpr ((sumInv_iff s).mp hs))

end Sys2Proof.Machine

open Sys2Proof Sys2Proof.Machine

/-- Settles O59: each effect keeps the invariant on each channel; the control invariant gives it HLEN at most HMAX and the
places of HFILL and the cursors. -/
theorem stepKeepsSumInvariant : Obligations.StepKeepsSumInvariant := by
  unfold Obligations.StepKeepsSumInvariant
  exact fun s t hc hw hs h => step_sumInv h hc hw hs

end

section
/-! The spectrum under ARITH = exact (10_state.md R47, 43_spectrum.md R184, R187): while OPEN every cell is a combination
of cosines, since sums, products and rational quotients of such are; a pass adds a sum of squares over a positive
number, and ACC_FINAL takes the roots of values that are at least 0. -/

namespace Sys2Proof

/-! ## Plain combinations of cosines -/

/-- The value is written as a plain combination of cosines. -/
def SVal.IsTrig (x : SVal) : Prop := ∃ a, x = .trig a

namespace SVal

theorem isTrig_ofRat (q : Rat) : (ofRat q).IsTrig := ⟨_, rfl⟩

theorem isTrig_zero : zero.IsTrig := ⟨_, rfl⟩

theorem IsTrig.proper {x : SVal} (h : x.IsTrig) : x.Proper := by
  obtain ⟨a, rfl⟩ := h
  trivial

theorem IsTrig.plus {x y : SVal} (hx : x.IsTrig) (hy : y.IsTrig) : (x.plus y).IsTrig := by
  obtain ⟨a, rfl⟩ := hx
  obtain ⟨b, rfl⟩ := hy
  exact ⟨_, rfl⟩

theorem IsTrig.times {x y : SVal} (hx : x.IsTrig) (hy : y.IsTrig) : (x.times y).IsTrig := by
  obtain ⟨a, rfl⟩ := hx
  obtain ⟨b, rfl⟩ := hy
  exact ⟨_, rfl⟩

theorem IsTrig.over_ofRat {x : SVal} (hx : x.IsTrig) {q : Rat} (hq : q ≠ 0) : (x.over (ofRat q)).IsTrig := by
  obtain ⟨a, rfl⟩ := hx
  have hrat : (Trig.ofRat q).rat? = some q := by simp [Trig.ofRat, hq, Trig.rat?]
  refine ⟨a.scale (1 / q), ?_⟩
  simp only [SVal.over, ofRat, hrat, if_neg hq]

theorem isTrig_getD {f : List SVal} (hf : ∀ x ∈ f, x.IsTrig) (k : Nat) : (f.getD k zero).IsTrig := by
  rw [List.getD_eq_getElem?_getD]
  cases hk : f[k]? with
  | none => exact isTrig_zero
  | some x => exact hf x (List.mem_of_getElem? hk)

end SVal

theorem isTrig_cosineSum {us : List SVal} (h : ∀ u ∈ us, u.IsTrig) (len k n : Nat) :
    (cosineSum len k n us).IsTrig := by
  induction us generalizing n with
  | nil => exact SVal.isTrig_zero
  | cons u us ih =>
    obtain ⟨hu, hus⟩ := List.forall_mem_cons.mp h
    exact (ih hus (n + 1)).plus (hu.times ⟨_, rfl⟩)

theorem isTrig_sineSum {us : List SVal} (h : ∀ u ∈ us, u.IsTrig) (len k n : Nat) :
    (sineSum len k n us).IsTrig := by
  induction us generalizing n with
  | nil => exact SVal.isTrig_zero
  | cons u us ih =>
    obtain ⟨hu, hus⟩ := List.forall_mem_cons.mp h
    exact (ih hus (n + 1)).plus (hu.times ⟨_, rfl⟩)

theorem isTrig_exactFft {us : List SVal} (h : ∀ u ∈ us, u.IsTrig) (sineNegated : Bool) :
    ∀ x ∈ exactFft sineNegated us, x.IsTrig := by
  intro x hx
  obtain ⟨j, -, rfl⟩ := List.mem_map.mp hx
  by_cases hj : j ≤ us.length / 2
  · rw [if_pos hj]
    exact isTrig_cosineSum h _ _ _
  · rw [if_neg hj]
    exact (SVal.isTrig_ofRat _).times (isTrig_sineSum h _ _ _)

end Sys2Proof

namespace Sys2Proof.Machine

theorem isTrig_windowed (sineNegated : Bool) (len n : Nat) (xs : List Rat) :
    ∀ u ∈ windowed (ArithOps.exact sineNegated) len n xs, u.IsTrig := by
  induction xs generalizing n with
  | nil => simp [windowed]
  | cons x xs ih =>
    refine List.forall_mem_cons.mpr ⟨?_, ih (n + 1)⟩
    exact (SVal.isTrig_ofRat x).times ((SVal.isTrig_ofRat 1).plus ⟨_, rfl⟩)

/-! ## Cells -/

/-- A cell of the spectrum as the invariant has it (10_state.md R47). -/
structure Cell (phase : AccPhase) (x : SVal) : Prop where
  proper : x.Proper
  nonneg : 0 ≤ x.val
  opened : phase = .opened → x.IsTrig

theorem cell_of_isTrig {x : SVal} (h : x.IsTrig) (h0 : 0 ≤ x.val) (phase : AccPhase) : Cell phase x :=
  ⟨h.proper, h0, fun _ => h⟩

theorem cell_zero (phase : AccPhase) : Cell phase .zero := cell_of_isTrig SVal.isTrig_zero SVal.val_zero.ge phase

theorem cell_square {x : SVal} (h : x.IsTrig) : Cell .opened (x.times x) := by
  refine cell_of_isTrig (h.times h) ?_ _
  rw [SVal.val_times h.proper]
  exact mul_self_nonneg _

theorem Cell.plus {x y : SVal} (hx : Cell .opened x) (hy : Cell .opened y) : Cell .opened (x.plus y) := by
  refine cell_of_isTrig ((hx.opened rfl).plus (hy.opened rfl)) ?_ _
  rw [SVal.val_plus]
  exact add_nonneg hx.nonneg hy.nonneg

theorem Cell.over_ofRat {x : SVal} (hx : Cell .opened x) {q : Rat} (hq : 0 < q) : Cell .opened (x.over (.ofRat q)) := by
  refine cell_of_isTrig ((hx.opened rfl).over_ofRat hq.ne') ?_ _
  rw [SVal.val_over, SVal.val_ofRat]
  exact div_nonneg hx.nonneg (by exact_mod_cast hq.le)

/-- The root of a cell of an open spectrum is a proper one (43_spectrum.md R187). -/
theorem Cell.root {x : SVal} (hx : Cell .opened x) : Cell .final x.root := by
  obtain ⟨a, rfl⟩ := hx.opened rfl
  refine ⟨?_, by rw [SVal.val_root]; exact Real.sqrt_nonneg _, by simp⟩
  have hone : (Trig.ofRat 1).rat? = some 1 := rfl
  simp only [SVal.root, mkRootQuot, hone, if_pos one_pos]
  split
  · trivial
  · exact ⟨by simpa using hx.nonneg, by simp⟩

/-- The power a pass adds is a square or a sum of two, over a positive number (43_spectrum.md R184). -/
theorem cell_power {f : List SVal} (hf : ∀ x ∈ f, x.IsTrig) (sineNegated : Bool) {len nAvg : Nat} (hlen : 0 < len)
    (hnAvg : 0 < nAvg) (k : Nat) : Cell .opened (power (ArithOps.exact sineNegated) f len nAvg k) := by
  have hcosine := cell_square (SVal.isTrig_getD hf k)
  have hsine := cell_square (SVal.isTrig_getD hf (k + len / 2))
  by_cases hk : k = 0 ∨ k = len / 2
  · rw [power, if_pos hk]
    exact hcosine.over_ofRat (by positivity)
  · rw [power, if_neg hk]
    exact (hcosine.plus hsine).over_ofRat (by positivity)

/-- The spectrum of one channel. -/
def Cells (phase : AccPhase) (m : Memory SVal) : Prop := ∀ k, Cell phase (Memory.read .zero m k)

theorem cells_nil (phase : AccPhase) : Cells phase [] := fun _ => cell_zero phase

theorem Cells.accumulate {m : Memory SVal} (h : Cells .opened m) (hw : Memory.wf .zero m = true) (sineNegated : Bool)
    {len nAvg : Nat} (hlen : 0 < len) (hnAvg : 0 < nAvg) (xs : List Rat) :
    Cells .opened (accumulate (ArithOps.exact sineNegated) len nAvg xs m) := by
  have hfft := isTrig_exactFft (isTrig_windowed sineNegated len 0 xs) sineNegated
  intro k
  rw [accumulate_read _ _ _ _ hw]
  split_ifs
  · exact (h k).plus (cell_power hfft sineNegated hlen hnAvg k)
  · exact h k

/-- The cells past the roots taken stay what they were, which ACC_FINAL asks less of. -/
theorem Cells.takeRoots {m : Memory SVal} (h : Cells .opened m) (hw : Memory.wf .zero m = true) (sineNegated : Bool)
    (len : Nat) : Cells .final (takeRoots (ArithOps.exact sineNegated) len m) := by
  intro k
  rw [takeRoots_read _ _ hw]
  split_ifs
  · exact (h k).root
  · exact ⟨(h k).proper, (h k).nonneg, by simp⟩

theorem Cells.closed {phase : AccPhase} {m : Memory SVal} (h : Cells phase m) : Cells .none m :=
  fun k => ⟨(h k).proper, (h k).nonneg, by simp⟩

/-! ## Every step keeps it -/

theorem exactSpectrum_iff (s : State) : s.ExactSpectrum ↔ Cells s.accst s.spec0 ∧ Cells s.accst s.spec1 where
  mp h := ⟨fun k => ⟨h.proper .left k, h.nonneg .left k, fun ho => h.opened ho .left k⟩,
    fun k => ⟨h.proper .right k, h.nonneg .right k, fun ho => h.opened ho .right k⟩⟩
  mpr h := by
    have hcell : ∀ c k, Cell s.accst (s.bin c k) := by
      rintro (_ | _)
      · exact h.1
      · exact h.2
    exact ⟨fun c k => (hcell c k).proper, fun c k => (hcell c k).nonneg, fun ho c k => (hcell c k).opened ho⟩

/-- The input's operations leave the spectrum alone. -/
theorem InputEffect.spectrum {s u : State} (h : InputEffect s u) :
    u.accst = s.accst ∧ u.spec0 = s.spec0 ∧ u.spec1 = s.spec1 := by
  cases h <;> simp [State.hpfStart]

theorem CommandEffect.exactSpectrum {s u : State} {sineNegated : Bool} (h : CommandEffect s u)
    (ha : s.params.arith = .exact sineNegated) (hc : s.ControlInv) (hw : s.arraysCanonical = true)
    (hs : s.ExactSpectrum) : u.ExactSpectrum := by
  obtain ⟨-, -, hw0, hw1⟩ := (arraysCanonical_iff s).mp hw
  have harith : s.arith = ArithOps.exact sineNegated := by rw [State.arith, ha, Arithmetic.ops]
  rw [exactSpectrum_iff] at hs ⊢
  cases h with
  | input h =>
    obtain ⟨hst, hspec0, hspec1⟩ := h.spectrum
    rwa [hst, hspec0, hspec1]
  | outputs => exact hs
  | clears => exact ⟨cells_nil _, cells_nil _⟩
  | accumulates xs ho =>
    have hopen := ho hc.progress
    obtain ⟨⟨l, -, -, hn⟩, -, hnavg, -⟩ := hc.accOpen (by simp [hopen])
    have hlen : 0 < s.accn.toNat := by rw [hn]; positivity
    have hnAvg : 0 < s.accnavg.toNat := by bv_omega
    rw [hopen] at hs
    simp only [State.accPass, harith, hopen]
    exact ⟨hs.1.accumulate hw0 sineNegated hlen hnAvg _, hs.2.accumulate hw1 sineNegated hlen hnAvg _⟩
  | finalizes ho =>
    rw [ho hc.progress] at hs
    simp only [State.accFinal, harith]
    exact ⟨hs.1.takeRoots hw0 sineNegated _, hs.2.takeRoots hw1 sineNegated _⟩
  | reduces ch => cases ch <;> exact hs

theorem ArrayEffect.exactSpectrum {s u : State} {sineNegated : Bool} (h : ArrayEffect s u)
    (ha : s.params.arith = .exact sineNegated) (hc : s.ControlInv) (hw : s.arraysCanonical = true)
    (hs : s.ExactSpectrum) : u.ExactSpectrum := by
  obtain ⟨hs0, hs1⟩ := (exactSpectrum_iff s).mp hs
  cases h with
  | command h => exact h.exactSpectrum ha hc hw hs
  | beginSrst => exact (exactSpectrum_iff _).mpr ⟨hs0.closed, hs1.closed⟩
  | hardwareReset | endInit => exact (exactSpectrum_iff _).mpr ⟨cells_nil _, cells_nil _⟩

theorem exactSpectrum_arrayPart (s : State) : s.arrayPart.ExactSpectrum ↔ s.ExactSpectrum := by
  rw [exactSpectrum_iff, exactSpectrum_iff]
  rfl

theorem step_exactSpectrum {s t : State} {sineNegated : Bool} (h : step s = .next t)
    (ha : s.params.arith = .exact sineNegated) (hc : s.ControlInv) (hw : s.arraysCanonical = true)
    (hs : s.ExactSpectrum) : t.ExactSpectrum :=
  step_keeps exactSpectrum_arrayPart h fun host sched _ he =>
    he.exactSpectrum ha (hc.withAgents host sched) hw ((exactSpectrum_iff _).mpr ((exactSpectrum_iff s).mp hs))

end Sys2Proof.Machine

open Sys2Proof Sys2Proof.Machine

/-- Settles O60: the control invariant says that a pass is gathered and the roots are taken only while the accumulator is
OPEN, where every cell is a plain combination of cosines. -/
theorem stepKeepsSpectrumNonNegative : Obligations.StepKeepsSpectrumNonNegative := by
  unfold Obligations.StepKeepsSpectrumNonNegative
  exact fun s t _ ha hc hw hs h => step_exactSpectrum h ha hc hw hs

end

section
/-! The state after hardware reset (10_state.md R53), and a sequencer turn as the running command's step (20_memory.md
R85). -/

namespace Sys2Proof.Machine

theorem reset_sumInv : State.reset.SumInv := (sumInv_iff _).mpr ⟨sumInv_reset _, sumInv_reset _⟩

theorem reset_exactSpectrum : State.reset.ExactSpectrum := (exactSpectrum_iff _).mpr ⟨cells_nil _, cells_nil _⟩

theorem step_of_sequencer {s : State} (h : s.turn = .sequencer) : step s = seqStep s.takeTurn := by
  rw [step, agentStep, h]

theorem seqStep_of_busy {s : State} {w : Word} {p : Progress} {i : Instr} (h : s.seq = .busy w p)
    (hw : decode w = .ok i) : seqStep s = exec i s := by
  simp only [seqStep, h, hw]

end Sys2Proof.Machine

open Sys2Proof Sys2Proof.Machine

/-- Settles O5: the turn is the sequencer's, and taking it leaves SEQ as it is. -/
theorem stepRunsTheDecodedCommand : Obligations.StepRunsTheDecodedCommand := by
  unfold Obligations.StepRunsTheDecodedCommand
  intro s w p i hturn hseq hw
  rw [step_of_sequencer hturn]
  exact seqStep_of_busy (s := s.takeTurn) hseq hw

/-- Settles O56: at reset the filter and the accumulator are in their initial phases and the arrays are empty. -/
theorem resetMeetsTheInvariants : Obligations.ResetMeetsTheInvariants := by
  unfold Obligations.ResetMeetsTheInvariants
  exact ⟨reset_controlInv, rfl, reset_sumInv, reset_exactSpectrum⟩

end

section
/-! A host turn (20_memory.md R70, R71, R85): an access of the interface is made, any other is refused. -/

namespace Sys2Proof.Machine

theorem accessRefused_none {a : Nat} (ha : a % 4 = 0) (hw : a < 0x400000) : accessRefused a 4 = none := by
  rw [accessRefused, if_neg (by simp [ha]), if_neg (Nat.not_le.mpr hw)]

theorem accessRefused_odd {a width : Nat} (h : width ≠ 4 ∨ a % 4 ≠ 0) :
    accessRefused a width = some (.badAccess a width) := if_pos h

theorem step_of_host {s : State} (h : s.turn = .host) : step s = hostStep s.takeTurn := by
  rw [step, agentStep, h]

theorem hostStep_read {s : State} {a width : Nat} {rest : List HostOp} (h : s.host = .read a width :: rest)
    (hok : accessRefused a width = none) : hostStep s = .next ({ s with host := rest }.hostRead a) := by
  simp only [hostStep, h, hok]

theorem hostStep_write {s : State} {a width : Nat} {v : Word} {rest : List HostOp}
    (h : s.host = .write a width v :: rest) (hok : accessRefused a width = none) :
    hostStep s = .next ({ s with host := rest }.memWrite a v) := by
  simp only [hostStep, h, hok]

theorem hostStep_refused {s : State} {a width : Nat} {rest : List HostOp} {r : Refusal}
    (h : s.host = .read a width :: rest ∨ ∃ v, s.host = .write a width v :: rest)
    (hr : accessRefused a width = some r) : hostStep s = .refused r := by
  obtain h | ⟨v, h⟩ := h <;> simp only [hostStep, h, hr]

/-- A read changes the model's count of draws at most (20_memory.md R76). -/
theorem memRead_frame (s : State) (a : Nat) : { (s.memRead a).2 with draws := s.draws } = s := by
  unfold State.memRead
  split_ifs <;> rfl

theorem memRead_reads (s : State) (a : Nat) : (s.memRead a).2.reads = s.reads :=
  (congrArg State.reads (memRead_frame s a) :)

end Sys2Proof.Machine

open Sys2Proof Sys2Proof.Machine

/-- Settles O6: an aligned 32-bit access inside the window is not refused, and taking the turn changes the schedule
alone. -/
theorem stepMakesTheHostAccess : Obligations.StepMakesTheHostAccess := by
  unfold Obligations.StepMakesTheHostAccess
  intro s a rest hturn ha hw
  have hok := accessRefused_none ha hw
  rw [step_of_host hturn]
  refine ⟨fun v hs => hostStep_write (s := s.takeTurn) hs hok, fun hs => ?_⟩
  rw [hostStep_read (s := s.takeTurn) hs hok, State.hostRead, memRead_reads]
  rfl

/-- Settles O51: the host's step asks for the width and the alignment before anything else. -/
theorem oddAccessesAreRefused : Obligations.OddAccessesAreRefused := by
  unfold Obligations.OddAccessesAreRefused
  intro s a width rest hturn hodd
  have hbad := accessRefused_odd hodd
  rw [step_of_host hturn]
  exact ⟨fun hs => hostStep_refused (s := s.takeTurn) (.inl hs) hbad,
    fun v hs => hostStep_refused (s := s.takeTurn) (.inr ⟨v, hs⟩) hbad⟩

end

section
/-! The parameters (00_scope.md R9) across a step: no effect of a command, no move of SEQ and no host access writes them,
so that ID, PARAM and HMAXR never change (20_memory.md R73). -/

namespace Sys2Proof.Machine

theorem InputEffect.params {s u : State} (h : InputEffect s u) : u.params = s.params := by
  cases h with
  | preloads rest vL vR => exact State.hpfPreload_params _ vL vR
  | _ => rfl

theorem CommandEffect.params {s u : State} (h : CommandEffect s u) : u.params = s.params := by
  cases h with
  | input h => exact h.params
  | reduces ch => cases ch <;> rfl
  | _ => rfl

theorem CommandStep.params {i : Instr} {s t : State} (h : CommandStep i s t) : t.params = s.params := by
  obtain ⟨u, he, hmove⟩ := h
  have hu := he.params
  cases hmove <;> exact hu

theorem seqStep_params {s t : State} (h : seqStep s = .next t) : t.params = s.params := by
  rcases seqStep_cases h with ⟨-, rfl⟩ | ⟨b, -, rfl⟩ | ⟨n, b, -, rfl⟩ | ⟨w, p, i, -, -, he⟩ | ⟨w, p, e, -, -, rfl⟩
  case inr.inr.inr.inl =>
    by_cases hi : i = .srst
    · subst hi
      cases he
      rfl
    · exact (exec_step hi he).params
  all_goals rfl

theorem dispatch_params (s : State) (w : Word) : (s.dispatch w).params = s.params := by
  rcases dispatch_cases s w with h | h | h | ⟨-, -, h | ⟨i, -, -, h⟩⟩ <;> rw [h] <;> rfl

theorem memWrite_params (s : State) (a : Nat) (v : Word) : (s.memWrite a v).params = s.params := by
  rcases memWrite_cases s a v with ⟨w, h⟩ | ⟨w, h⟩ | ⟨b, h⟩ | ⟨cfg, ovr, eos, h⟩ <;> rw [h]
  · exact dispatch_params s w
  · rfl
  · rcases push_cases s b with h | ⟨-, h⟩ <;> rw [h]

theorem hostRead_params (s : State) (a : Nat) : (s.hostRead a).params = s.params := by
  obtain ⟨reads, draws, h⟩ := hostRead_eq s a
  rw [h]

theorem hostStep_params {s t : State} (h : hostStep s = .next t) : t.params = s.params := by
  rcases hostStep_cases h with ⟨-, rfl⟩ | ⟨a, rest, -, -, -, rfl⟩ | ⟨a, v, rest, -, -, -, rfl⟩ | ⟨rest, -, rfl⟩ |
    ⟨rest, -, rfl⟩
  · rfl
  · exact hostRead_params _ a
  · exact memWrite_params _ a v
  · exact hostRead_params _ _
  · rfl

theorem step_params {s t : State} (h : step s = .next t) : t.params = s.params := by
  rcases step_cases h with ⟨-, h⟩ | ⟨-, h⟩
  · exact (seqStep_params h).trans s.takeTurn_params
  · exact (hostStep_params h).trans s.takeTurn_params

/-! ## Reads -/

/-- A read while BUSY = 0, or of a register that is not volatile, has the register's value (20_memory.md R76, R81). -/
theorem memRead_value {s : State} {a : Nat} (h : s.busy = false ∨ (regAt a).isVolatile = false) :
    (s.memRead a).1 = s.regValue (regAt a) := by
  rw [memRead_exact h]

/-- The fields of PARAM do not overlap (20_memory.md R73). -/
theorem paramWord_toNat {p : Params} (hd : p.fifoDepth < 2 ^ 16) (hl : p.log2nMax < 2 ^ 5) :
    (Params.paramWord p).toNat = 2 ^ 16 * p.fifoDepth + p.log2nMax := by
  have hz : (0 : BitVec 11).toNat = 0 := rfl
  rw [Params.paramWord, BitVec.toNat_append, BitVec.toNat_append, BitVec.toNat_ofNat, BitVec.toNat_ofNat, hz,
    Nat.mod_eq_of_lt hd, Nat.mod_eq_of_lt hl, Nat.or_zero, ← Nat.shiftLeft_add_eq_or_of_lt hl, Nat.shiftLeft_eq,
    Nat.shiftLeft_eq]
  omega

end Sys2Proof.Machine

open Sys2Proof Sys2Proof.Machine

/-- Settles O54: the three words are functions of the parameters, whose legal values fit their fields and which no step
changes. -/
theorem identificationIsConstant : Obligations.IdentificationIsConstant := by
  unfold Obligations.IdentificationIsConstant
  refine ⟨fun s hlegal => ?_, fun s t => step_params⟩
  obtain ⟨-, hl, -, hh, -, hd⟩ := of_decide_eq_true hlegal
  refine ⟨memRead_value (.inr rfl), ?_, ?_⟩
  · rw [memRead_value (.inr rfl)]
    exact paramWord_toNat (by omega) (by omega)
  · rw [memRead_value (.inr rfl)]
    exact Nat.mod_eq_of_lt (by omega)

end

section
/-! What the registers read (20_memory.md R72, R74, R75, R79, R81): the register at each offset of the map is found by
evaluating it, the cells of the windows by the laws of `regAt`. -/

namespace Sys2Proof.Machine

theorem half_hi_append_lo (v : Dword) : Half.hi.of v ++ Half.lo.of v = v :=
  (BitVec.extractLsb'_append_extractLsb'_eq_extractLsb' rfl).trans BitVec.extractLsb'_eq_self

/-- The two words of a 64-bit register make its value (20_memory.md R79). -/
theorem read64_eq {s : State} {a : Nat} {v : Dword} (hb : s.busy = false)
    (hlo : s.regValue (regAt a) = Half.lo.of v) (hhi : s.regValue (regAt (a + 4)) = Half.hi.of v) :
    s.read64 a = v := by
  rw [State.read64, memRead_value (.inl hb), memRead_value (.inl hb), hlo, hhi, half_hi_append_lo]

theorem windowAt_volatile {a : Nat} (hlo : 0x100000 ≤ a) (hhi : a < 0x300000) : (windowAt a).isVolatile = true := by
  unfold windowAt
  split_ifs with hspec hhbuf
  · rfl
  · rfl
  · omega

/-! ## The fields of a word -/

theorem extractLsb'_append_low {h k : Nat} (hi : BitVec h) (lo : BitVec k) : (hi ++ lo).extractLsb' 0 k = lo :=
  (BitVec.extractLsb'_append_eq_of_add_le (by omega)).trans BitVec.extractLsb'_eq_self

theorem getLsbD_append_bit_zero {n : Nat} (x : BitVec n) (b : Bool) : (x ++ BitVec.ofBool b).getLsbD 0 = b := by
  rw [BitVec.getLsbD_append]
  simp

theorem getLsbD_append_bit_succ {n : Nat} (x : BitVec n) (b : Bool) (i : Nat) :
    (x ++ BitVec.ofBool b).getLsbD (i + 1) = x.getLsbD i := by
  rw [BitVec.getLsbD_append]
  simp

theorem inctrlWord_eos (s : State) : s.inctrlWord.getLsbD 0 = s.eos := getLsbD_append_bit_zero _ _

theorem inctrlWord_full (s : State) : s.inctrlWord.getLsbD 1 = decide (s.level = s.params.fifoDepth) :=
  (getLsbD_append_bit_succ _ _ 0).trans (getLsbD_append_bit_zero _ _)

theorem inctrlWord_level (s : State) : s.inctrlWord.extractLsb' 16 16 = BitVec.ofNat 16 s.level := by
  unfold State.inctrlWord
  repeat rw [BitVec.extractLsb'_append_eq_of_le (by decide)]
  exact BitVec.extractLsb'_eq_self

end Sys2Proof.Machine

open Sys2Proof Sys2Proof.Machine

/-- Settles O50: `memRead` has two cases, the free value of a volatile register while BUSY = 1 and the register's own, and
the register at each offset is the one the map names. -/
theorem readsHaveNoSideEffect : Obligations.ReadsHaveNoSideEffect := by
  unfold Obligations.ReadsHaveNoSideEffect
  intro s a
  have exact_at {b : Nat} (h : s.busy = false ∨ (regAt b).isVolatile = false) :
      (s.memRead b).1 = s.regValue (regAt b) ∧ (s.memRead b).2 = s := by
    rw [memRead_exact h]
    exact ⟨rfl, rfl⟩
  refine ⟨memRead_frame s a, fun hb => exact_at (.inl hb), fun b hb => exact_at (.inr ?_), fun hb ha => ?_,
    memRead_value (.inr rfl), memRead_value (.inr rfl), memRead_value (.inr rfl), memRead_value (.inr rfl),
    memRead_value (.inr rfl), memRead_value (.inr rfl), memRead_value (.inr rfl), memRead_value (.inr rfl),
    memRead_value (.inr rfl), memRead_value (.inr rfl), memRead_value (.inr rfl), ?_, ?_, ?_, fun hb => ?_⟩
  · revert b
    decide
  · refine memRead_volatile hb ?_
    rcases ha with hlow | ⟨hlo, hhi⟩
    · revert a
      decide
    · rw [regAt_window (by omega)]
      exact windowAt_volatile hlo hhi
  · rw [memRead_value (.inr rfl)]
    exact inctrlWord_eos s
  · rw [memRead_value (.inr rfl)]
    exact inctrlWord_full s
  · rw [memRead_value (.inr rfl)]
    exact inctrlWord_level s
  · have value (b : Nat) : (s.memRead b).1 = s.regValue (regAt b) := memRead_value (.inl hb)
    exact ⟨value 0x038, value 0x044, value 0x048, value 0x04C, value 0x050, value 0x054, value 0x058, value 0x05C,
      value 0x060, value 0x064, read64_eq hb rfl rfl, read64_eq hb rfl rfl, read64_eq hb rfl rfl, read64_eq hb rfl rfl,
      read64_eq hb rfl rfl, read64_eq hb rfl rfl, read64_eq hb rfl rfl, read64_eq hb rfl rfl, read64_eq hb rfl rfl,
      read64_eq hb rfl rfl, read64_eq hb rfl rfl, read64_eq hb rfl rfl, read64_eq hb rfl rfl, read64_eq hb rfl rfl⟩

/-- Settles O53: the offset names the cell, whose word it reads and whose write does nothing. -/
theorem windowsReadTheArrays : Obligations.WindowsReadTheArrays := by
  unfold Obligations.WindowsReadTheArrays
  intro s c v
  refine ⟨fun k hk => ?_, fun i hi => ?_⟩
  · have hlo := regAt_spec_lo c hk
    have hhi := regAt_spec_hi c hk
    refine ⟨fun hb => ⟨?_, ?_⟩, ?_, ?_⟩
    · rw [memRead_value (.inl hb), hlo]
      rfl
    · rw [memRead_value (.inl hb), hhi]
      rfl
    · rw [State.memWrite, hlo]
      rfl
    · rw [State.memWrite, hhi]
      rfl
  · have hcell := regAt_hbuf c hi
    refine ⟨fun hb => ?_, ?_⟩
    · rw [memRead_value (.inl hb), hcell]
      rfl
    · rw [State.memWrite, hcell]
      rfl

end

section
/-! What a write of a register can do (20_memory.md R77, R78): each register's defined bits, the rest of the written value
being ignored, and for a configuration register what it holds afterwards. -/

namespace Sys2Proof.Machine

/-! ## Masks -/

theorem and_lowMask {n : Nat} {m : Word} (hm : m.toNat = 2 ^ n - 1) (v : Word) :
    v &&& m = (v.setWidth n).setWidth 32 := by
  apply BitVec.eq_of_toNat_eq
  rw [BitVec.toNat_and, hm, Nat.and_two_pow_sub_one_eq_mod, BitVec.toNat_setWidth, BitVec.toNat_setWidth]
  exact (Nat.mod_eq_of_lt ((Nat.mod_le _ _).trans_lt v.isLt)).symm

theorem setWidth_and_lowMask {n : Nat} {m : Word} (hm : m.toNat = 2 ^ n - 1) (v : Word) :
    (v &&& m).setWidth n = v.setWidth n := by
  apply BitVec.eq_of_toNat_eq
  rw [BitVec.toNat_setWidth, BitVec.toNat_and, hm, Nat.and_two_pow_sub_one_eq_mod, Nat.mod_mod,
    BitVec.toNat_setWidth]

theorem and_allBits (v : Word) : v &&& 0xFFFFFFFF#32 = v := BitVec.and_allOnes

theorem extractLsb'_setWidth_above {n k w : Nat} (x : BitVec n) : (x.setWidth w).extractLsb' n k = 0 := by
  apply BitVec.eq_of_getLsbD_eq
  simp

/-! ## Defined bits -/

/-- The bits of a written value that the register takes (10_state.md R33, R35, R38, R39; 20_memory.md R72). -/
def Reg.writtenBits : Reg → Word
  | .ctrl | .log2n => 0x1F#32
  | .halfw _       => 0xFFFF#32
  | .status        => 0x1C#32
  | .din           => 0xFF#32
  | .inctrl        => 1#32
  | _              => 0xFFFFFFFF#32

/-- A write takes the register's defined bits alone. -/
theorem writeReg_masked (s : State) (r : Reg) (v : Word) : s.writeReg r (v &&& r.writtenBits) = s.writeReg r v := by
  have low5 := setWidth_and_lowMask (n := 5) (m := 0x1F#32) rfl v
  have low16 := setWidth_and_lowMask (n := 16) (m := 0xFFFF#32) rfl v
  cases r with
  | ctrl | log2n => simp only [State.writeReg, Reg.writtenBits, low5]
  | halfw c => cases c <;> simp only [State.writeReg, Reg.writtenBits, low16]
  | status => simp [State.writeReg, State.writeStatus, Reg.writtenBits]
  | din => simp only [State.writeReg, Reg.writtenBits, setWidth_and_lowMask (n := 8) (m := 0xFF#32) rfl v]
  | inctrl => simp [State.writeReg, State.writeInctrl, Reg.writtenBits]
  | _ => exact congrArg _ (and_allBits v)

/-- Whether a write of the register can have an effect (20_memory.md R72, R77). -/
def Reg.isWritable (r : Reg) : Bool :=
  r.isConfiguration || decide (r = .cmd ∨ r = .status ∨ r = .din ∨ r = .inctrl)

theorem writeReg_readOnly (s : State) {r : Reg} (v : Word) (h : r.isWritable = false) : s.writeReg r v = s := by
  cases r <;> first | rfl | cases h

/-! ## The configuration registers -/

theorem writeReg_configuration {r : Reg} (h : r.isConfiguration = true) (s : State) (v : Word) :
    ∃ c, s.writeReg r v = s.writeCfg c := by
  cases r with
  | ctrl | srate | log2n | navg => exact ⟨_, rfl⟩
  | tfreq c | halfw c => cases c <;> exact ⟨_, rfl⟩
  | _ => cases h

theorem writeCfg_idle {s : State} (hb : s.busy = false) (c : Cfg) : s.writeCfg c = { s with cfg := c } := by
  rw [State.writeCfg, hb]
  rfl

theorem writeCfg_busy {s : State} (hb : s.busy = true) (c : Cfg) : s.writeCfg c = { s with ovr := true } := by
  rw [State.writeCfg, if_pos hb]

theorem regValue_writeReg_same {s : State} {r : Reg} (hr : r.isConfiguration = true) (hb : s.busy = false) (v : Word) :
    (s.writeReg r v).regValue r = v &&& r.writtenBits := by
  have low5 := and_lowMask (n := 5) (m := 0x1F#32) rfl v
  have low16 := and_lowMask (n := 16) (m := 0xFFFF#32) rfl v
  cases r with
  | ctrl | log2n => rw [State.writeReg, writeCfg_idle hb]; exact low5.symm
  | srate | navg => rw [State.writeReg, writeCfg_idle hb]; exact (and_allBits v).symm
  | tfreq c => cases c <;> rw [State.writeReg, writeCfg_idle hb] <;> exact (and_allBits v).symm
  | halfw c => cases c <;> rw [State.writeReg, writeCfg_idle hb] <;> exact low16.symm
  | _ => cases hr

theorem regValue_writeReg_other {s : State} {r q : Reg} (hr : r.isConfiguration = true) (hq : q.isConfiguration = true)
    (hne : q ≠ r) (hb : s.busy = false) (v : Word) : (s.writeReg r v).regValue q = s.regValue q := by
  have keeps (c : Cfg) (hc : { s with cfg := c }.regValue q = s.regValue q) :
      (s.writeCfg c).regValue q = s.regValue q := by
    rwa [writeCfg_idle hb]
  cases r with
  | ctrl | srate | log2n | navg =>
    refine keeps _ ?_
    cases q with
    | tfreq d | halfw d => cases d <;> rfl
    | _ => first | rfl | exact absurd rfl hne | cases hq
  | tfreq c | halfw c =>
    cases c <;> refine keeps _ ?_ <;> cases q with
    | tfreq d | halfw d => cases d <;> first | rfl | exact absurd rfl hne
    | _ => rfl
  | _ => cases hr

/-- Two offsets below the windows that name the same register are the same. -/
theorem eq_of_regAt_eq {a b : Nat} (ha : a < 0x108) (hb : b < 0x108) (hr : regAt a ≠ .reserved)
    (h : regAt a = regAt b) : a = b := by
  rw [regAt_low ha] at h hr
  rw [regAt_low hb] at h
  rw [← lowRegAt_offset a ha hr, h, lowRegAt_offset b hb (h ▸ hr)]

/-! ## Offsets without a register -/

theorem lowRegAt_gap : ∀ a, a < 0x108 →
    (0x078 ≤ a ∧ a < 0x080) ∨ (0x090 ≤ a ∧ a < 0x0A0) ∨ (0x0C8 ≤ a ∧ a < 0x0E0) → lowRegAt a = .reserved := by
  decide +kernel

/-- The offsets that 20_memory.md R72 does not list hold no register (R78). -/
theorem regAt_gap {a : Nat} (h : (0x078 ≤ a ∧ a < 0x080) ∨ (0x090 ≤ a ∧ a < 0x0A0) ∨ (0x0C8 ≤ a ∧ a < 0x0E0) ∨
    (0x108 ≤ a ∧ a < 0x100000) ∨ (0x300000 ≤ a ∧ a < 0x400000)) : regAt a = .reserved := by
  by_cases ha : a < 0x108
  · rw [regAt_low ha]
    exact lowRegAt_gap a ha (by omega)
  · exact regAt_outside (by omega) (by omega)

/-! ## Reserved bits as read -/

theorem paramWord_reserved (p : Params) : (Params.paramWord p).extractLsb' 5 11 = 0 := by
  unfold Params.paramWord
  rw [BitVec.extractLsb'_append_eq_of_le (by decide)]
  exact extractLsb'_append_low _ _

theorem inctrlWord_reserved (s : State) : s.inctrlWord.extractLsb' 2 14 = 0 := by
  unfold State.inctrlWord
  repeat rw [BitVec.extractLsb'_append_eq_of_le (by decide)]
  exact extractLsb'_append_low _ _

theorem statusWord_reserved_low (s : State) : s.statusWord.extractLsb' 5 3 = 0 := by
  unfold State.statusWord
  repeat rw [BitVec.extractLsb'_append_eq_of_le (by decide)]
  exact extractLsb'_append_low _ _

theorem statusWord_reserved_high (s : State) : s.statusWord.extractLsb' 21 11 = 0 := by
  unfold State.statusWord
  repeat rw [BitVec.extractLsb'_append_eq_of_le (by decide)]
  exact BitVec.extractLsb'_eq_self

end Sys2Proof.Machine

open Sys2Proof Sys2Proof.Machine

/-- Settles O48: the eight offsets are those of configuration registers, each of which is written alone, masked to its
defined bits, while BUSY = 0. -/
theorem configurationWrites : Obligations.ConfigurationWrites := by
  unfold Obligations.ConfigurationWrites
  intro s v
  have configuration : ∀ a ∈ [0x00C, 0x010, 0x014, 0x018, 0x01C, 0x020, 0x024, 0x028], a < 0x108 ∧
      regAt a ≠ .reserved ∧ (regAt a).isVolatile = false ∧ (regAt a).isConfiguration = true ∧ (regAt a).writtenBits =
        if a = 0x00C ∨ a = 0x014 then 0x1F#32 else if a = 0x024 ∨ a = 0x028 then 0xFFFF#32 else 0xFFFFFFFF#32 := by
    decide
  refine ⟨fun hb a ha => ?_, fun hb => ⟨fun a ha => ⟨?_, ?_⟩, fun a ha b hb' hne => ?_⟩⟩
  · obtain ⟨-, -, -, hcfg, -⟩ := configuration a ha
    obtain ⟨c, hc⟩ := writeReg_configuration hcfg s v
    rw [State.memWrite, hc, writeCfg_busy hb]
  · obtain ⟨-, -, -, hcfg, -⟩ := configuration a ha
    obtain ⟨c, hc⟩ := writeReg_configuration hcfg s v
    rw [State.memWrite, hc, writeCfg_idle hb]
  · obtain ⟨-, -, hvol, hcfg, hbits⟩ := configuration a ha
    rw [memRead_value (.inr hvol), State.memWrite, regValue_writeReg_same hcfg hb, hbits]
  · obtain ⟨halow, -, -, hacfg, -⟩ := configuration a ha
    obtain ⟨hblow, hbreg, hbvol, hbcfg, -⟩ := configuration b hb'
    have hregs : regAt b ≠ regAt a := fun h => hne (eq_of_regAt_eq hblow halow hbreg h)
    rw [memRead_value (.inr hbvol), memRead_value (.inr hbvol), State.memWrite,
      regValue_writeReg_other hacfg hbcfg hregs hb]

/-- Settles O52: the gaps of the map hold no register, a register that is not writable keeps the state, and the words read
and written have zero or ignored bits where the map defines none. -/
theorem reservedReadsZero : Obligations.ReservedReadsZero := by
  unfold Obligations.ReservedReadsZero
  refine ⟨fun s a v _ hgap => ?_, fun s v a ha => writeReg_readOnly s v ?_, fun s v => ?_⟩
  · have hres := regAt_gap hgap
    refine ⟨?_, ?_⟩
    · rw [memRead_exact (.inr (by rw [hres]; rfl)), hres]
      rfl
    · rw [State.memWrite, hres]
      rfl
  · revert a
    decide
  · have reads (a : Nat) (h : (regAt a).isVolatile = false) : (s.memRead a).1 = s.regValue (regAt a) :=
      memRead_value (.inr h)
    have masked (a : Nat) : s.memWrite a v = s.memWrite a (v &&& (regAt a).writtenBits) :=
      (writeReg_masked s (regAt a) v).symm
    rw [reads 0x004 rfl, reads 0x00C rfl, reads 0x014 rfl, reads 0x024 rfl, reads 0x028 rfl, reads 0x030 rfl,
      reads 0x03C rfl, reads 0x040 rfl]
    exact ⟨paramWord_reserved _, extractLsb'_setWidth_above s.cfg.ctrl, extractLsb'_setWidth_above s.cfg.log2n,
      extractLsb'_setWidth_above s.cfg.halfw0, extractLsb'_setWidth_above s.cfg.halfw1, statusWord_reserved_low s,
      statusWord_reserved_high s, rfl, inctrlWord_reserved s, masked 0x00C, masked 0x014, masked 0x024, masked 0x028,
      masked 0x030, masked 0x03C, masked 0x040⟩

end

section
/-! The command word (30_encoding.md R100-R106): the decoder is the inverse of the encoder on well-formed commands, and
a row of the opcode map selects the words of its own command alone. -/

namespace Sys2Proof

/-! ## The fields of an encoding -/

theorem opcOf_append (o : BitVec 8) (d : BitVec 24) : opcOf (o ++ d) = o := by
  rw [opcOf, BitVec.extractLsb'_append_eq_of_le (by decide)]
  exact BitVec.extractLsb'_eq_self

theorem opdOf_append (o : BitVec 8) (d : BitVec 24) : opdOf (o ++ d) = d :=
  Machine.extractLsb'_append_low o d

theorem toNat_opcOf (w : Word) : (opcOf w).toNat = w.toNat / 2 ^ 24 := by
  have hw := w.isLt
  rw [opcOf, BitVec.extractLsb'_toNat, Nat.shiftRight_eq_div_pow]
  omega

theorem toNat_opdOf (w : Word) : (opdOf w).toNat = w.toNat % 2 ^ 24 := by
  rw [opdOf, BitVec.extractLsb'_toNat, Nat.shiftRight_zero]

/-- The encoder keeps the low 24 bits of a count, below the OPC of DISCARD. -/
theorem encode_discard_eq_append (n : Nat) : encode (.discard n) = 2#8 ++ BitVec.ofNat 24 n := by
  rw [encode, BitVec.append_def]
  rfl

/-! ## The round trips (R103, R106) -/

theorem decode_append_discard (d : BitVec 24) : decode (2#8 ++ d) = .ok (.discard d.toNat) := by
  unfold decode
  rw [opcOf_append]
  exact congrArg (fun e => Except.ok (Instr.discard e.toNat)) (opdOf_append _ d)

theorem decode_encode {i : Instr} (h : i.wellFormed = true) : decode (encode i) = .ok i := by
  cases i with
  | discard n =>
    have hn : n % 2 ^ 24 = n := Nat.mod_eq_of_lt (Nat.lt_succ_of_le (of_decide_eq_true h))
    rw [encode_discard_eq_append, decode_append_discard, BitVec.toNat_ofNat, hn]
  | thdn ch => cases ch <;> rfl
  | _ => rfl

/-- A decoded count is a 24-bit field. -/
theorem wellFormed_of_decode {w : Word} {i : Instr} (h : decode w = .ok i) : i.wellFormed = true := by
  cases i with
  | discard n =>
    rw [← encode_of_decode h, encode_discard_eq_append, decode_append_discard] at h
    rw [← Except.ok.inj h]
    exact decide_eq_true (Nat.le_of_lt_succ (BitVec.isLt _))
  | _ => rfl

/-! ## The rows of the opcode map (R102) -/

/-- A selected word is the row's pattern with the word's own bits outside the mask. -/
theorem eq_or_of_selects {r : OpcodeRow} {w : Word} (h : r.selects w = true) :
    w = r.pattern ||| (w &&& ~~~r.mask) := by
  rw [← of_decide_eq_true h, ← BitVec.and_or_distrib_left, BitVec.or_not_self, BitVec.and_allOnes]

/-- Format Z: every bit is in the mask. -/
theorem eq_of_selects_formatZ {name : String} {p w : Word}
    (h : OpcodeRow.selects ⟨name, p, 0xFFFFFFFF#32⟩ w = true) : w = p :=
  (BitVec.and_allOnes (x := w)).symm.trans (of_decide_eq_true h)

/-- Format C: bit 0 is outside the mask. -/
theorem eq_of_selects_formatC {name : String} {p w : Word}
    (h : OpcodeRow.selects ⟨name, p, 0xFFFFFFFE#32⟩ w = true) : w = p ||| 0#32 ∨ w = p ||| 1#32 := by
  have hw : w = p ||| (w &&& ~~~0xFFFFFFFE#32) := eq_or_of_selects h
  rw [show ~~~0xFFFFFFFE#32 = 1#32 by decide, BitVec.and_one_eq_setWidth_ofBool_getLsbD] at hw
  cases hb : w.getLsbD 0 <;> rw [hb] at hw
  · exact .inl hw
  · exact .inr hw

/-- Format L: the operand is outside the mask. -/
theorem eq_of_selects_formatL {name : String} {p w : Word}
    (h : OpcodeRow.selects ⟨name, p, 0xFF000000#32⟩ w = true) : w = p ||| (opdOf w).setWidth 32 := by
  have hopd : (opdOf w).setWidth 32 = w &&& ~~~0xFF000000#32 := by
    apply BitVec.eq_of_toNat_eq
    have hlt := (opdOf w).isLt
    rw [BitVec.toNat_setWidth, Nat.mod_eq_of_lt (by omega), toNat_opdOf, BitVec.toNat_and]
    exact (Nat.and_two_pow_sub_one_eq_mod w.toNat 24).symm
  rw [hopd]
  exact eq_or_of_selects h

/-- The words a row selects are encodings of its command. -/
theorem exists_encode_of_selects {r : OpcodeRow} {w : Word} (hr : r ∈ opcodeMap) (h : r.selects w = true) :
    ∃ i : Instr, i.wellFormed = true ∧ i.mnemonic = r.mnemonic ∧ encode i = w := by
  simp only [opcodeMap, List.mem_cons, List.not_mem_nil, or_false] at hr
  rcases hr with rfl | rfl | rfl | rfl | rfl | rfl | rfl | rfl | rfl
  · exact ⟨.nop, rfl, rfl, (eq_of_selects_formatZ h).symm⟩
  · exact ⟨.srst, rfl, rfl, (eq_of_selects_formatZ h).symm⟩
  · refine ⟨.discard (opdOf w).toNat, decide_eq_true (Nat.le_of_lt_succ (BitVec.isLt _)), rfl, ?_⟩
    rw [encode, BitVec.ofNat_toNat, BitVec.setWidth_eq]
    exact (eq_of_selects_formatL h).symm
  · exact ⟨.frame, rfl, rfl, (eq_of_selects_formatZ h).symm⟩
  · exact ⟨.accClear, rfl, rfl, (eq_of_selects_formatZ h).symm⟩
  · exact ⟨.accPass, rfl, rfl, (eq_of_selects_formatZ h).symm⟩
  · exact ⟨.accFinal, rfl, rfl, (eq_of_selects_formatZ h).symm⟩
  · rcases eq_of_selects_formatC h with hw | hw
    · exact ⟨.thdn .left, rfl, rfl, hw.symm⟩
    · exact ⟨.thdn .right, rfl, rfl, hw.symm⟩
  · exact ⟨.measure, rfl, rfl, (eq_of_selects_formatZ h).symm⟩

/-- Every well-formed command's word is selected by the row of its mnemonic. -/
theorem exists_row_selects_encode {i : Instr} (h : i.wellFormed = true) :
    ∃ r ∈ opcodeMap, r.mnemonic = i.mnemonic ∧ r.selects (encode i) = true := by
  cases i with
  | nop => exact Laws.RowSelected.nop h
  | srst => exact Laws.RowSelected.srst h
  | discard n => exact Laws.RowSelected.discard n h
  | frame => exact Laws.RowSelected.frame h
  | accClear => exact Laws.RowSelected.accClear h
  | accPass => exact Laws.RowSelected.accPass h
  | accFinal => exact Laws.RowSelected.accFinal h
  | thdn ch => exact Laws.RowSelected.thdn ch h
  | measure => exact Laws.RowSelected.measure h

theorem opcodeMap_mnemonic_injective :
    ∀ r ∈ opcodeMap, ∀ q ∈ opcodeMap, r.mnemonic = q.mnemonic → r = q := by decide

/-- A row selects a word exactly if the word decodes to a command of the row's mnemonic. -/
theorem selects_iff_decode {r : OpcodeRow} (hr : r ∈ opcodeMap) (w : Word) :
    r.selects w = true ↔ ∃ i, decode w = .ok i ∧ i.mnemonic = r.mnemonic := by
  constructor
  · intro h
    obtain ⟨i, hwf, hname, rfl⟩ := exists_encode_of_selects hr h
    exact ⟨i, decode_encode hwf, hname⟩
  · rintro ⟨i, hi, hname⟩
    obtain ⟨q, hq, hqname, hsel⟩ := exists_row_selects_encode (wellFormed_of_decode hi)
    obtain rfl := opcodeMap_mnemonic_injective q hq r hr (hqname.trans hname)
    rwa [encode_of_decode hi] at hsel

theorem filter_selects_of_ok {w : Word} {i : Instr} (h : decode w = .ok i) :
    (opcodeMap.filter (·.selects w)).map (·.mnemonic) = [i.mnemonic] := by
  have hrows : opcodeMap.filter (·.selects w) = opcodeMap.filter (·.mnemonic == i.mnemonic) := by
    refine List.filter_congr fun r hr => Bool.eq_iff_iff.mpr ?_
    rw [selects_iff_decode hr, h, beq_iff_eq]
    constructor
    · rintro ⟨j, hj, hname⟩
      obtain rfl := Except.ok.inj hj
      exact hname.symm
    · exact fun hname => ⟨i, rfl, hname.symm⟩
  rw [hrows]
  cases i <;> rfl

theorem filter_selects_of_error {w : Word} {e : Illegal} (h : decode w = .error e) :
    opcodeMap.filter (·.selects w) = [] := by
  refine List.filter_eq_nil_iff.mpr fun r hr hsel => ?_
  obtain ⟨i, hi, -⟩ := (selects_iff_decode hr w).mp hsel
  rw [h] at hi
  cases hi

/-! ## Reserved encodings (R104) -/

theorem opc_encode_discard (n : Nat) : (encode (.discard n)).toNat / 2 ^ 24 = 2 := by
  rw [← toNat_opcOf, encode_discard_eq_append, opcOf_append]
  rfl

/-- The OPC is not listed, or a reserved operand bit of a listed OPC is not 0. -/
def IsReserved (w : Word) : Prop :=
  let opc := w.toNat / 2 ^ 24
  let opd := w.toNat % 2 ^ 24
  opc ∉ [0x00, 0x01, 0x02, 0x03, 0x10, 0x11, 0x12, 0x20, 0x21] ∨
    (opc ∈ [0x00, 0x01, 0x03, 0x10, 0x11, 0x12, 0x21] ∧ opd ≠ 0) ∨ (opc = 0x20 ∧ opd / 2 ≠ 0)

theorem not_isReserved_encode (i : Instr) : ¬ IsReserved (encode i) := by
  unfold IsReserved
  cases i with
  | discard n =>
    rw [opc_encode_discard]
    simp
  | thdn ch => cases ch <;> decide
  | _ => decide

end Sys2Proof

namespace Sys2Proof.Machine

/-- In a quiet, idle block a word that does not decode raises ERR_ILLEGAL (40_control.md R123). -/
theorem dispatch_illegal {s : State} {w : Word} {e : Illegal} (hd : decode w = .error e) (hseq : s.seq = .idle)
    (herr : s.err = .none) : s.dispatch w = { s with done := false }.raise .illegal w := by
  have hb : s.busy = false := by rw [State.busy, hseq]
  simp only [State.dispatch, hb, herr, hd]
  rfl

end Sys2Proof.Machine

open Sys2Proof Sys2Proof.Machine

/-- Settles O1: the fields of an encoding are the command's OPC and operand, and a decoded count has 24 bits. -/
theorem encodingRoundTrips : Obligations.EncodingRoundTrips := by
  unfold Obligations.EncodingRoundTrips
  exact ⟨fun _ => decode_encode, fun _ _ h => ⟨encode_of_decode h, wellFormed_of_decode h⟩⟩

/-- Settles O2: a row selects a word exactly if the word decodes to a command of the row's mnemonic, and no two rows
share a mnemonic. -/
theorem opcodeMapSelectsOneRow : Obligations.OpcodeMapSelectsOneRow := by
  unfold Obligations.OpcodeMapSelectsOneRow
  refine fun w => ⟨?_, fun _ => filter_selects_of_ok, fun _ => filter_selects_of_error⟩
  cases hd : decode w with
  | ok i =>
    have hone := congrArg List.length (filter_selects_of_ok hd)
    rw [List.length_map] at hone
    exact hone.le
  | error e =>
    rw [filter_selects_of_error hd]
    exact Nat.zero_le 1

/-- Settles O3: a word that decodes is an encoding, and no encoding is reserved; the error entry writes SEQ and STALL
with the values an idle block has. -/
theorem reservedEncodingsRaiseIllegal : Obligations.ReservedEncodingsRaiseIllegal := by
  unfold Obligations.ReservedEncodingsRaiseIllegal
  intro w opc opd hres
  cases hd : decode w with
  | ok i => exact absurd (encode_of_decode hd ▸ show IsReserved w from hres) (not_isReserved_encode i)
  | error e =>
    refine ⟨⟨e, rfl⟩, fun s hseq herr hstall => ?_⟩
    rw [dispatch_illegal hd hseq herr, State.raise, hseq, hstall]

/-- Settles O4: each word is the encoding of its command. -/
theorem tableWordsDecode : Obligations.TableWordsDecode := by
  unfold Obligations.TableWordsDecode
  exact ⟨decode_encode (i := .nop) rfl, decode_encode (i := .srst) rfl, decode_encode (i := .discard 16777215) rfl,
    decode_encode (i := .frame) rfl, decode_encode (i := .accClear) rfl, decode_encode (i := .accPass) rfl,
    decode_encode (i := .accFinal) rfl, decode_encode (i := .thdn .right) rfl, decode_encode (i := .measure) rfl⟩

end

section
/-! What a write of CMD comes to in each control state (40_control.md R120-R122), and who writes the configuration
registers (R127): no effect of a command, no move of SEQ and no dispatch does. -/

namespace Sys2Proof.Machine

/-! ## Dispatch -/

theorem seq_of_not_busy {s : State} (h : s.busy = false) : s.seq = .idle := by
  unfold State.busy at h
  split at h
  · assumption
  · cases h
  · cases h

/-- SRST is taken in every control state. -/
theorem dispatch_srst (s : State) : s.dispatch srstWord = s.beginSrst := by
  have hd : decode srstWord = .ok .srst := decode_encode (i := .srst) rfl
  simp only [State.dispatch, hd, if_true, ite_self]

theorem dispatch_busy {s : State} {w : Word} (hw : w ≠ srstWord) (hb : s.busy = true) :
    s.dispatch w = { s with ovr := true } := by
  rw [State.dispatch, if_pos hb, if_neg hw]

theorem dispatch_inError {s : State} {w : Word} (hw : w ≠ srstWord) (hb : s.busy = false) (he : s.err ≠ .none) :
    s.dispatch w = s := by
  rw [State.dispatch, if_neg (by simp [hb]), if_pos he, if_neg hw]

/-- In a quiet, idle block a word that decodes to another command than SRST, whose one encoding is `srstWord`, starts
that command. -/
theorem dispatch_starts {s : State} {w : Word} {i : Instr} (hw : w ≠ srstWord) (hb : s.busy = false)
    (he : s.err = .none) (hd : decode w = .ok i) :
    s.dispatch w = { s with done := false, seq := .busy w .start } := by
  have hi : i ≠ .srst := by
    rintro rfl
    exact hw (encode_of_decode hd).symm
  rw [State.dispatch, if_neg (by simp [hb]), if_neg (not_not.mpr he), hd]
  exact if_neg hi

/-! ## The configuration registers -/

theorem InputEffect.cfg {s u : State} (h : InputEffect s u) : u.cfg = s.cfg := by
  cases h with
  | preloads rest vL vR => exact State.hpfPreload_cfg _ vL vR
  | _ => rfl

theorem CommandEffect.cfg {s u : State} (h : CommandEffect s u) : u.cfg = s.cfg := by
  cases h with
  | input h => exact h.cfg
  | reduces ch => cases ch <;> rfl
  | _ => rfl

theorem CommandStep.cfg {i : Instr} {s t : State} (h : CommandStep i s t) : t.cfg = s.cfg := by
  obtain ⟨u, he, hmove⟩ := h
  have hu := he.cfg
  cases hmove <;> exact hu

theorem exec_cfg {i : Instr} {s t : State} (h : exec i s = .next t) : t.cfg = s.cfg := by
  by_cases hi : i = .srst
  · subst hi
    cases h
    rfl
  · exact (exec_step hi h).cfg

theorem seqStep_cfg {s t : State} (h : seqStep s = .next t) : t.cfg = s.cfg := by
  rcases seqStep_cases h with ⟨-, rfl⟩ | ⟨b, -, rfl⟩ | ⟨n, b, -, rfl⟩ | ⟨w, p, i, -, -, he⟩ | ⟨w, p, e, -, -, rfl⟩
  case inr.inr.inr.inl => exact exec_cfg he
  all_goals rfl

theorem dispatch_cfg (s : State) (w : Word) : (s.dispatch w).cfg = s.cfg := writeReg_cfg (r := .cmd) w rfl

theorem hostRead_cfg (s : State) (a : Nat) : (s.hostRead a).cfg = s.cfg := by
  obtain ⟨reads, draws, h⟩ := hostRead_eq s a
  rw [h]

/-- Only a write of a configuration register's own offset, in an idle block, changes the configuration. -/
theorem memWrite_changes_cfg {s : State} {a : Nat} {v : Word} (h : (s.memWrite a v).cfg ≠ s.cfg) :
    (regAt a).isConfiguration = true ∧ s.busy = false := by
  cases hr : (regAt a).isConfiguration with
  | false => exact absurd (writeReg_cfg v hr) h
  | true =>
    refine ⟨rfl, Bool.eq_false_iff.mpr fun hb => h ?_⟩
    obtain ⟨c, hc⟩ := writeReg_configuration hr s v
    rw [State.memWrite, hc, writeCfg_busy hb]

end Sys2Proof.Machine

open Sys2Proof Sys2Proof.Machine

/-- Settles O7: CMD stands at 0x02C, and the dispatch of a word has an equation for each control state. -/
theorem cmdWriteDispatches : Obligations.CmdWriteDispatches := by
  unfold Obligations.CmdWriteDispatches
  intro s w
  have hcmd : s.memWrite 0x02C w = s.dispatch w := rfl
  rw [hcmd]
  refine ⟨?_, dispatch_busy, dispatch_inError, fun i hw hb he hd => ?_, fun e hb he hd => ?_⟩
  · rintro rfl
    exact dispatch_srst s
  · rw [dispatch_starts hw hb he hd]
    exact ⟨rfl, rfl⟩
  · exact dispatch_illegal hd (seq_of_not_busy hb) he

/-- Settles O11: of what a host step can be, a pass and a read keep the configuration; a write that changes it names one
of the eight offsets of an idle block. -/
theorem onlyTheHostWritesConfiguration : Obligations.OnlyTheHostWritesConfiguration := by
  unfold Obligations.OnlyTheHostWritesConfiguration
  refine ⟨fun s t => seqStep_cfg, dispatch_cfg, fun s t h hne => ?_⟩
  rcases hostStep_cases h with ⟨-, rfl⟩ | ⟨a, rest, -, -, -, rfl⟩ | ⟨a, v, rest, hhost, -, -, rfl⟩ | ⟨rest, -, rfl⟩ |
    ⟨rest, hhost, -⟩
  · exact absurd rfl hne
  · exact absurd (hostRead_cfg _ a) hne
  · obtain ⟨hreg, hb⟩ := memWrite_changes_cfg (s := { s with host := rest }) hne
    exact .inr ⟨a, v, rest, hhost, regAt_configuration hreg, hb⟩
  · exact absurd (hostRead_cfg _ _) hne
  · exact .inl ⟨rest, hhost⟩

/-- Settles O8: NOP's one step is `complete`. -/
theorem nopCompletes : Obligations.NopCompletes := by
  unfold Obligations.NopCompletes
  intro s
  rw [exec, execNop, State.complete]

/-- Settles O9: SRST's one step is `beginSrst`, which leaves both filter channels at their reset value. -/
theorem srstBeginsClearing : Obligations.SrstBeginsClearing := by
  unfold Obligations.SrstBeginsClearing
  intro s
  rw [exec, execSrst, State.beginSrst, HpfChan.reset]

end

section
/-! The input stream (41_input.md): what each kind of DISCARD's step does; that over the steps of every command bytes
leave the FIFO from its front alone, EOS stays and ERR_INPUT is raised in strict mode alone; and the integers that the
bytes form. -/

namespace Sys2Proof.Machine

/-! ## DISCARD (R147) -/

/-- DISCARD with `left` bytes to take runs: all of them at its start. -/
def State.discards (s : State) (count left : Nat) : Prop :=
  ∃ p, s.runs (.discard count) p ∧ (p = .discard left ∨ (p = .start ∧ left = count))

theorem exec_of_discards {s : State} {count left : Nat} (h : s.discards count left) :
    exec (.discard count) s = .next (discardStep count left s) := by
  obtain ⟨p, hruns, hp⟩ := h
  have hprogress : s.progress = p := by rw [State.progress, hruns]
  rw [exec, execDiscard, hprogress]
  rcases hp with rfl | ⟨rfl, rfl⟩ <;> rfl

theorem seqStep_of_discards {count left : Nat} {s : State} (hc : count ≤ 16777215) (h : s.discards count left) :
    seqStep s = .next (discardStep count left s) := by
  obtain ⟨p, hruns, -⟩ := id h
  rw [seqStep_of_busy hruns (decode_encode (decide_eq_true hc)), exec_of_discards h]

theorem discardStep_zero (count : Nat) (s : State) : discardStep count 0 s = s.complete := rfl

theorem discardStep_byte {count k : Nat} {s : State} {b : Byte} {rest : List Byte} (h : s.fifo = b :: rest) :
    discardStep count (k + 1) s = { s with fifo := rest, stall := false }.goOn (.discard count) (.discard k) := by
  rw [discardStep, inByte_cons h]

theorem discardStep_waiting {count k : Nat} {s : State} (h : s.fifo = []) (he : s.eos = false) :
    discardStep count (k + 1) s = { s with stall := true }.goOn (.discard count) (.discard (k + 1)) := by
  rw [discardStep, inByte_waiting h he]

theorem discardStep_missing {count k : Nat} {s : State} (h : s.fifo = []) (he : s.eos = true)
    (ht : s.cfg.tol = false) :
    discardStep count (k + 1) s = { s with stall := false }.raise .input (encode (.discard count)) := by
  rw [discardStep, inByte_missing h he ht]

theorem discardStep_sentinel {count k : Nat} {s : State} (h : s.fifo = []) (he : s.eos = true)
    (ht : s.cfg.tol = true) :
    discardStep count (k + 1) s = { s with stall := false }.goOn (.discard count) (.discard k) := by
  rw [discardStep, inByte_sentinel h he ht]

/-- With its bytes in the FIFO, DISCARD takes one a step and then completes. -/
theorem seqSteps_of_discards {count left : Nat} {s : State} (hc : count ≤ 16777215) (h : s.discards count left)
    (hl : left ≤ s.level) : seqSteps (left + 1) s = .next { s with fifo := s.fifo.drop left }.complete := by
  induction left generalizing s with
  | zero =>
    rw [seqSteps, seqStep_of_discards hc h, discardStep_zero]
    rfl
  | succ k ih =>
    obtain ⟨b, rest, hf⟩ := List.exists_cons_of_length_pos (Nat.zero_lt_of_lt hl)
    have hrest : k ≤ rest.length := by simpa [State.level, hf] using hl
    rw [seqSteps, seqStep_of_discards hc h, discardStep_byte hf, hf]
    exact ih ⟨_, rfl, .inl rfl⟩ hrest

/-! ## What a command's step does to the stream -/

/-- A step's part in the stream: bytes leave the FIFO from its front alone and EOS stays (R142), and ERR_INPUT comes of
a strict stream that has ended (R140, R143). -/
structure StreamStep (s t : State) : Prop where
  fifo : t.fifo <:+ s.fifo
  eos  : t.eos = s.eos
  err  : t.err = .input → s.err = .input ∨ (s.eos = true ∧ s.cfg.tol = false)

/-- A step that leaves the stream alone and raises another error at most. -/
theorem StreamStep.of_same {s t : State} (hf : t.fifo = s.fifo) (he : t.eos = s.eos)
    (herr : t.err = .input → s.err = .input) : StreamStep s t :=
  ⟨hf ▸ List.suffix_rfl, he, fun h => .inl (herr h)⟩

theorem discardStep_stream (count left : Nat) (s : State) : StreamStep s (discardStep count left s) := by
  cases left with
  | zero => exact .of_same rfl rfl id
  | succ k =>
    rcases hf : s.fifo with _ | ⟨b, rest⟩
    · rcases he : s.eos
      · rw [discardStep_waiting hf he]
        exact .of_same rfl rfl id
      · rcases ht : s.cfg.tol
        · rw [discardStep_missing hf he ht]
          exact ⟨List.suffix_rfl, rfl, fun _ => .inr ⟨he, ht⟩⟩
        · rw [discardStep_sentinel hf he ht]
          exact .of_same rfl rfl id
    · rw [discardStep_byte hf]
      exact ⟨hf ▸ List.suffix_cons b rest, rfl, .inl⟩

/-- The state a command leaves that asked FrameIn for a frame at progress `p` (42_hpf.md R166). -/
def FrameStep.resume (i : Instr) (p : Progress) : FrameStep → State
  | .waiting t | .preparing t => t.goOn i p
  | .failed e t               => t.raise e (encode i)
  | .frame x0 x1 t            => t.goOn i (p.withFrame x0 x1)

theorem readFrame_stream {s t : State} {vL vR : Word} (h : readFrame s = .frame vL vR t) : StreamStep s t := by
  obtain ⟨n, rfl⟩ := readFrame_frame h
  exact ⟨List.drop_suffix n s.fifo, rfl, .inl⟩

theorem frameIn_stream (i : Instr) (p : Progress) (s : State) : StreamStep s ((frameIn s).resume i p) := by
  cases h : frameIn s with
  | waiting t =>
    obtain ⟨rfl, -⟩ := frameIn_waits h
    exact .of_same rfl rfl id
  | preparing t =>
    obtain ⟨-, ⟨-, -, rfl⟩ | ⟨-, vL, vR, u, hr, rfl⟩⟩ := frameIn_prepares h
    · exact .of_same rfl rfl id
    · obtain ⟨hf, he, herr⟩ := readFrame_stream hr
      exact ⟨by simpa [FrameStep.resume] using hf, by simpa [FrameStep.resume] using he,
        by simpa [FrameStep.resume] using herr⟩
  | failed e t =>
    obtain ⟨rfl, rfl, -⟩ | ⟨-, rfl, -, he, ht⟩ := frameIn_fails h
    · exact .of_same rfl rfl nofun
    · exact ⟨List.nil_suffix, rfl, fun _ => .inr ⟨he, ht⟩⟩
  | frame x0 x1 t =>
    obtain ⟨vL, vR, u, hr, hu⟩ := frameIn_frame h
    obtain ⟨hf, he, herr⟩ := readFrame_stream hr
    obtain ⟨-, -, -, rfl⟩ | ⟨-, -, -, -, rfl⟩ := hu <;> exact ⟨hf, he, herr⟩

theorem execFrame_stream {s t : State} (h : execFrame s = .next t) : StreamStep s t := by
  unfold execFrame at h
  split at h
  · cases h
    exact .of_same rfl rfl id
  · have hin := frameIn_stream .frame .start s
    cases hf : frameIn s <;> rw [hf] at h hin <;> cases h <;> exact hin

theorem execAccClear_stream {s t : State} (h : execAccClear s = .next t) : StreamStep s t := by
  unfold execAccClear at h
  split at h
  · cases h
    exact .of_same rfl rfl id
  · split_ifs at h <;> cases h
    · exact .of_same rfl rfl nofun
    · exact .of_same rfl rfl id

theorem execAccPass_stream {s t : State} (h : execAccPass s = .next t) : StreamStep s t := by
  unfold execAccPass at h
  split at h
  · rename_i xs _
    split_ifs at h
    · have hin := frameIn_stream .accPass (.pass xs) s
      cases hf : frameIn s <;> rw [hf] at h hin <;> cases h <;> exact hin
    · cases h
      exact .of_same rfl rfl id
  · split_ifs at h <;> cases h
    · exact .of_same rfl rfl id
    · exact .of_same rfl rfl nofun

theorem execAccFinal_stream {s t : State} (h : execAccFinal s = .next t) : StreamStep s t := by
  unfold execAccFinal at h
  split at h
  · cases h
    exact .of_same rfl rfl id
  · split_ifs at h <;> cases h
    · exact .of_same rfl rfl id
    · exact .of_same rfl rfl nofun

theorem thdn_stream (ch : Channel) (s : State) (i : Instr) (p : Progress) : StreamStep s ((s.thdn ch).goOn i p) := by
  cases ch <;> exact .of_same rfl rfl id

theorem execThdn_stream {ch : Channel} {s t : State} (h : execThdn ch s = .next t) : StreamStep s t := by
  unfold execThdn at h
  split at h
  · cases h
    exact .of_same rfl rfl id
  · split_ifs at h <;> cases h
    · exact thdn_stream ch s _ _
    · exact .of_same rfl rfl nofun

theorem measurePassStep_stream (left : Nat) (xs : List (Rat × Rat)) (s : State) :
    StreamStep s (measurePassStep left xs s) := by
  unfold measurePassStep
  split_ifs
  · have hin := frameIn_stream .measure (.measurePass left xs) s
    cases hf : frameIn s <;> rw [hf] at hin <;> exact hin
  · exact .of_same rfl rfl id

theorem execMeasure_stream {s t : State} (h : execMeasure s = .next t) : StreamStep s t := by
  unfold execMeasure at h
  split at h
  case h_2 left xs _ =>
    cases h
    exact measurePassStep_stream (left + 1) xs s
  case h_6 =>
    split_ifs at h <;> cases h
    · exact .of_same rfl rfl nofun
    · exact .of_same rfl rfl id
  all_goals
    cases h
    exact .of_same rfl rfl id

/-- Every command but SRST, which empties the FIFO and clears EOS. -/
theorem exec_stream {i : Instr} {s t : State} (hi : i ≠ .srst) (h : exec i s = .next t) : StreamStep s t := by
  cases i with
  | nop =>
    cases h
    exact .of_same rfl rfl id
  | srst      => exact absurd rfl hi
  | discard n =>
    rw [exec, execDiscard] at h
    split at h <;> cases h <;> exact discardStep_stream n _ s
  | frame     => exact execFrame_stream h
  | accClear  => exact execAccClear_stream h
  | accPass   => exact execAccPass_stream h
  | accFinal  => exact execAccFinal_stream h
  | thdn ch   => exact execThdn_stream h
  | measure   => exact execMeasure_stream h

/-! ## EOS (R142) -/

theorem writeInctrl_eq (s : State) (v : Word) :
    s.writeInctrl v = if v.toNat % 2 = 1 then { s with eos := true } else s := by
  rw [State.writeInctrl, BitVec.getLsbD, Nat.testBit_zero]
  simp only [decide_eq_true_eq]

/-- A dispatch that does not begin SRST keeps EOS. -/
theorem dispatch_eos {s : State} {w : Word} (hw : w ≠ srstWord) : (s.dispatch w).eos = s.eos := by
  cases hb : s.busy with
  | true => rw [dispatch_busy hw hb]
  | false =>
    by_cases he : s.err = .none
    · cases hd : decode w with
      | ok i => rw [dispatch_starts hw hb he hd]
      | error e =>
        rw [dispatch_illegal hd (seq_of_not_busy hb) he]
        rfl
    · rw [dispatch_inError hw hb he]

theorem writeReg_eos {s : State} {r : Reg} (v : Word) (hc : r ≠ .cmd) (hi : r ≠ .inctrl) :
    (s.writeReg r v).eos = s.eos := by
  have hcfg (c : Cfg) : (s.writeCfg c).eos = s.eos := by
    unfold State.writeCfg
    split_ifs <;> rfl
  cases hr : r.isConfiguration with
  | true =>
    obtain ⟨c, h⟩ := writeReg_configuration hr s v
    rw [h, hcfg]
  | false =>
    cases r with
    | cmd => exact absurd rfl hc
    | inctrl => exact absurd rfl hi
    | din => rcases push_cases s (v.setWidth 8) with h | ⟨-, h⟩ <;> rw [State.writeReg, h]
    | ctrl | srate | log2n | navg | tfreq | halfw => cases hr
    | _ => rfl

/-- A register that is neither reserved nor volatile, so in no window, stands at its own offset alone. -/
theorem eq_offset_of_regAt {a : Nat} {r : Reg} (h : regAt a = r) (hr : r ≠ .reserved) (hv : r.isVolatile = false) :
    a = r.offset := by
  subst h
  rcases Nat.lt_or_ge a 0x108 with ha | ha
  · rw [regAt_low ha] at hr ⊢
    exact (lowRegAt_offset a ha hr).symm
  · by_cases hw : a < 0x100000 ∨ 0x300000 ≤ a
    · exact absurd (regAt_outside ha hw) hr
    · rw [regAt_window ha, windowAt_volatile (by omega) (by omega)] at hv
      cases hv

/-- A write that changes EOS is one of INCTRL with bit 0 = 1, which sets it, or the one of CMD that begins SRST. -/
theorem memWrite_eos (s : State) (a : Nat) (v : Word) :
    (s.memWrite a v).eos = s.eos ∨
    ((s.memWrite a v).eos = true ∧ a = 0x040 ∧ v.toNat % 2 = 1) ∨
    ((s.memWrite a v).eos = false ∧ a = 0x02C ∧ v = srstWord) := by
  unfold State.memWrite
  by_cases hc : regAt a = .cmd
  · rw [hc, State.writeReg]
    by_cases hw : v = srstWord
    · subst hw
      exact .inr (.inr ⟨congrArg State.eos (dispatch_srst s), eq_offset_of_regAt hc nofun rfl, rfl⟩)
    · exact .inl (dispatch_eos hw)
  · by_cases hi : regAt a = .inctrl
    · rw [hi, State.writeReg, writeInctrl_eq]
      split_ifs with hv
      · exact .inr (.inl ⟨rfl, eq_offset_of_regAt hi nofun rfl, hv⟩)
      · exact .inl rfl
    · exact .inl (writeReg_eos v hc hi)

/-- The sequencer keeps EOS, through Init too, but for the step of SRST's own word. -/
theorem seqStep_eos {s t : State} (hsrst : ∀ p, ¬ s.runs .srst p) (h : seqStep s = .next t) : t.eos = s.eos := by
  rcases seqStep_cases h with ⟨-, rfl⟩ | ⟨b, -, rfl⟩ | ⟨n, b, -, rfl⟩ | ⟨w, p, i, hseq, hd, he⟩ | ⟨w, p, e, -, -, rfl⟩
  case inr.inr.inr.inl =>
    refine (exec_stream ?_ he).eos
    rintro rfl
    exact hsrst p (hseq.trans (by rw [encode_of_decode hd]))
  all_goals rfl

theorem hostRead_eos (s : State) (a : Nat) : (s.hostRead a).eos = s.eos := by
  obtain ⟨reads, draws, h⟩ := hostRead_eq s a
  rw [h]

/-! ## Missing bytes (R149) -/

theorem frameBytes_pos (s : State) : 0 < s.frameBytes := by
  unfold State.frameBytes Cfg.bytesPerChannel
  split_ifs <;> decide

/-! ## Samples (R144-R146) -/

/-- A container value is signed by its last byte. -/
theorem sample32_toInt (b0 b1 b2 b3 : Byte) :
    (sample32 b0 b1 b2 b3).toInt = b0.toNat + 2 ^ 8 * b1.toNat + 2 ^ 16 * b2.toNat + 2 ^ 24 * b3.toInt := by
  rw [sample32, wordOfBytes, BitVec.toInt_append, BitVec.toInt_append, BitVec.toInt_append]
  change 2 ^ 8 * (2 ^ 8 * (2 ^ 8 * b3.toInt + b2.toNat) + b1.toNat) + b0.toNat = _
  ring

/-- A 16-bit sample is the signed integer of its two bytes, 2^16 times. -/
theorem sample16_toInt (b0 b1 : Byte) : (sample16 b0 b1).toInt = (b0.toNat + 2 ^ 8 * b1.toInt) * 2 ^ 16 := by
  have hz : (0 : Byte).toNat = 0 := rfl
  rw [sample16, ← sample32, sample32_toInt, hz]
  push_cast
  ring

/-- A byte as an integer, its sign from its top bit. -/
theorem byte_toInt (b : Byte) : b.toInt = b.toNat - if b.msb then 2 ^ 8 else 0 := by
  rw [BitVec.toInt_eq_msb_cond]
  split_ifs
  · rfl
  · rw [sub_zero]

theorem normalize_le_iff {v : Word} {n : Int} : normalize v ≤ n / 2 ^ 31 ↔ v.toInt ≤ n := by
  rw [normalize, div_le_div_iff_of_pos_right (by positivity), Int.cast_le]

theorem le_normalize_iff {v : Word} {n : Int} : (n : Rat) / 2 ^ 31 ≤ normalize v ↔ n ≤ v.toInt := by
  rw [normalize, div_le_div_iff_of_pos_right (by positivity), Int.cast_le]

/-- The normalized sample is in [-1, 1 - 2^-31] (R146). -/
theorem normalize_range (v : Word) : -1 ≤ normalize v ∧ normalize v ≤ 1 - 1 / 2 ^ 31 := by
  have hlo : (-2 ^ 31 : Int) ≤ v.toInt := v.le_toInt
  have hhi : v.toInt ≤ 2 ^ 31 - 1 := Int.le_sub_one_of_lt v.toInt_lt
  refine ⟨le_of_eq_of_le ?_ (le_normalize_iff.mpr hlo), (normalize_le_iff.mpr hhi).trans_eq ?_⟩ <;> norm_num

/-- The value -1 does occur. -/
theorem normalize_min : normalize 0x80000000#32 = -1 := by
  have hmin : (0x80000000#32).toInt = -2 ^ 31 := by decide
  rw [normalize, hmin]
  norm_num

/-- A 16-bit sample is a multiple of 2^16 below 2^31. -/
theorem normalize_sample16_le (b0 b1 : Byte) : normalize (sample16 b0 b1) ≤ 1 - 1 / 2 ^ 15 := by
  have hlt : (sample16 b0 b1).toInt < 2 ^ 31 := BitVec.toInt_lt
  have hle : (sample16 b0 b1).toInt ≤ 2 ^ 31 - 2 ^ 16 := by
    rw [sample16_toInt] at hlt ⊢
    omega
  refine (normalize_le_iff.mpr hle).trans_eq ?_
  norm_num

end Sys2Proof.Machine

open Sys2Proof Sys2Proof.Machine

/-- Settles O15: a command that raises ERR_INPUT finds a strict stream ended, and the bytes an ended stream lacks are
SENTINEL in tolerance mode. -/
theorem toleranceModeUsesSentinel : Obligations.ToleranceModeUsesSentinel := by
  unfold Obligations.ToleranceModeUsesSentinel
  intro s ht
  refine ⟨fun i t h herr => ?_, fun he hl => readFrame_sentinel hl he ht, fun he hf => ?_⟩
  · by_cases hi : i = .srst
    · subst hi
      cases h
      cases herr
    · rcases (exec_stream hi h).err herr with hin | ⟨-, hstrict⟩
      · exact hin
      · exact absurd ht (by simp [hstrict])
  · have hlevel : s.level = 0 := by rw [State.level, hf, List.length_nil]
    have hempty : { s with fifo := [], stall := false } = { s with stall := false } := by rw [← hf]
    have hframe := readFrame_sentinel (hlevel.trans_lt (frameBytes_pos s)) he ht
    rw [hf, List.nil_append, hlevel, hempty] at hframe
    exact ⟨inByte_sentinel hf he ht, hframe⟩

/-- Settles O18: the stream's part of a step for the sequencer, and for the host the two writes that reach EOS. -/
theorem eosStaysUntilReset : Obligations.EosStaysUntilReset := by
  unfold Obligations.EosStaysUntilReset
  refine ⟨writeInctrl_eq, fun s t i h hi => ?_, fun s t => seqStep_eos, fun s t h => ?_⟩
  · obtain ⟨⟨taken, hf⟩, he, -⟩ := exec_stream hi h
    exact ⟨he, taken, hf.symm⟩
  · rcases hostStep_cases h with ⟨-, rfl⟩ | ⟨a, rest, -, -, -, rfl⟩ | ⟨a, v, rest, hhost, -, -, rfl⟩ | ⟨rest, -, rfl⟩ |
      ⟨rest, hhost, rfl⟩
    · exact .inl rfl
    · exact .inl (hostRead_eos _ a)
    · rcases memWrite_eos { s with host := rest } a v with he | ⟨he, rfl, hv⟩ | ⟨he, rfl, rfl⟩
      · exact .inl he
      · exact .inr (.inl ⟨he, v, rest, hhost, hv⟩)
      · exact .inr (.inr ⟨he, rest, .inr hhost⟩)
    · exact .inl (hostRead_eos _ _)
    · exact .inr (.inr ⟨rfl, rest, .inl hhost⟩)

/-- Settles O19: one equation of DISCARD's step for each case of InByte (`discardStep` is the model's own name). -/
theorem discardStep_cases : Obligations.DiscardStep := by
  unfold Obligations.DiscardStep
  intro s count left p hruns hp
  rw [exec_of_discards ⟨p, hruns, hp⟩]
  refine ⟨?_, ?_, ?_, ?_, ?_⟩
  · rintro rfl
    rw [discardStep_zero, State.complete]
  · rintro b rest k rfl hf
    rw [discardStep_byte hf, State.goOn]
  · rintro k rfl hf he
    rw [discardStep_waiting hf he, State.goOn]
  · rintro k rfl hf he ht
    rw [discardStep_missing hf he ht, State.raise]
  · rintro k rfl hf he ht
    rw [discardStep_sentinel hf he ht, State.goOn]

/-- Settles O20, by induction on the bytes left to take. -/
theorem discardDropsCountBytes : Obligations.DiscardDropsCountBytes := by
  unfold Obligations.DiscardDropsCountBytes
  intro s count hc hruns hl
  rw [seqSteps_of_discards hc ⟨_, hruns, .inr ⟨rfl, rfl⟩⟩ hl, State.complete]

/-- Settles O21: a container value is its bytes with the last one signed, and its range that of a 32-bit integer. -/
theorem sampleDecoding : Obligations.SampleDecoding := by
  unfold Obligations.SampleDecoding
  refine ⟨fun b0 b1 b2 b3 => ?_, fun b0 b1 => ?_, fun v => ⟨rfl, normalize_range v⟩, normalize_min,
    normalize_sample16_le⟩
  · rw [sample32_toInt, byte_toInt b3]
    split_ifs <;> ring
  · rw [sample16_toInt, byte_toInt b1]
    split_ifs <;> ring

/-- Settles O17: DIN stands at 0x03C, and a write of it pushes its low byte. -/
theorem dinWritePushesByte : Obligations.DinWritePushesByte := by
  unfold Obligations.DinWritePushesByte
  intro s v
  have hdin : s.memWrite 0x03C v = s.push (BitVec.ofNat 8 v.toNat) := by
    rw [BitVec.ofNat_toNat]
    rfl
  rw [hdin]
  refine ⟨push_drop _, fun he hl => ?_⟩
  rw [push_take _ he hl]
  exact ⟨rfl, List.length_append⟩

end

section
/-! The step of FrameIn in the command that wants a frame (42_hpf.md R161-R166): FRAME, ACC_PASS and MEASURE all take
one up as `FrameStep.resume` says, so that each case of FrameIn has one equation for the three of them. -/

namespace Sys2Proof.Machine

/-! ## The command that wants a frame -/

/-- A command that wants a frame takes a step of FrameIn. -/
theorem exec_of_wantsFrame {s : State} {i : Instr} {p : Progress} (h : s.wantsFrame i p) :
    exec i s = .next ((frameIn s).resume i p) := by
  obtain ⟨hruns, hwants⟩ := h
  have hprogress : s.progress = p := by rw [State.progress, hruns]
  split at hwants
  · rw [exec, execFrame, hprogress]
    cases frameIn s <;> rfl
  · rw [exec, execAccPass, hprogress]
    dsimp only
    rw [if_pos hwants]
    cases frameIn s <;> rfl
  · rw [exec, execMeasure, hprogress]
    dsimp only
    rw [measurePassStep, if_pos hwants]
    cases frameIn s <;> rfl
  · exact hwants.elim

/-- A command that goes on at the progress it holds leaves the state as it is. -/
theorem goOn_of_runs {s : State} {i : Instr} {p : Progress} (h : s.runs i p) : s.goOn i p = s := by
  rw [State.goOn, ← h]

/-! ## The filter's start (R161) -/

theorem hpfLengthBad_iff (s : State) :
    s.hpfLengthBad = true ↔ s.cfg.srate.toNat / 10 < 2 ∨ s.params.hmax < s.cfg.srate.toNat / 10 :=
  decide_eq_true_iff

/-! ## A preload step (R162) -/

/-- A preload step's next state, the last one setting the cursors. -/
theorem hpfPreload_eq (s : State) (vL vR : Word) :
    s.hpfPreload vL vR = { s with
      hfill := s.hfill + 1
      hpfst := if s.hfill + 1 = s.hlen - 1 then .run else s.hpfst
      hpf0 := { s.hpf0.preload s.hfill.toNat vL with
        cur := if s.hfill + 1 = s.hlen - 1 then s.hlen - 1 else s.hpf0.cur }
      hpf1 := { s.hpf1.preload s.hfill.toNat vR with
        cur := if s.hfill + 1 = s.hlen - 1 then s.hlen - 1 else s.hpf1.cur } } := by
  unfold State.hpfPreload
  dsimp only
  split_ifs <;> rfl

/-- While FILL the preload ends with the frame that makes H - 1 of them. -/
theorem preload_last_iff {hfill hlen : Word} (h : hfill.toNat + 1 < hlen.toNat) :
    hfill + 1 = hlen - 1 ↔ hfill.toNat + 2 = hlen.toNat := by
  constructor <;> intro he <;> bv_omega

theorem frameIn_preloads {s : State} (he : s.cfg.hpfen = true) (hp : s.hpfst = .fill) (hr : s.frameReady) :
    frameIn s = .preparing ({ s with fifo := s.fifo.drop s.frameBytes, stall := false }.hpfPreload
      (decodeFrame s.cfg.w16 s.frameInput).1 (decodeFrame s.cfg.w16 s.frameInput).2) := by
  rw [frameIn_fill he hp, readFrame_ready hr]

/-! ## A filtered and a bypassed frame (R163, R166) -/

theorem frameIn_filters {s : State} (he : s.cfg.hpfen = true) (hp : s.hpfst = .run) (hr : s.frameReady) :
    frameIn s = .frame
      (s.hpf0.step s.hlen.toNat (decodeFrame s.cfg.w16 s.frameInput).1).2
      (s.hpf1.step s.hlen.toNat (decodeFrame s.cfg.w16 s.frameInput).2).2
      { s with
        fifo := s.fifo.drop s.frameBytes, stall := false
        hpf0 := (s.hpf0.step s.hlen.toNat (decodeFrame s.cfg.w16 s.frameInput).1).1
        hpf1 := (s.hpf1.step s.hlen.toNat (decodeFrame s.cfg.w16 s.frameInput).2).1 } := by
  rw [frameIn_run he hp, readFrame_ready hr]

theorem frameIn_bypasses {s : State} (he : s.cfg.hpfen = false) (hr : s.frameReady) :
    frameIn s = .frame (normalize (decodeFrame s.cfg.w16 s.frameInput).1)
      (normalize (decodeFrame s.cfg.w16 s.frameInput).2)
      { s with fifo := s.fifo.drop s.frameBytes, stall := false } := by
  rw [frameIn_bypass he, readFrame_ready hr]

/-! ## FRAME (R168) -/

theorem exec_frame_output {s : State} {y0 y1 : Rat} (h : s.runs .frame (.output y0 y1)) :
    exec .frame s = .next (s.writeOutput y0 y1) := by
  rw [exec, execFrame, State.progress, h]

theorem seqStep_of_runs_frame {s : State} {p : Progress} (h : s.runs .frame p) : seqStep s = exec .frame s :=
  seqStep_of_busy h (decode_encode rfl)

/-- FRAME past a frame of FrameIn: the frame's step and the completion. -/
theorem seqSteps_frame {s t : State} {x0 x1 : Rat} (h : s.runs .frame .start) (hf : frameIn s = .frame x0 x1 t) :
    seqSteps 2 s = .next (t.writeOutput x0 x1) := by
  have hout : (t.goOn .frame (.output x0 x1)).runs .frame (.output x0 x1) := rfl
  rw [seqSteps, seqStep_of_runs_frame h, exec_of_wantsFrame ⟨h, trivial⟩, hf]
  change seqSteps 1 (t.goOn .frame (.output x0 x1)) = _
  rw [seqSteps, seqStep_of_runs_frame hout, exec_frame_output hout]
  rfl

/-- FRAME of a bypassed filter, its frame there to decode. -/
theorem seqSteps_bypassedFrame {s : State} (h : s.runs .frame .start) (he : s.cfg.hpfen = false) (hr : s.frameReady) :
    seqSteps 2 s = .next ({ s with fifo := s.fifo.drop s.frameBytes, stall := false }.writeOutput
      (normalize (decodeFrame s.cfg.w16 s.frameInput).1) (normalize (decodeFrame s.cfg.w16 s.frameInput).2)) :=
  seqSteps_frame h (frameIn_bypasses he hr)

/-- A frame at the front of the FIFO is the input of the next one. -/
theorem frameInput_of_append {s : State} {b rest : List Byte} (hf : s.fifo = b ++ rest) (hb : b.length = s.frameBytes) :
    s.frameReady ∧ s.frameInput = b ∧ s.fifo.drop s.frameBytes = rest := by
  have hlevel : s.frameBytes ≤ s.level := by
    rw [State.level, hf, List.length_append, hb]
    exact Nat.le_add_right _ _
  refine ⟨.inl hlevel, ?_, ?_⟩
  · rw [State.frameInput, Nat.sub_eq_zero_of_le hlevel, hf, ← hb, List.take_left]
    exact List.append_nil b
  · rw [hf, ← hb, List.drop_left]

end Sys2Proof.Machine

open Sys2Proof Sys2Proof.Machine

/-- Settles O26: the step is FrameIn's filtered frame; each channel's step has its laws, and the control invariant puts
both cursors at one place below HLEN. -/
theorem runningFilterStep : Obligations.RunningFilterStep := by
  unfold Obligations.RunningFilterStep
  intro s i p hwants hc hw he hp hr
  obtain ⟨hw0, hw1, -⟩ := (arraysCanonical_iff s).mp hw
  obtain ⟨-, hlt⟩ := hc.run hp
  obtain ⟨h2, -⟩ := hc.length (by rw [hp]; nofun)
  have hpos : 0 < s.hlen.toNat := Nat.zero_lt_of_lt hlt
  have hcur : s.hpf1.cur = s.hpf0.cur := hc.cursors.symm
  have hlt1 : s.hpf1.cur.toNat < s.hlen.toNat := hcur ▸ hlt
  rw [exec_of_wantsFrame hwants, frameIn_filters he hp hr]
  refine ⟨_, _, _, rfl, rfl, rfl, rfl, step_sum _ _ _, ?_, step_sample hw0 _ _, ?_, step_output hw0 _ h2 hlt, ?_,
    step_cur _ hpos s.hlen.isLt.le, ?_, rfl⟩
  · exact hcur ▸ step_sum s.hpf1 _ _
  · exact hcur ▸ step_sample hw1 _ _
  · exact hcur ▸ step_output hw1 _ h2 hlt1
  · exact hcur ▸ step_cur _ hpos s.hlen.isLt.le

/-- Settles O25: the step is FrameIn's preload step, which the control invariant says is the last when H - 2 frames are
stored, and whose cursors it says were 0. -/
theorem preloadStep : Obligations.PreloadStep := by
  unfold Obligations.PreloadStep
  intro s i p hwants hc hw he hp hr
  obtain ⟨hw0, hw1, -⟩ := (arraysCanonical_iff s).mp hw
  obtain ⟨hlt, hcur0, hcur1⟩ := hc.fill hp
  have hnext : (s.hfill + 1).toNat = s.hfill.toNat + 1 := by bv_omega
  have hlast : (s.hlen - 1).toNat = s.hlen.toNat - 1 := by bv_omega
  have hgo : ∀ a b, ({ s with fifo := s.fifo.drop s.frameBytes, stall := false }.hpfPreload a b).runs i p :=
    fun a b => (State.hpfPreload_seq _ a b).trans hwants.1
  rw [exec_of_wantsFrame hwants, frameIn_preloads he hp hr, FrameStep.resume, goOn_of_runs (hgo _ _), hpfPreload_eq]
  simp only [preload_last_iff hlt, hcur0, hcur1, hp]
  refine ⟨_, rfl, rfl, rfl, rfl, hnext, rfl, rfl, ?_, preload_sample hw0 _ _, preload_sample hw1 _ _, rfl, rfl, ?_⟩
  · rintro (_ | _) <;> exact (apply_ite BitVec.toNat _ _ _).trans (by rw [hlast]; rfl)
  · rw [← hp]

/-- Settles O24: the step is FrameIn's, which checks H and latches it. -/
theorem filterStartsAtFirstUse : Obligations.FilterStartsAtFirstUse := by
  unfold Obligations.FilterStartsAtFirstUse
  intro s i p hwants he hp
  rw [exec_of_wantsFrame hwants, frameIn_uninit he hp]
  refine ⟨fun hbad => ?_, fun hlow hhigh => ?_⟩
  · rw [if_pos ((hpfLengthBad_iff s).mpr hbad)]
    rfl
  · rw [if_neg (mt (hpfLengthBad_iff s).mp (by omega)), FrameStep.resume,
      goOn_of_runs (s := s.hpfStart) hwants.1]
    rfl

/-- Settles O22: `writeOutput` is the step of FRAME at an output. -/
theorem frameWritesItsOutput : Obligations.FrameWritesItsOutput := by
  unfold Obligations.FrameWritesItsOutput
  exact fun s y0 y1 h => exec_frame_output h

/-- Settles O23: a frame that can be decoded is normalized and written; eight bytes at the front of the FIFO, or four in
16-bit mode, are such a frame. -/
theorem bypassedFrameCompletes : Obligations.BypassedFrameCompletes := by
  unfold Obligations.BypassedFrameCompletes
  intro s rest hruns he
  have front {b : List Byte} (hf : s.fifo = b ++ rest) (hb : b.length = s.frameBytes) :
      seqSteps 2 s = .next ({ s with fifo := rest, stall := false }.writeOutput
        (normalize (decodeFrame s.cfg.w16 b).1) (normalize (decodeFrame s.cfg.w16 b).2)) := by
    obtain ⟨hr, hin, hdrop⟩ := frameInput_of_append hf hb
    rw [seqSteps_bypassedFrame hruns he hr, hin, hdrop]
  refine ⟨seqSteps_bypassedFrame hruns he, fun a0 a1 a2 a3 b0 b1 b2 b3 hw hf => ?_, fun a0 a1 b0 b1 hw hf => ?_⟩
  · rw [front (b := [a0, a1, a2, a3, b0, b1, b2, b3]) hf (by rw [State.frameBytes, Cfg.bytesPerChannel, hw]; rfl), hw]
    rfl
  · rw [front (b := [a0, a1, b0, b1]) hf (by rw [State.frameBytes, Cfg.bytesPerChannel, hw]; rfl), hw]
    rfl

end

section
/-! The filter across a command's step (42_hpf.md R166, R170): only FrameIn reaches it, not with HPFEN = 0, and no
effect takes a started filter back to UNINIT. -/

namespace Sys2Proof.Machine

/-! ## Only FrameIn reaches the filter -/

/-- The filter's phase, HLEN, HFILL and channels (10_state.md R43, R44). -/
def State.filterPart (s : State) : HpfPhase × Word × Word × HpfChan × HpfChan :=
  (s.hpfst, s.hlen, s.hfill, s.hpf0, s.hpf1)

theorem filterPart_eq_iff (s t : State) : t.filterPart = s.filterPart ↔
    t.hpfst = s.hpfst ∧ t.hlen = s.hlen ∧ t.hfill = s.hfill ∧ t.hpf0 = s.hpf0 ∧ t.hpf1 = s.hpf1 := by
  simp only [State.filterPart, Prod.mk.injEq]

/-- The filter is as it was, or as a step of FrameIn leaves it. -/
def FilterStep (s t : State) : Prop := t.filterPart = s.filterPart ∨ t.filterPart = (frameIn s).state.filterPart

theorem resume_filterStep (i : Instr) (p : Progress) (s : State) : FilterStep s ((frameIn s).resume i p) :=
  .inr (by cases frameIn s <;> rfl)

theorem discardStep_filter (count left : Nat) (s : State) : FilterStep s (discardStep count left s) := by
  left
  cases left with
  | zero => rfl
  | succ k =>
    rcases hf : s.fifo with _ | ⟨b, rest⟩
    · rcases he : s.eos
      · rw [discardStep_waiting hf he]
        rfl
      · rcases ht : s.cfg.tol
        · rw [discardStep_missing hf he ht]
          rfl
        · rw [discardStep_sentinel hf he ht]
          rfl
    · rw [discardStep_byte hf]
      rfl

theorem execFrame_filter {s t : State} (h : execFrame s = .next t) : FilterStep s t := by
  unfold execFrame at h
  split at h
  · cases h
    exact .inl rfl
  · have hin := resume_filterStep .frame .start s
    cases hf : frameIn s <;> rw [hf] at h hin <;> cases h <;> exact hin

theorem execAccClear_filter {s t : State} (h : execAccClear s = .next t) : FilterStep s t := by
  unfold execAccClear at h
  split at h
  · cases h
    exact .inl rfl
  · split_ifs at h <;> cases h <;> exact .inl rfl

theorem execAccPass_filter {s t : State} (h : execAccPass s = .next t) : FilterStep s t := by
  unfold execAccPass at h
  split at h
  · rename_i xs _
    split_ifs at h
    · have hin := resume_filterStep .accPass (.pass xs) s
      cases hf : frameIn s <;> rw [hf] at h hin <;> cases h <;> exact hin
    · cases h
      exact .inl rfl
  · split_ifs at h <;> cases h <;> exact .inl rfl

theorem execAccFinal_filter {s t : State} (h : execAccFinal s = .next t) : FilterStep s t := by
  unfold execAccFinal at h
  split at h
  · cases h
    exact .inl rfl
  · split_ifs at h <;> cases h <;> exact .inl rfl

theorem thdn_filterPart (ch : Channel) (s : State) : (s.thdn ch).filterPart = s.filterPart := by
  cases ch <;> rfl

theorem execThdn_filter {ch : Channel} {s t : State} (h : execThdn ch s = .next t) : FilterStep s t := by
  unfold execThdn at h
  split at h
  · cases h
    exact .inl rfl
  · split_ifs at h <;> cases h
    · exact .inl (thdn_filterPart ch s)
    · exact .inl rfl

theorem measurePassStep_filter (left : Nat) (xs : List (Rat × Rat)) (s : State) :
    FilterStep s (measurePassStep left xs s) := by
  unfold measurePassStep
  split_ifs
  · have hin := resume_filterStep .measure (.measurePass left xs) s
    cases hf : frameIn s <;> rw [hf] at hin <;> exact hin
  · exact .inl rfl

theorem execMeasure_filter {s t : State} (h : execMeasure s = .next t) : FilterStep s t := by
  unfold execMeasure at h
  split at h
  case h_2 left xs _ =>
    cases h
    exact measurePassStep_filter (left + 1) xs s
  case h_6 => split_ifs at h <;> cases h <;> exact .inl rfl
  all_goals
    cases h
    exact .inl rfl

/-- Every command but SRST, which resets the filter. -/
theorem exec_filter {i : Instr} {s t : State} (hi : i ≠ .srst) (h : exec i s = .next t) : FilterStep s t := by
  cases i with
  | nop =>
    cases h
    exact .inl rfl
  | srst      => exact absurd rfl hi
  | discard n =>
    rw [exec, execDiscard] at h
    split at h <;> cases h <;> exact discardStep_filter n _ s
  | frame     => exact execFrame_filter h
  | accClear  => exact execAccClear_filter h
  | accPass   => exact execAccPass_filter h
  | accFinal  => exact execAccFinal_filter h
  | thdn ch   => exact execThdn_filter h
  | measure   => exact execMeasure_filter h

/-! ## What FrameIn does to the filter -/

/-- A bypassed FrameIn leaves the filter alone. -/
theorem frameIn_bypassed_filterPart {s : State} (he : s.cfg.hpfen = false) :
    (frameIn s).state.filterPart = s.filterPart := by
  have hoff : ¬ s.cfg.hpfen = true := Bool.eq_false_iff.mp he
  cases h : frameIn s with
  | waiting t =>
    obtain ⟨rfl, -⟩ := frameIn_waits h
    rfl
  | preparing t => exact absurd (frameIn_prepares h).1 hoff
  | failed e t =>
    obtain ⟨-, rfl, -⟩ | ⟨-, rfl, -⟩ := frameIn_fails h <;> rfl
  | frame x0 x1 t =>
    obtain ⟨vL, vR, u, hr, ⟨-, -, -, rfl⟩ | ⟨hon, -⟩⟩ := frameIn_frame h
    · obtain ⟨rest, -, rfl⟩ := readFrame_rest hr
      rfl
    · exact absurd hon hoff

/-- A started filter stays started, with the H it latched. -/
theorem InputEffect.started {s u : State} (h : InputEffect s u) (hs : s.hpfst ≠ .uninit) :
    u.hpfst ≠ .uninit ∧ u.hlen = s.hlen := by
  cases h with
  | reads => exact ⟨hs, rfl⟩
  | starts hp => exact absurd hp hs
  | preloads rest vL vR _ hp =>
    rw [hpfPreload_eq]
    refine ⟨?_, rfl⟩
    dsimp only
    split_ifs
    · nofun
    · exact hs
  | filters => exact ⟨hs, rfl⟩

end Sys2Proof.Machine

open Sys2Proof Sys2Proof.Machine

/-- Settles O27: a command's step leaves the filter as it was or as FrameIn does, which leaves it alone when bypassed
and keeps it started. -/
theorem bypassLeavesTheFilter : Obligations.BypassLeavesTheFilter := by
  unfold Obligations.BypassLeavesTheFilter
  intro i s t hi h
  have hstep := exec_filter hi h
  refine ⟨fun he => ?_, fun hs => ?_⟩
  · rw [← filterPart_eq_iff]
    exact hstep.elim id fun hin => hin.trans (frameIn_bypassed_filterPart he)
  · rcases hstep with hsame | hin
    · obtain ⟨hst, hlen, -⟩ := (filterPart_eq_iff s t).mp hsame
      exact ⟨hst ▸ hs, hlen⟩
    · obtain ⟨hst, hlen, -⟩ := (filterPart_eq_iff _ t).mp hin
      rw [hst, hlen]
      exact (frameIn_effect s).started hs

end

section
/-! The filter's outputs (42_hpf.md R165, R167, R169). A channel in steady state holds the last H - 1 values it took,
each at its index modulo H, and by the sum invariant HSUM is the sum of the buffer; so a step gives the value half a
buffer back less the mean of the last H. -/

namespace Sys2Proof.Machine

/-! ## Preloading (R162) -/

/-- Preloading puts the values at the positions from `fill` on. -/
theorem preloadAll_sample (vs : List Word) (fill : Nat) {c : HpfChan} (hw : Memory.wf 0 c.buf = true) (i : Nat) :
    (HpfChan.preloadAll fill vs c).sample i =
      if fill ≤ i ∧ i < fill + vs.length then vs.getD (i - fill) 0 else c.sample i := by
  induction vs generalizing fill c with
  | nil => rw [HpfChan.preloadAll, if_neg (by simp)]
  | cons v vs ih =>
    rw [HpfChan.preloadAll, ih (fill + 1) (preload_wf hw fill v), preload_sample hw, List.length_cons]
    rcases Nat.lt_trichotomy i fill with hlt | rfl | hgt
    · rw [if_neg (by omega), if_neg (by omega), if_neg (by omega)]
    · rw [if_neg (by omega), if_pos rfl, if_pos (by omega), Nat.sub_self, List.getD_cons_zero]
    · obtain ⟨k, rfl⟩ := Nat.exists_eq_add_of_lt hgt
      have hhead : fill + k + 1 - fill = k + 1 := by omega
      have htail : fill + k + 1 - (fill + 1) = k := by omega
      rw [hhead, htail, List.getD_cons_succ, if_neg (by omega : ¬ fill + k + 1 = fill)]
      exact if_congr (by omega) rfl rfl

theorem preloadAll_wf (vs : List Word) (fill : Nat) {c : HpfChan} (hw : Memory.wf 0 c.buf = true) :
    Memory.wf 0 (HpfChan.preloadAll fill vs c).buf = true := by
  induction vs generalizing fill c with
  | nil => exact hw
  | cons v vs ih => exact ih (fill + 1) (preload_wf hw fill v)

theorem preloadAll_sumInv {hlen : Nat} (hle : hlen ≤ 131072) (vs : List Word) {fill : Nat} {c : HpfChan}
    (hw : Memory.wf 0 c.buf = true) (hs : c.SumInv .fill hlen fill) (hroom : fill + vs.length ≤ hlen) :
    (HpfChan.preloadAll fill vs c).SumInv .fill hlen (fill + vs.length) := by
  induction vs generalizing fill c with
  | nil => exact hs
  | cons v vs ih =>
    rw [List.length_cons] at hroom ⊢
    have hnext : (c.preload fill v).SumInv .fill hlen (fill + 1) := sumInv_preload hw hs (by omega) hle v _
    have hrest := ih (preload_wf hw fill v) hnext (by omega)
    rwa [Nat.add_right_comm] at hrest

/-! ## The window of a running channel (R163) -/

/-- A running channel that has taken the first `g` values of `xs`: its cursor is at `g` modulo H, and each of the last
H - 1 values stands at its index modulo H. -/
structure HpfChan.Window (xs : List Word) (hlen g : Nat) (c : HpfChan) : Prop where
  wf     : Memory.wf 0 c.buf = true
  cur    : c.cur.toNat = g % hlen
  recent : ∀ j, j < g → g < j + hlen → c.sample (j % hlen) = xs.getD j 0
  sum    : c.SumInv .run hlen (hlen - 1)

/-- The channel that has taken the first H - 1 values, its cursor set (R162). -/
def HpfChan.preloaded (hlen : Nat) (xs : List Word) : HpfChan :=
  { HpfChan.preloadAll 0 (xs.take (hlen - 1)) HpfChan.reset with cur := BitVec.ofNat 32 (hlen - 1) }

theorem preloaded_window {hlen : Nat} {xs : List Word} (h2 : 2 ≤ hlen) (hle : hlen ≤ 131072)
    (hxs : hlen - 1 ≤ xs.length) : (HpfChan.preloaded hlen xs).Window xs hlen (hlen - 1) := by
  have htake : (xs.take (hlen - 1)).length = hlen - 1 := by rw [List.length_take, Nat.min_eq_left hxs]
  have hsum := preloadAll_sumInv hle (xs.take (hlen - 1)) Memory.wf_nil (sumInv_start (sumInv_reset .uninit) hlen)
    (by omega)
  refine ⟨preloadAll_wf _ _ Memory.wf_nil, ?_, fun j hj _ => ?_, ⟨hsum.sum, hsum.tail, fun hp => absurd rfl hp⟩⟩
  · rw [Nat.mod_eq_of_lt (by omega : hlen - 1 < hlen)]
    exact Nat.mod_eq_of_lt (by omega)
  · rw [Nat.mod_eq_of_lt (by omega)]
    refine (preloadAll_sample _ 0 Memory.wf_nil j).trans ?_
    rw [if_pos (by omega), Nat.sub_zero, List.getD_eq_getElem?_getD, List.getElem?_take_of_lt hj,
      ← List.getD_eq_getElem?_getD]

/-- Two indices less than H apart stand at different positions. -/
theorem mod_ne_of_lt {j g hlen : Nat} (hj : j < g) (hg : g < j + hlen) : j % hlen ≠ g % hlen := by
  intro he
  have hdvd : hlen ∣ g - j := (Nat.modEq_iff_dvd' hj.le).mp he
  exact absurd (Nat.le_of_dvd (by omega) hdvd) (by omega)

/-- The step that takes the value of index `g` overwrites none of the H - 1 before it. -/
theorem step_recent {xs : List Word} {hlen g : Nat} {c : HpfChan} (h : c.Window xs hlen g) {j : Nat} (hj : j ≤ g)
    (hg : g < j + hlen) : (c.step hlen (xs.getD g 0)).1.sample (j % hlen) = xs.getD j 0 := by
  rw [step_sample h.wf, h.cur]
  rcases hj.eq_or_lt with rfl | hlt
  · rw [if_pos rfl]
  · rw [if_neg (mod_ne_of_lt hlt hg), h.recent j hlt hg]

theorem step_window {xs : List Word} {hlen g : Nat} {c : HpfChan} (hpos : 0 < hlen) (hle : hlen ≤ 131072)
    (h : c.Window xs hlen g) : (c.step hlen (xs.getD g 0)).1.Window xs hlen (g + 1) := by
  have hcur : c.cur.toNat < hlen := h.cur ▸ Nat.mod_lt g hpos
  refine ⟨step_wf h.wf _ _, ?_, fun j hj hg => step_recent h (by omega) (by omega),
    sumInv_step h.wf h.sum hcur hle _⟩
  rw [step_cur _ hpos (by omega), h.cur, Nat.mod_add_mod]

/-- Over H consecutive indices the positions are those of the buffer. -/
theorem bufferSum_of_window {xs : List Word} {hlen m : Nat} {c : HpfChan}
    (h : ∀ i < hlen, c.sample ((m + i) % hlen) = xs.getD (m + i) 0) :
    c.bufferSum hlen = ∑ i ∈ Finset.range hlen, (xs.getD (m + i) 0).toInt := by
  calc c.bufferSum hlen
      = ∑ j ∈ (Finset.Ico m (m + hlen)).image (· % hlen), (c.sample j).toInt := by
        rw [bufferSum_eq, Nat.image_Ico_mod]
    _ = ∑ i ∈ Finset.range hlen, (c.sample ((m + i) % hlen)).toInt := by
        rw [Finset.sum_image (Nat.mod_injOn_Ico m hlen), Finset.sum_Ico_eq_sum_range, Nat.add_sub_cancel_left]
    _ = ∑ i ∈ Finset.range hlen, (xs.getD (m + i) 0).toInt :=
        Finset.sum_congr rfl fun i hi => by rw [h i (Finset.mem_range.mp hi)]

/-! ## The closed form (R165) -/

/-- The output for the value of index H - 1 + m: the value D = H - H div 2 before it, less the mean of the last H. -/
def closedForm (xs : List Word) (hlen m : Nat) : Rat :=
  ((xs.getD (hlen - 1 + m - (hlen - hlen / 2)) 0).toInt : Rat) / 2 ^ 31 -
    ((∑ i ∈ Finset.range hlen, (xs.getD (m + i) 0).toInt : Int) : Rat) / (hlen * 2 ^ 31)

theorem step_closedForm {xs : List Word} {hlen m : Nat} {c : HpfChan} (h2 : 2 ≤ hlen) (hle : hlen ≤ 131072)
    (h : c.Window xs hlen (hlen - 1 + m)) :
    (c.step hlen (xs.getD (hlen - 1 + m) 0)).2 = closedForm xs hlen m := by
  have hpos : 0 < hlen := by omega
  have hcur : c.cur.toNat < hlen := h.cur ▸ Nat.mod_lt _ hpos
  have hcentre : (c.cur.toNat + hlen / 2) % hlen = (hlen - 1 + m - (hlen - hlen / 2)) % hlen := by
    have hwrap : hlen - 1 + m + hlen / 2 = hlen - 1 + m - (hlen - hlen / 2) + hlen := by omega
    rw [h.cur, Nat.mod_add_mod, hwrap, Nat.add_mod_right]
  have hsum : (c.step hlen (xs.getD (hlen - 1 + m) 0)).1.sum.toInt =
      ∑ i ∈ Finset.range hlen, (xs.getD (m + i) 0).toInt :=
    (sumInv_step h.wf h.sum hcur hle _).sum.trans
      (bufferSum_of_window fun i hi => step_recent h (by omega) (by omega))
  rw [step_output h.wf _ h2 hcur, hsum, hcentre, h.recent _ (by omega) (by omega)]
  rfl

/-- Feeding the values of `xs` from index `g` on takes the next of them first. -/
theorem feed_drop {xs : List Word} {g : Nat} (hlen : Nat) (c : HpfChan) (hg : g < xs.length) :
    (HpfChan.feed hlen (xs.drop g) c).2 = (c.step hlen (xs.getD g 0)).2 ::
      (HpfChan.feed hlen (xs.drop (g + 1)) (c.step hlen (xs.getD g 0)).1).2 := by
  rw [List.drop_eq_getElem_cons hg, ← List.getD_eq_getElem xs 0 hg, HpfChan.feed]

theorem feed_closedForm {xs : List Word} {hlen m : Nat} {c : HpfChan} (h2 : 2 ≤ hlen) (hle : hlen ≤ 131072)
    (h : c.Window xs hlen (hlen - 1 + m)) (k : Nat) (hk : hlen - 1 + m + k < xs.length) (d : Rat) :
    (HpfChan.feed hlen (xs.drop (hlen - 1 + m)) c).2.getD k d = closedForm xs hlen (m + k) := by
  induction k generalizing m c with
  | zero =>
    rw [feed_drop (g := hlen - 1 + m) hlen c hk]
    exact step_closedForm h2 hle h
  | succ k ih =>
    rw [feed_drop hlen c (by omega), List.getD_cons_succ, Nat.add_comm k, ← Nat.add_assoc]
    exact ih (m := m + 1) (step_window (by omega) hle h) (by omega)

/-- A channel preloaded with the first H - 1 values and fed the rest. -/
theorem preloaded_feed {xs : List Word} {hlen m : Nat} (h2 : 2 ≤ hlen) (hle : hlen ≤ 131072)
    (hm : hlen - 1 + m < xs.length) (d : Rat) :
    (HpfChan.feed hlen (xs.drop (hlen - 1)) (HpfChan.preloaded hlen xs)).2.getD m d = closedForm xs hlen m := by
  have hout := feed_closedForm (m := 0) h2 hle (preloaded_window h2 hle (by omega)) m hm d
  rwa [Nat.zero_add] at hout

/-- Equal values have no output (R167). -/
theorem closedForm_const {xs : List Word} {hlen m : Nat} {v : Word} (h2 : 2 ≤ hlen)
    (h : ∀ i, m ≤ i → i ≤ hlen - 1 + m → xs.getD i 0 = v) : closedForm xs hlen m = 0 := by
  have hsum : ∑ i ∈ Finset.range hlen, (xs.getD (m + i) 0).toInt = hlen * v.toInt := by
    rw [Finset.sum_congr rfl fun i hi => by
      rw [h (m + i) (by omega) (by have := Finset.mem_range.mp hi; omega)]]
    rw [Finset.sum_const, Finset.card_range, nsmul_eq_mul]
  have hne : (hlen : Rat) ≠ 0 := Nat.cast_ne_zero.mpr (by omega)
  rw [closedForm, h _ (by omega) (by omega), hsum]
  push_cast
  rw [mul_div_mul_left _ _ hne, sub_self]

/-! ## The range of the outputs (R169) -/

/-- The mean of the buffered samples, normalized, is in [-1, 1). -/
theorem bufferMean_range (h : HpfChan) {hlen : Nat} (hpos : 0 < hlen) :
    -1 ≤ (h.bufferSum hlen : Rat) / (hlen * 2 ^ 31) ∧ (h.bufferSum hlen : Rat) / (hlen * 2 ^ 31) < 1 := by
  have hden : (0 : Rat) < hlen * 2 ^ 31 := by positivity
  have hlo : -(hlen * 2 ^ 31 : Int) ≤ h.bufferSum hlen := (abs_le.mp (bufferSum_abs_le h hlen)).1
  have hhi : h.bufferSum hlen < hlen * 2 ^ 31 := by
    have hcell : ∀ i ∈ Finset.range hlen, (h.sample i).toInt < 2 ^ 31 := fun i _ => BitVec.toInt_lt
    rw [bufferSum_eq]
    simpa using Finset.sum_lt_sum_of_nonempty (Finset.nonempty_range_iff.mpr hpos.ne') hcell
  rw [le_div_iff₀ hden, div_lt_one hden]
  constructor
  · rw [neg_one_mul]
    exact_mod_cast hlo
  · exact_mod_cast hhi

theorem normalize_lt_one (v : Word) : normalize v < 1 :=
  (normalize_range v).2.trans_lt (by norm_num)

theorem step_output_range {c : HpfChan} {hlen hfill : Nat} (hw : Memory.wf 0 c.buf = true)
    (hs : c.SumInv .run hlen hfill) (h2 : 2 ≤ hlen) (hle : hlen ≤ 131072) (hcur : c.cur.toNat < hlen) (v : Word) :
    -2 < (c.step hlen v).2 ∧ (c.step hlen v).2 < 2 := by
  have hsum := (sumInv_step hw hs hcur hle v).sum
  obtain ⟨hlo, hhi⟩ := bufferMean_range (c.step hlen v).1 (show 0 < hlen by omega)
  rw [step_output hw v h2 hcur, hsum]
  have hcentre := (normalize_range (c.sample ((c.cur.toNat + hlen / 2) % hlen))).1
  have hcentre' := normalize_lt_one (c.sample ((c.cur.toNat + hlen / 2) % hlen))
  constructor <;> linarith

end Sys2Proof.Machine

open Sys2Proof Sys2Proof.Machine

/-- Settles O28: the preloaded channel holds the first H - 1 values, a step keeps the window one further on, and its
output is the closed form. -/
theorem filterClosedForm : Obligations.FilterClosedForm := by
  unfold Obligations.FilterClosedForm
  intro h m xs h2 hle hm
  exact preloaded_feed h2 hle hm 0

/-- Settles O29: the closed form of H equal values is the value less itself. -/
theorem constantInputGivesZero : Obligations.ConstantInputGivesZero := by
  unfold Obligations.ConstantInputGivesZero
  intro h m v xs h2 hle hm hv
  exact (preloaded_feed h2 hle hm 1).trans (closedForm_const h2 hv)

/-- Settles O30: a bypassed output is a normalized sample, a filtered one such a sample less a mean of such. -/
theorem frameOutputRange : Obligations.FrameOutputRange := by
  unfold Obligations.FrameOutputRange
  intro s t x0 x1 hc hs hw hframe
  obtain ⟨vL, vR, u, hr, hout⟩ := frameIn_frame hframe
  obtain ⟨rest, -, rfl⟩ := readFrame_rest hr
  rcases hout with ⟨-, rfl, rfl, -⟩ | ⟨hon, hp, rfl, rfl, -⟩
  · have hL := (normalize_range vL).1
    have hR := (normalize_range vR).1
    have hL' := normalize_lt_one vL
    have hR' := normalize_lt_one vR
    exact ⟨⟨by linarith, by linarith, by linarith, by linarith⟩, fun _ => ⟨hL, hL', hR, hR'⟩⟩
  · obtain ⟨hw0, hw1, -⟩ := (arraysCanonical_iff s).mp hw
    obtain ⟨-, hlt⟩ := hc.run hp
    obtain ⟨h2, hmax⟩ := hc.length (by rw [hp]; nofun)
    have hle := hmax.trans (hmax_le_of_legal hc.params)
    obtain ⟨hs0, hs1⟩ := (sumInv_iff s).mp hs
    rw [hp] at hs0 hs1
    obtain ⟨hL, hL'⟩ := step_output_range hw0 hs0 h2 hle hlt vL
    obtain ⟨hR, hR'⟩ := step_output_range hw1 hs1 h2 hle (hc.cursors ▸ hlt) vR
    exact ⟨⟨hL, hL', hR, hR'⟩, fun hoff => absurd hon (Bool.eq_false_iff.mp hoff)⟩

end

section
/-! ACC_CLEAR, ACC_PASS and ACC_FINAL (43_spectrum.md R185-R187): what a command's step comes to at each of its
progresses, what a pass and the roots leave in each bin, and the frames that the bytes of a bypassed pass make. -/

namespace Sys2Proof

/-- `roundDiv` is the rounding of 00_scope.md R15. -/
theorem roundDiv_eq_floor (a : Nat) {b : Nat} (hb : 0 < b) : (roundDiv a b : Int) = ⌊(a : Rat) / b + 1 / 2⌋ := by
  have hsum : (a : Rat) / b + 1 / 2 = ((2 * a + b : Nat) : Rat) / ((2 * b : Nat) : Rat) := by
    have hb' : (b : Rat) ≠ 0 := by exact_mod_cast hb.ne'
    push_cast
    field_simp
  rw [hsum, Rat.floor_natCast_div_natCast]
  rfl

end Sys2Proof

namespace Sys2Proof.Machine

/-! ## A step at the progress it holds -/

theorem progress_of_runs {s : State} {i : Instr} {p : Progress} (h : s.runs i p) : s.progress = p := by
  rw [State.progress, h]

theorem exec_accClear_start {s : State} (h : s.runs .accClear .start) :
    exec .accClear s = .next
      (if s.accConfigBad then s.raise .cfg (encode .accClear) else s.accClear.goOn .accClear .finish) := by
  rw [exec, execAccClear, progress_of_runs h]
  split_ifs <;> rfl

theorem exec_accClear_finish {s : State} (h : s.runs .accClear .finish) : exec .accClear s = .next s.complete := by
  rw [exec, execAccClear, progress_of_runs h]

theorem exec_accPass_start {s : State} (h : s.runs .accPass .start) (ho : s.accst = .opened) :
    exec .accPass s = .next (s.goOn .accPass (.pass [])) := by
  rw [exec, execAccPass, progress_of_runs h]
  exact if_pos ho

theorem exec_accPass_full {s : State} {xs : List (Rat × Rat)} (h : s.runs .accPass (.pass xs))
    (hfull : s.accn.toNat ≤ xs.length) : exec .accPass s = .next (s.accPass xs).complete := by
  rw [exec, execAccPass, progress_of_runs h]
  exact if_neg (Nat.not_lt.mpr hfull)

theorem exec_accFinal_start {s : State} (h : s.runs .accFinal .start) (ho : s.accst = .opened) :
    exec .accFinal s = .next (s.accFinal.goOn .accFinal .finish) := by
  rw [exec, execAccFinal, progress_of_runs h]
  exact if_pos ho

theorem exec_accFinal_finish {s : State} (h : s.runs .accFinal .finish) : exec .accFinal s = .next s.complete := by
  rw [exec, execAccFinal, progress_of_runs h]

/-! ## The checks of ACC_CLEAR (R185) -/

theorem accConfigBad_iff (s : State) : s.accConfigBad = true ↔
    s.cfg.log2n.toNat < 2 ∨ s.params.log2nMax < s.cfg.log2n.toNat ∨ s.cfg.navg = 0 ∨ s.cfg.srate = 0 ∨
      ((2 ^ s.cfg.log2n.toNat / 2 : Nat) : Int) <
        ⌊(20 * 2 ^ s.cfg.log2n.toNat : Rat) / s.cfg.srate.toNat + 1 / 2⌋ := by
  by_cases hz : s.cfg.srate = 0
  · simp [State.accConfigBad, hz]
  · have hpos : 0 < s.cfg.srate.toNat := by bv_omega
    have hround := roundDiv_eq_floor (20 * 2 ^ s.cfg.log2n.toNat) hpos
    push_cast at hround
    rw [← hround, Nat.cast_lt]
    simp only [State.accConfigBad, Bool.or_eq_true, decide_eq_true_eq, or_assoc]

/-! ## What a pass and the roots leave in the bins (R186, R187) -/

/-- The channel's one of a pair, left first. -/
def channelOf {α : Type} : Channel → α × α → α
  | .left  => Prod.fst
  | .right => Prod.snd

theorem spec_wf {s : State} (hw : s.arraysCanonical = true) (c : Channel) : Memory.wf .zero (s.spec c) = true := by
  obtain ⟨-, -, h0, h1⟩ := (arraysCanonical_iff s).mp hw
  cases c
  · exact h0
  · exact h1

theorem accPass_spec (s : State) (xs : List (Rat × Rat)) (c : Channel) : (s.accPass xs).spec c =
    accumulate s.arith s.accn.toNat s.accnavg.toNat (xs.map (channelOf c)) (s.spec c) := by
  cases c <;> rfl

theorem accPass_bin {s : State} (hw : s.arraysCanonical = true) (xs : List (Rat × Rat)) (c : Channel) (k : Nat) :
    (s.accPass xs).bin c k = if k ≤ s.accn.toNat / 2 then
      s.arith.add (s.bin c k) (power s.arith
        (s.arith.fft (windowed s.arith s.accn.toNat 0 (xs.map (channelOf c)))) s.accn.toNat s.accnavg.toNat k)
      else s.bin c k := by
  rw [State.bin, accPass_spec, accumulate_read _ _ _ _ (spec_wf hw c)]
  simp only [Nat.lt_succ_iff, State.bin]

theorem accFinal_spec (s : State) (c : Channel) : s.accFinal.spec c = takeRoots s.arith s.accn.toNat (s.spec c) := by
  cases c <;> rfl

theorem accFinal_bin {s : State} (hw : s.arraysCanonical = true) (c : Channel) (k : Nat) :
    s.accFinal.bin c k = if k ≤ s.accn.toNat / 2 then s.arith.sqrt (s.bin c k) else s.bin c k := by
  rw [State.bin, accFinal_spec, takeRoots_read _ _ (spec_wf hw c)]
  simp only [Nat.lt_succ_iff, State.bin]

/-! ## A bypassed pass (R186) -/

/-- The frames that `n` times `size` bytes make with the filter bypassed (41_input.md R143, R146). -/
def bypassedFrames (w16 : Bool) (size : Nat) : Nat → List Byte → List (Rat × Rat)
  | 0, _        => []
  | n + 1, fifo =>
    let v := decodeFrame w16 (fifo.take size)
    (normalize v.1, normalize v.2) :: bypassedFrames w16 size n (fifo.drop size)

@[simp] theorem bypassedFrames_length (w16 : Bool) (size n : Nat) (fifo : List Byte) :
    (bypassedFrames w16 size n fifo).length = n := by
  induction n generalizing fifo with
  | zero => rfl
  | succ n ih => rw [bypassedFrames, List.length_cons, ih]

theorem bypassedFrames_getElem? (w16 : Bool) (size : Nat) {n i : Nat} (fifo : List Byte) (hi : i < n) :
    let v := decodeFrame w16 ((fifo.drop (i * size)).take size)
    (bypassedFrames w16 size n fifo)[i]? = some (normalize v.1, normalize v.2) := by
  induction n generalizing fifo i with
  | zero => exact absurd hi (Nat.not_lt_zero i)
  | succ n ih =>
    cases i with
    | zero => simp [bypassedFrames]
    | succ i =>
      rw [bypassedFrames, List.getElem?_cons_succ, ih _ (Nat.lt_of_succ_lt_succ hi), List.drop_drop, Nat.succ_mul,
        Nat.add_comm size]

theorem frameInput_of_le {s : State} (h : s.frameBytes ≤ s.level) : s.frameInput = s.fifo.take s.frameBytes := by
  rw [State.frameInput, Nat.sub_eq_zero_of_le h, List.replicate_zero, List.append_nil]

/-- A bypassed pass of frames `xs` after its next frame step. -/
def State.passFrame (s : State) (xs : List (Rat × Rat)) : State :=
  let v := decodeFrame s.cfg.w16 s.frameInput
  { s with fifo := s.fifo.drop s.frameBytes, stall := false }.goOn .accPass
    (.pass (xs ++ [(normalize v.1, normalize v.2)]))

theorem exec_accPass_bypassed {s : State} {xs : List (Rat × Rat)} (h : s.runs .accPass (.pass xs))
    (hlt : xs.length < s.accn.toNat) (he : s.cfg.hpfen = false) (hr : s.frameReady) :
    exec .accPass s = .next (s.passFrame xs) := by
  rw [exec_of_wantsFrame ⟨h, hlt⟩, frameIn_bypasses he hr]
  rfl

theorem seqStep_of_runs_accPass {s : State} {p : Progress} (h : s.runs .accPass p) : seqStep s = exec .accPass s :=
  seqStep_of_busy h (decode_encode rfl)

/-- From any point of a bypassed pass whose bytes are there: one step a frame, then the computation. -/
theorem seqSteps_bypassedPass {s : State} {xs : List (Rat × Rat)} {left : Nat} (h : s.runs .accPass (.pass xs))
    (hn : xs.length + left = s.accn.toNat) (he : s.cfg.hpfen = false) (hl : left * s.frameBytes ≤ s.level) :
    seqSteps (left + 1) s = .next ({ s with fifo := s.fifo.drop (left * s.frameBytes), stall := false }.accPass
      (xs ++ bypassedFrames s.cfg.w16 s.frameBytes left s.fifo)).complete := by
  induction left generalizing s xs with
  | zero =>
    rw [seqSteps, seqStep_of_runs_accPass h, exec_accPass_full h hn.ge, bypassedFrames, List.append_nil, Nat.zero_mul]
    rfl
  | succ left ih =>
    rw [Nat.succ_mul] at hl
    have hready : s.frameBytes ≤ s.level := (Nat.le_add_left _ _).trans hl
    have hstep : seqStep s = .next (s.passFrame xs) := by
      rw [seqStep_of_runs_accPass h, exec_accPass_bypassed h (by omega) he (.inl hready)]
    have hrest : left * s.frameBytes ≤ (s.passFrame xs).level := by
      rw [State.passFrame, State.level, State.goOn_fifo, List.length_drop]
      exact Nat.le_sub_of_add_le hl
    rw [seqSteps, hstep]
    refine (ih (s := s.passFrame xs) rfl ?_ he hrest).trans ?_
    · rw [List.length_append, List.length_singleton]
      exact (Nat.add_right_comm _ _ _).trans hn
    · rw [bypassedFrames, ← frameInput_of_le hready, List.append_assoc, Nat.succ_mul, Nat.add_comm (left * _),
        ← List.drop_drop]
      rfl

end Sys2Proof.Machine

open Sys2Proof Sys2Proof.Machine

/-- Settles O31: at its start ACC_CLEAR checks and then latches and clears; at its end it completes. -/
theorem accClearLatchesAndClears : Obligations.AccClearLatchesAndClears := by
  unfold Obligations.AccClearLatchesAndClears
  intro s
  refine ⟨fun h => ⟨fun hbad => ?_, fun hgood => ?_⟩, exec_accClear_finish⟩
  · rw [exec_accClear_start h, if_pos ((accConfigBad_iff s).mpr hbad)]
    rfl
  · rw [exec_accClear_start h, if_neg (mt (accConfigBad_iff s).mp hgood)]
    rfl

/-- Settles O32: the check goes on, a frame is FrameIn's bypassed one, and the computation is `accPass`. -/
theorem accPassSteps : Obligations.AccPassSteps := by
  unfold Obligations.AccPassSteps
  intro s
  refine ⟨exec_accPass_start, fun xs => exec_accPass_bypassed, fun xs h hfull hw => ?_⟩
  exact ⟨_, exec_accPass_full h hfull, accPass_bin hw xs .left, accPass_bin hw xs .right, rfl, rfl, rfl, rfl, rfl⟩

/-- Settles O33: after the check the pass has all its frames to gather. -/
theorem accPassTakesItsFrames : Obligations.AccPassTakesItsFrames := by
  unfold Obligations.AccPassTakesItsFrames
  intro s h ho he hl
  refine ⟨bypassedFrames s.cfg.w16 s.frameBytes s.accn.toNat s.fifo, bypassedFrames_length _ _ _ _,
    fun n hn => bypassedFrames_getElem? _ _ _ (by simpa using hn), ?_⟩
  rw [seqSteps, seqStep_of_runs_accPass h, exec_accPass_start h ho]
  exact seqSteps_bypassedPass (s := s.goOn .accPass (.pass [])) rfl (Nat.zero_add _) he hl

/-- Settles O34: the roots, and then the completion. -/
theorem accFinalTakesRoots : Obligations.AccFinalTakesRoots := by
  unfold Obligations.AccFinalTakesRoots
  intro s
  exact ⟨fun h ho hw => ⟨_, exec_accFinal_start h ho, accFinal_bin hw, rfl, rfl, rfl⟩, exec_accFinal_finish⟩

end

section
/-! The window and the transform under ARITH = exact, as real numbers (43_spectrum.md R180, R183). -/

namespace Sys2Proof

open Real

/-! ## The transform (R183) -/

/-- The values of a list, 0 past its end. -/
noncomputable def valuesOf (us : List SVal) (n : Nat) : ℝ := (us.getD n .zero).val

/-- The recursion that `cosineSum` and `sineSum` share, at turns of their own. -/
theorem val_turnSum {F : Nat → List SVal → SVal} {turn : Nat → Rat} (hnil : ∀ n, F n [] = .zero)
    (hcons : ∀ n u r, F n (u :: r) = (F (n + 1) r).plus (u.times (.trig (Trig.addCos (turn n) 1 []))))
    {us : List SVal} (h : ∀ u ∈ us, u.Proper) (n : Nat) :
    (F n us).val = ∑ j ∈ Finset.range us.length, valuesOf us j * cos (2 * π * turn (n + j)) := by
  induction us generalizing n with
  | nil => rw [hnil, SVal.val_zero, List.length_nil, Finset.sum_range_zero]
  | cons u us ih =>
    obtain ⟨hu, hus⟩ := List.forall_mem_cons.mp h
    rw [hcons, SVal.val_plus, SVal.val_times hu, ih hus, List.length_cons, Finset.sum_range_succ']
    simp [valuesOf, Nat.add_assoc, Nat.add_comm 1]

theorem val_cosineSum {us : List SVal} (h : ∀ u ∈ us, u.Proper) (k : Nat) :
    (cosineSum us.length k 0 us).val = realCosine (valuesOf us) us.length k := by
  rw [val_turnSum (turn := fun n => ((k * n : Nat) : Rat) / us.length) (fun _ => rfl) (fun _ _ _ => rfl) h, realCosine]
  refine Finset.sum_congr rfl fun j _ => ?_
  congr 2
  push_cast
  ring

/-- A sine is the cosine of a quarter turn less. -/
theorem val_sineSum {us : List SVal} (h : ∀ u ∈ us, u.Proper) (k : Nat) :
    (sineSum us.length k 0 us).val = realSine (valuesOf us) us.length k := by
  rw [val_turnSum (turn := fun n => ((k * n : Nat) : Rat) / us.length - 1 / 4) (fun _ => rfl) (fun _ _ _ => rfl) h,
    realSine]
  refine Finset.sum_congr rfl fun j _ => ?_
  rw [← cos_sub_pi_div_two]
  congr 2
  push_cast
  ring

@[simp] theorem exactFft_length (sineNegated : Bool) (us : List SVal) :
    (exactFft sineNegated us).length = us.length := by
  simp [exactFft]

theorem exactFft_getD (sineNegated : Bool) {us : List SVal} {j : Nat} (hj : j < us.length) :
    (exactFft sineNegated us).getD j .zero = if j ≤ us.length / 2 then cosineSum us.length j 0 us
      else (SVal.ofRat (if sineNegated then -1 else 1)).times (sineSum us.length (j - us.length / 2) 0 us) := by
  simp [exactFft, List.getD_eq_getElem?_getD, hj]

theorem exactFft_cosine (sineNegated : Bool) {us : List SVal} (h : ∀ u ∈ us, u.Proper) {k : Nat}
    (hk : k ≤ us.length / 2) (hlen : 0 < us.length) :
    ((exactFft sineNegated us).getD k .zero).val = realCosine (valuesOf us) us.length k := by
  rw [exactFft_getD _ (by omega), if_pos hk, val_cosineSum h]

theorem exactFft_sine (sineNegated : Bool) {us : List SVal} (h : ∀ u ∈ us, u.Proper) {k : Nat} (h1 : 1 ≤ k)
    (hk : us.length / 2 + k < us.length) :
    ((exactFft sineNegated us).getD (us.length / 2 + k) .zero).val =
      (if sineNegated then -1 else 1) * realSine (valuesOf us) us.length k := by
  rw [exactFft_getD _ hk, if_neg (by omega), SVal.val_times (SVal.isTrig_ofRat _).proper, Nat.add_sub_cancel_left,
    val_sineSum h, SVal.val_ofRat, apply_ite (Rat.cast : Rat → ℝ), Rat.cast_neg, Rat.cast_one]

end Sys2Proof

namespace Sys2Proof.Machine

open Real

/-! ## The window (R180) -/

theorem val_hanningWeight (sineNegated : Bool) {len : Nat} (heven : 2 ∣ len) (i : Nat) :
    (hanningWeight (ArithOps.exact sineNegated) len i).val = realWeight len i := by
  have hangle : 2 * π * (hanningTurn len i : ℝ) = ((i : ℝ) - (len : ℝ) / 2) * (2 * π / ((len : ℝ) - 1)) := by
    rw [hanningTurn, Nat.cast_div heven two_ne_zero]
    push_cast
    ring
  change ((SVal.ofRat 1).plus (.trig (Trig.addCos (hanningTurn len i) 1 []))).val = _
  rw [SVal.val_plus, SVal.val_ofRat, SVal.val_trig, Trig.val_addCos, hangle, realWeight]
  simp

theorem realWeight_le_two (len i : Nat) : realWeight len i ≤ 2 := by
  rw [realWeight]
  linarith [cos_le_one (((i : ℝ) - (len : ℝ) / 2) * (2 * π / ((len : ℝ) - 1)))]

theorem realWeight_half {len : Nat} (heven : 2 ∣ len) : realWeight len (len / 2) = 2 := by
  rw [realWeight, Nat.cast_div heven two_ne_zero, Nat.cast_ofNat, sub_self, zero_mul, cos_zero]
  norm_num

theorem realWeight_first (len : Nat) : realWeight len 0 = 1 + cos (π * len / (len - 1)) := by
  have hangle : ((0 : Nat) - (len : ℝ) / 2) * (2 * π / ((len : ℝ) - 1)) = -(π * len / (len - 1)) := by
    push_cast
    ring
  rw [realWeight, hangle, cos_neg]

/-- The first weight's angle is past the half turn by less than another. -/
theorem realWeight_first_ne_zero {len : Nat} (h : 2 < len) : realWeight len 0 ≠ 0 := by
  have hlen : (2 : ℝ) < len := by exact_mod_cast h
  have hangle : π * len / (len - 1) = π / (len - 1) + π := by
    have : (len : ℝ) - 1 ≠ 0 := by linarith
    field_simp
    ring
  have hpos : 0 < π / ((len : ℝ) - 1) := div_pos pi_pos (by linarith)
  have hlt : π / ((len : ℝ) - 1) < 2 * π := (div_lt_self pi_pos (by linarith)).trans (by linarith [pi_pos])
  have hcos : cos (π / ((len : ℝ) - 1)) ≠ 1 :=
    mt (cos_eq_one_iff_of_lt_of_lt (by linarith [pi_pos]) hlt).mp hpos.ne'
  rw [realWeight_first, hangle, cos_add_pi]
  exact fun h0 => hcos (by linarith)

end Sys2Proof.Machine

open Sys2Proof Sys2Proof.Machine

/-- Settles O35: the exact weight is `realWeight`, whose first angle lies strictly between one half turn and two. -/
theorem exactHanningWeight : Obligations.ExactHanningWeight := by
  unfold Obligations.ExactHanningWeight
  intro sineNegated l i hl _
  have heven : 2 ∣ 2 ^ l := dvd_pow_self 2 (by omega)
  have hfour : 2 < 2 ^ l := (show 2 < 2 ^ 2 by norm_num).trans_le (Nat.pow_le_pow_right two_pos hl)
  simp only [val_hanningWeight sineNegated heven]
  refine ⟨?_, realWeight_le_two _ i, realWeight_half heven, ?_, realWeight_first_ne_zero hfour⟩
  · rw [realWeight, Nat.cast_pow, Nat.cast_ofNat]
  · rw [realWeight_first, Nat.cast_pow, Nat.cast_ofNat]

/-- Settles O36: the layout puts the cosine sums up to N/2 and the signed sine sums past it. -/
theorem exactTransform : Obligations.ExactTransform := by
  unfold Obligations.ExactTransform
  intro sineNegated l us hl hlen hproper
  rw [← hlen]
  have hpos : 0 < us.length := hlen ▸ Nat.two_pow_pos l
  exact ⟨exactFft_length _ _, fun k hk => exactFft_cosine _ hproper hk hpos,
    fun k h1 hk => exactFft_sine _ hproper h1 (by omega)⟩

end

section
/-! A pass under ARITH = exact, as real numbers: the power it adds to each bin (43_spectrum.md R181, R184, R186), and
the bins after as many equal passes as are averaged (R188). -/

namespace Sys2Proof.Machine

theorem arith_exact {s : State} {sineNegated : Bool} (h : s.params.arith = .exact sineNegated) :
    s.arith = ArithOps.exact sineNegated := by
  rw [State.arith, h, Arithmetic.ops]

/-! ## The power a pass adds (R181, R184) -/

theorem valuesOf_windowed (sineNegated : Bool) {xs : List Rat} {len n : Nat} (heven : 2 ∣ len) (hn : n < xs.length) :
    valuesOf (windowed (ArithOps.exact sineNegated) len 0 xs) n = realWindowed xs len n := by
  rw [valuesOf, realWindowed, List.getD_eq_getElem?_getD, windowed_getElem?, List.getD_eq_getElem?_getD,
    List.getElem?_eq_getElem hn, Nat.zero_add]
  change ((SVal.ofRat xs[n]).times (hanningWeight (ArithOps.exact sineNegated) len n)).val = _
  rw [SVal.val_times (SVal.isTrig_ofRat _).proper, SVal.val_ofRat, val_hanningWeight _ heven]
  rfl

theorem realCosine_congr {u v : Nat → ℝ} {len : Nat} (h : ∀ n < len, u n = v n) (k : Nat) :
    realCosine u len k = realCosine v len k :=
  Finset.sum_congr rfl fun n hn => by rw [h n (Finset.mem_range.mp hn)]

theorem realSine_congr {u v : Nat → ℝ} {len : Nat} (h : ∀ n < len, u n = v n) (k : Nat) :
    realSine u len k = realSine v len k :=
  Finset.sum_congr rfl fun n hn => by rw [h n (Finset.mem_range.mp hn)]

/-- The sign of the sine coefficients is squared away. -/
theorem val_power_exactFft (sineNegated : Bool) {us : List SVal} (h : ∀ u ∈ us, u.IsTrig) (nAvg : Nat) {k : Nat}
    (hlen : 0 < us.length) (heven : 2 ∣ us.length) (hk : k ≤ us.length / 2) :
    (power (ArithOps.exact sineNegated) (exactFft sineNegated us) us.length nAvg k).val =
      realPower (valuesOf us) us.length nAvg k := by
  have hproper : ∀ u ∈ us, u.Proper := fun u hu => (h u hu).proper
  have hfft := isTrig_exactFft h sineNegated
  have square {j : Nat} :
      (((exactFft sineNegated us).getD j .zero).times ((exactFft sineNegated us).getD j .zero)).val =
        ((exactFft sineNegated us).getD j .zero).val ^ 2 := by
    rw [SVal.val_times (SVal.isTrig_getD hfft j).proper, sq]
  unfold power realPower
  split_ifs with hedge
  · change (SVal.over (SVal.times _ _) (.ofRat _)).val = _
    rw [SVal.val_over, square, exactFft_cosine _ hproper hk hlen, SVal.val_ofRat]
    push_cast
    rfl
  · have hsign : ((if sineNegated then -1 else 1 : ℝ)) ^ 2 = 1 := by cases sineNegated <;> norm_num
    change (SVal.over (SVal.plus (SVal.times _ _) (SVal.times _ _)) (.ofRat _)).val = _
    rw [SVal.val_over, SVal.val_plus, square, square, exactFft_cosine _ hproper hk hlen, Nat.add_comm k,
      exactFft_sine _ hproper (by omega) (by omega), mul_pow, hsign, one_mul, SVal.val_ofRat]
    push_cast
    rfl

theorem realPower_congr {u v : Nat → ℝ} {len : Nat} (h : ∀ n < len, u n = v n) (nAvg k : Nat) :
    realPower u len nAvg k = realPower v len nAvg k := by
  rw [realPower, realPower, realCosine_congr h, realSine_congr h]

/-- The power of a pass of samples is the real power of the windowed samples. -/
theorem val_power_windowed (sineNegated : Bool) (xs : List Rat) (nAvg : Nat) {k : Nat} (hlen : 0 < xs.length)
    (heven : 2 ∣ xs.length) (hk : k ≤ xs.length / 2) :
    (power (ArithOps.exact sineNegated)
      ((ArithOps.exact sineNegated).fft (windowed (ArithOps.exact sineNegated) xs.length 0 xs)) xs.length nAvg k).val =
      realPower (realWindowed xs xs.length) xs.length nAvg k := by
  have hwindow := windowed_length (ArithOps.exact sineNegated) xs.length 0 xs
  have hpower := val_power_exactFft sineNegated (isTrig_windowed sineNegated xs.length 0 xs) nAvg (k := k)
  rw [hwindow] at hpower
  exact (hpower hlen heven hk).trans (realPower_congr (fun n hn => valuesOf_windowed sineNegated heven hn) nAvg k)

theorem val_accumulate (sineNegated : Bool) (xs : List Rat) (nAvg : Nat) {k : Nat} {m : Memory SVal}
    (hw : Memory.wf .zero m = true) (hlen : 0 < xs.length) (heven : 2 ∣ xs.length) (hk : k ≤ xs.length / 2) :
    (Memory.read .zero (accumulate (ArithOps.exact sineNegated) xs.length nAvg xs m) k).val =
      (Memory.read .zero m k).val + realPower (realWindowed xs xs.length) xs.length nAvg k := by
  rw [accumulate_read _ _ _ _ hw, if_pos (Nat.lt_succ_of_le hk), ← val_power_windowed sineNegated xs nAvg hlen heven hk]
  exact SVal.val_plus _ _

/-! ## Equal passes (R188) -/

theorem realPower_average (u : Nat → ℝ) (len m k : Nat) : realPower u len m k = realPower u len 1 k / m := by
  unfold realPower
  split_ifs
  all_goals
    rw [div_div]
    push_cast
    ring

theorem accumulate_iterate (sineNegated : Bool) (xs : List Rat) (nAvg : Nat) (hlen : 0 < xs.length)
    (heven : 2 ∣ xs.length) (n : Nat) :
    let m := (accumulate (ArithOps.exact sineNegated) xs.length nAvg xs)^[n] []
    Memory.wf .zero m = true ∧ ∀ k, k ≤ xs.length / 2 →
      (Memory.read .zero m k).val = n * realPower (realWindowed xs xs.length) xs.length nAvg k := by
  induction n with
  | zero => exact ⟨rfl, fun k _ => by simp⟩
  | succ n ih =>
    obtain ⟨hw, hval⟩ := ih
    rw [Function.iterate_succ_apply']
    refine ⟨accumulate_wf _ _ _ _ hw, fun k hk => ?_⟩
    rw [val_accumulate sineNegated xs nAvg hw hlen heven hk, hval k hk]
    push_cast
    ring

/-- Equal passes iterate on each channel's spectrum and on PASSCNT alone. -/
theorem accPass_iterate (s : State) (xs : List (Rat × Rat)) (n : Nat) :
    (fun u : State => u.accPass xs)^[n] s = { s with
      spec0 := (accumulate s.arith s.accn.toNat s.accnavg.toNat (xs.map Prod.fst))^[n] s.spec0
      spec1 := (accumulate s.arith s.accn.toNat s.accnavg.toNat (xs.map Prod.snd))^[n] s.spec1
      passcnt := (· + 1)^[n] s.passcnt } := by
  induction n with
  | zero => rfl
  | succ n ih =>
    simp only [Function.iterate_succ_apply', ih]
    rfl

/-- A channel's spectrum that was clear, after as many equal passes as are averaged, and its roots. -/
theorem val_bin_averaged {s : State} {sineNegated : Bool} {xs : List (Rat × Rat)} {c : Channel} {k : Nat}
    (ha : s.params.arith = .exact sineNegated) (hn : s.accn.toNat = xs.length) (hnavg : s.accnavg ≠ 0)
    (hlen : 0 < xs.length) (heven : 2 ∣ xs.length) (hclear : s.spec c = []) (hk : k ≤ xs.length / 2) :
    let t := (fun u : State => u.accPass xs)^[s.accnavg.toNat] s
    (t.bin c k).val = realPower (realWindowed (xs.map (channelOf c)) xs.length) xs.length 1 k ∧
      (t.accFinal.bin c k).val = Real.sqrt (t.bin c k).val := by
  intro t
  have ht : t = _ := accPass_iterate s xs s.accnavg.toNat
  have harith : t.arith = ArithOps.exact sineNegated := by
    rw [ht]
    exact arith_exact ha
  have haccn : t.accn.toNat = xs.length := by
    rw [ht]
    exact hn
  have hspec : t.spec c = (accumulate (ArithOps.exact sineNegated) xs.length s.accnavg.toNat
      (xs.map (channelOf c)))^[s.accnavg.toNat] [] := by
    rw [← hclear, ← arith_exact ha, ← hn, ht]
    cases c <;> rfl
  have hchannel : (xs.map (channelOf c)).length = xs.length := List.length_map _
  have hpasses := accumulate_iterate sineNegated (xs.map (channelOf c)) s.accnavg.toNat (by rwa [hchannel])
    (by rwa [hchannel]) s.accnavg.toNat
  rw [hchannel, ← hspec] at hpasses
  obtain ⟨hw, hval⟩ := hpasses
  constructor
  · have hnAvg : (s.accnavg.toNat : ℝ) ≠ 0 := Nat.cast_ne_zero.mpr (by bv_omega)
    exact (hval k hk).trans (by rw [realPower_average, mul_div_cancel₀ _ hnAvg])
  · rw [State.bin, accFinal_spec, harith, haccn, takeRoots_read _ _ hw, if_pos (Nat.lt_succ_of_le hk)]
    exact SVal.val_root _

end Sys2Proof.Machine

open Sys2Proof Sys2Proof.Machine

/-- Settles O37: the computation step is a pass of `accumulate` on each channel, each over 2^l samples. -/
theorem exactPassAddsRealPower : Obligations.ExactPassAddsRealPower := by
  unfold Obligations.ExactPassAddsRealPower
  intro s sineNegated l xs ha hl hn _ hxs hw _ _ hruns
  have heven : 2 ∣ 2 ^ l := dvd_pow_self 2 (by omega)
  have hbin (c : Channel) {k : Nat} (hk : k ≤ 2 ^ l / 2) : ((s.accPass xs).bin c k).val = (s.bin c k).val +
      realPower (realWindowed (xs.map (channelOf c)) (2 ^ l)) (2 ^ l) s.accnavg.toNat k := by
    have hlen : (xs.map (channelOf c)).length = 2 ^ l := (List.length_map _).trans hxs
    rw [State.bin, accPass_spec, arith_exact ha, hn, ← hlen]
    exact val_accumulate sineNegated _ _ (spec_wf hw c) (hlen ▸ Nat.two_pow_pos l) (hlen ▸ heven) (hlen ▸ hk)
  exact ⟨_, exec_accPass_full hruns (hn.trans hxs.symm).le, fun k hk => ⟨hbin .left hk, hbin .right hk⟩⟩

/-- Settles O38: m passes add m times the m-th part of the single-pass power to 0. -/
theorem averagingCountInvariance : Obligations.AveragingCountInvariance := by
  unfold Obligations.AveragingCountInvariance
  refine ⟨fun u len m k _ => realPower_average u len m k, ?_⟩
  intro s sineNegated l xs ha hl hn hnavg hxs h0 h1 t k hk
  rw [← hxs] at hn hk ⊢
  have heven : 2 ∣ xs.length := hxs ▸ dvd_pow_self 2 (by omega)
  have hlen : 0 < xs.length := hxs ▸ Nat.two_pow_pos l
  obtain ⟨hpower0, hroot0⟩ := val_bin_averaged (c := .left) ha hn hnavg hlen heven h0 hk
  obtain ⟨hpower1, hroot1⟩ := val_bin_averaged (c := .right) ha hn hnavg hlen heven h1 hk
  exact ⟨hpower0, hpower1, hroot0, hroot1⟩

end

section
/-! The channels do not mix (42_hpf.md R160, 43_spectrum.md R191): what a step of ACC_PASS leaves in a channel does not
depend on the other channel's filter, spectrum, samples and bytes.  It is said for either channel of two states that
agree on all else, and shown along FrameIn: each of its cases is the same one in both. -/

namespace Sys2Proof.Machine

/-! ## Two states alike to one channel -/

/-- The two states agree on what a step of ACC_PASS uses for channel `c`, the FIFO aside. -/
structure AlikeFor (c : Channel) (s s' : State) : Prop where
  params  : s'.params = s.params
  cfg     : s'.cfg = s.cfg
  eos     : s'.eos = s.eos
  hpfst   : s'.hpfst = s.hpfst
  hlen    : s'.hlen = s.hlen
  hfill   : s'.hfill = s.hfill
  accn    : s'.accn = s.accn
  accnavg : s'.accnavg = s.accnavg
  hpf     : s'.hpf c = s.hpf c
  spec    : s'.spec c = s.spec c

/-- Byte `j` of a frame with `n` bytes a channel is the channel's (41_input.md R143). -/
def ownsByte (n : Nat) : Channel → Nat → Prop
  | .left, j  => j < n
  | .right, j => n ≤ j ∧ j < 2 * n

/-- The two FIFOs are equally long and hold the same bytes of channel `c` in the next frame. -/
structure AlikeBytes (c : Channel) (s s' : State) : Prop where
  length : s'.fifo.length = s.fifo.length
  bytes  : ∀ j, ownsByte s.cfg.bytesPerChannel c j → s'.fifo.getD j 0 = s.fifo.getD j 0

/-- ReadFrame does the same in both for channel `c`. -/
inductive ReadAlike (c : Channel) : FrameTaken → FrameTaken → Prop where
  | waiting {t t' : State} (h : AlikeFor c t t') : ReadAlike c (.waiting t) (.waiting t')
  | short {t t' : State} (h : AlikeFor c t t') : ReadAlike c (.short t) (.short t')
  | frame {vL vR vL' vR' : Word} {t t' : State} (hv : channelOf c (vL', vR') = channelOf c (vL, vR))
      (h : AlikeFor c t t') : ReadAlike c (.frame vL vR t) (.frame vL' vR' t')

/-- FrameIn does the same in both for channel `c`. -/
inductive StepAlike (c : Channel) : FrameStep → FrameStep → Prop where
  | waiting {t t' : State} (h : AlikeFor c t t') : StepAlike c (.waiting t) (.waiting t')
  | preparing {t t' : State} (h : AlikeFor c t t') : StepAlike c (.preparing t) (.preparing t')
  | failed (e : ErrCode) {t t' : State} (h : AlikeFor c t t') : StepAlike c (.failed e t) (.failed e t')
  | frame {x0 x1 x0' x1' : Rat} {t t' : State} (hx : channelOf c (x0', x1') = channelOf c (x0, x1))
      (h : AlikeFor c t t') : StepAlike c (.frame x0 x1 t) (.frame x0' x1' t')

/-- The channel's filter and spectrum, and its samples of the pass being gathered, are the same in both. -/
structure SameChannel (c : Channel) (t t' : State) : Prop where
  hpf     : t'.hpf c = t.hpf c
  spec    : t'.spec c = t.spec c
  samples : ∀ ys, t.seq = .busy (encode .accPass) (.pass ys) →
    ∃ ys', t'.seq = .busy (encode .accPass) (.pass ys') ∧ ys'.map (channelOf c) = ys.map (channelOf c)

variable {c : Channel} {s s' t t' : State}

/-! ## ReadFrame (41_input.md R143) -/

/-- ReadFrame's updates leave what `AlikeFor` speaks of. -/
theorem AlikeFor.read (h : AlikeFor c s s') (fifo fifo' : List Byte) (stall : Bool) :
    AlikeFor c { s with fifo := fifo, stall := stall } { s' with fifo := fifo', stall := stall } :=
  { h with }

theorem AlikeFor.frameBytes (h : AlikeFor c s s') : s'.frameBytes = s.frameBytes := by
  rw [State.frameBytes, State.frameBytes, h.cfg]

theorem decodeFrame_alike {w16 : Bool} {b b' : List Byte}
    (h : ∀ j, ownsByte (if w16 then 2 else 4) c j → b'.getD j 0 = b.getD j 0) :
    channelOf c (decodeFrame w16 b') = channelOf c (decodeFrame w16 b) := by
  cases w16 <;> cases c
  all_goals
    simp only [ownsByte] at h
    simp (disch := decide) only [decodeFrame, channelOf, h]
    rfl

/-- A byte of the channel is the FIFO's own, or SENTINEL in both. -/
theorem frameInput_alike (h : AlikeFor c s s') (hb : AlikeBytes c s s') {j : Nat}
    (hj : ownsByte s.cfg.bytesPerChannel c j) : s'.frameInput.getD j 0 = s.frameInput.getD j 0 := by
  have hlt : j < s.frameBytes := by
    cases c
    · exact Nat.lt_of_lt_of_le hj (Nat.le_mul_of_pos_left _ two_pos)
    · exact hj.2
  have hbyte := hb.bytes j hj
  have hlevel : s'.level = s.level := hb.length
  simp only [State.frameInput, h.frameBytes, hlevel, h.params, List.getD_eq_getElem?_getD, List.getElem?_append,
    List.length_take, hb.length, List.getElem?_take, hlt, if_true] at hbyte ⊢
  split_ifs
  · exact hbyte
  · rfl

theorem readFrame_alike (h : AlikeFor c s s') (hb : AlikeBytes c s s') : ReadAlike c (readFrame s) (readFrame s') := by
  have hlevel : s'.level = s.level := hb.length
  by_cases hready : s.frameReady
  · have hready' : s'.frameReady := by rwa [State.frameReady, h.frameBytes, hlevel, h.eos, h.cfg]
    have hw16 : s'.cfg.w16 = s.cfg.w16 := congrArg Cfg.w16 h.cfg
    rw [readFrame_ready hready, readFrame_ready hready', hw16]
    exact .frame (decodeFrame_alike fun j hj => frameInput_alike h hb hj) (h.read _ _ _)
  · obtain ⟨hshort, hend⟩ := not_or.mp hready
    have hshort : s.level < 2 * s.cfg.bytesPerChannel := Nat.not_le.mp hshort
    have hshort' : s'.level < 2 * s'.cfg.bytesPerChannel := by rwa [hlevel, h.cfg]
    rcases he : s.eos
    · rw [readFrame_waiting hshort he, readFrame_waiting hshort' (h.eos.trans he)]
      exact .waiting (h.read s.fifo s'.fifo true)
    · have htol : s.cfg.tol = false := Bool.eq_false_iff.mpr fun ht => hend ⟨he, ht⟩
      rw [readFrame_short hshort he htol, readFrame_short hshort' (h.eos.trans he) (h.cfg ▸ htol)]
      exact .short (h.read _ _ _)

/-! ## FrameIn (42_hpf.md R161-R166) -/

theorem hpfPreload_hpf (s : State) (vL vR : Word) (c : Channel) : (s.hpfPreload vL vR).hpf c =
    { (s.hpf c).preload s.hfill.toNat (channelOf c (vL, vR)) with
      cur := if s.hfill + 1 = s.hlen - 1 then s.hlen - 1 else (s.hpf c).cur } := by
  rw [hpfPreload_eq]
  cases c <;> rfl

theorem AlikeFor.preload {vL vR vL' vR' : Word} (h : AlikeFor c s s')
    (hv : channelOf c (vL', vR') = channelOf c (vL, vR)) :
    AlikeFor c (s.hpfPreload vL vR) (s'.hpfPreload vL' vR') := by
  have hhpf : (s'.hpfPreload vL' vR').hpf c = (s.hpfPreload vL vR).hpf c := by
    rw [hpfPreload_hpf, hpfPreload_hpf, h.hpf, hv, h.hfill, h.hlen]
  rw [hpfPreload_eq, hpfPreload_eq] at hhpf ⊢
  exact { h with hpf := hhpf, hfill := congrArg (· + 1) h.hfill, hpfst := by simp only [h.hfill, h.hlen, h.hpfst] }

theorem AlikeFor.filters {vL vR vL' vR' : Word} (h : AlikeFor c s s')
    (hv : channelOf c (vL', vR') = channelOf c (vL, vR)) :
    StepAlike c
      (.frame (s.hpf0.step s.hlen.toNat vL).2 (s.hpf1.step s.hlen.toNat vR).2
        { s with hpf0 := (s.hpf0.step s.hlen.toNat vL).1, hpf1 := (s.hpf1.step s.hlen.toNat vR).1 })
      (.frame (s'.hpf0.step s'.hlen.toNat vL').2 (s'.hpf1.step s'.hlen.toNat vR').2
        { s' with hpf0 := (s'.hpf0.step s'.hlen.toNat vL').1, hpf1 := (s'.hpf1.step s'.hlen.toNat vR').1 }) := by
  have hstep : (s'.hpf c).step s'.hlen.toNat (channelOf c (vL', vR')) =
      (s.hpf c).step s.hlen.toNat (channelOf c (vL, vR)) := by rw [h.hpf, h.hlen, hv]
  have hout := congrArg Prod.snd hstep
  have hchannel := congrArg Prod.fst hstep
  cases c
  all_goals exact .frame hout { h with hpf := hchannel }

theorem AlikeFor.hpfStart (h : AlikeFor c s s') : AlikeFor c s.hpfStart s'.hpfStart :=
  { h with hpfst := rfl, hfill := rfl, hlen := by rw [State.hpfStart, State.hpfStart, h.cfg] }

theorem channelOf_normalize {vL vR vL' vR' : Word} (hv : channelOf c (vL', vR') = channelOf c (vL, vR)) :
    channelOf c (normalize vL', normalize vR') = channelOf c (normalize vL, normalize vR) := by
  cases c
  all_goals exact congrArg normalize hv

theorem frameIn_alike (h : AlikeFor c s s') (hb : AlikeBytes c s s') : StepAlike c (frameIn s) (frameIn s') := by
  have hread := readFrame_alike h hb
  rcases he : s.cfg.hpfen
  · rw [frameIn_bypass he, frameIn_bypass (h.cfg ▸ he)]
    generalize readFrame s = r, readFrame s' = r' at hread
    cases hread with
    | waiting h => exact .waiting h
    | short h => exact .failed .input h
    | frame hv h => exact .frame (channelOf_normalize hv) h
  · have he' : s'.cfg.hpfen = true := h.cfg ▸ he
    rcases hpfst_cases s with hp | hp | hp
    · have hbad : s'.hpfLengthBad = s.hpfLengthBad := by rw [State.hpfLengthBad, State.hpfLengthBad, h.cfg, h.params]
      rw [frameIn_uninit he hp, frameIn_uninit he' (h.hpfst.trans hp), hbad]
      split_ifs
      · exact .failed .cfg h
      · exact .preparing h.hpfStart
    · rw [frameIn_fill he hp, frameIn_fill he' (h.hpfst.trans hp)]
      generalize readFrame s = r, readFrame s' = r' at hread
      cases hread with
      | waiting h => exact .waiting h
      | short h => exact .failed .input h
      | frame hv h => exact .preparing (h.preload hv)
    · rw [frameIn_run he hp, frameIn_run he' (h.hpfst.trans hp)]
      generalize readFrame s = r, readFrame s' = r' at hread
      cases hread with
      | waiting h => exact .waiting h
      | short h => exact .failed .input h
      | frame hv h => exact h.filters hv

/-! ## ACC_PASS (43_spectrum.md R186) -/

theorem AlikeFor.gathers {xs xs' : List (Rat × Rat)} (h : AlikeFor c t t')
    (hx : xs'.map (channelOf c) = xs.map (channelOf c)) :
    SameChannel c (t.goOn .accPass (.pass xs)) (t'.goOn .accPass (.pass xs')) where
  hpf     := h.hpf
  spec    := h.spec
  samples := by
    rintro ys ⟨⟩
    exact ⟨xs', rfl, hx⟩

theorem StepAlike.resume {f f' : FrameStep} {xs xs' : List (Rat × Rat)} (h : StepAlike c f f')
    (hx : xs'.map (channelOf c) = xs.map (channelOf c)) :
    SameChannel c (f.resume .accPass (.pass xs)) (f'.resume .accPass (.pass xs')) := by
  cases h with
  | waiting h | preparing h => exact h.gathers hx
  | failed e h => exact ⟨h.hpf, h.spec, nofun⟩
  | frame hv h =>
    refine h.gathers ?_
    rw [List.map_append, List.map_append, hx, List.map_singleton, List.map_singleton, hv]

theorem AlikeFor.accPass {xs xs' : List (Rat × Rat)} (h : AlikeFor c s s')
    (hx : xs'.map (channelOf c) = xs.map (channelOf c)) :
    SameChannel c (s.accPass xs).complete (s'.accPass xs').complete where
  hpf     := h.hpf
  spec    := by
    have harith : s'.arith = s.arith := by rw [State.arith, State.arith, h.params]
    change (s'.accPass xs').spec c = (s.accPass xs).spec c
    rw [accPass_spec, accPass_spec, harith, h.accn, h.accnavg, h.spec, hx]
  samples := nofun

theorem exec_accPass_alike {xs xs' : List (Rat × Rat)} (hstep : exec .accPass s = .next t)
    (hstep' : exec .accPass s' = .next t') (hruns : s.runs .accPass (.pass xs))
    (hruns' : s'.runs .accPass (.pass xs')) (h : AlikeFor c s s') (hb : AlikeBytes c s s')
    (hx : xs'.map (channelOf c) = xs.map (channelOf c)) : SameChannel c t t' := by
  have hlen : xs'.length = xs.length := by simpa using congrArg List.length hx
  rcases Nat.lt_or_ge xs.length s.accn.toNat with hlt | hfull
  · rw [exec_of_wantsFrame ⟨hruns, hlt⟩] at hstep
    rw [exec_of_wantsFrame ⟨hruns', show xs'.length < _ by rwa [hlen, h.accn]⟩] at hstep'
    cases hstep
    cases hstep'
    exact (frameIn_alike h hb).resume hx
  · rw [exec_accPass_full hruns hfull] at hstep
    rw [exec_accPass_full hruns' (by rwa [hlen, h.accn])] at hstep'
    cases hstep
    cases hstep'
    exact h.accPass hx

end Sys2Proof.Machine

open Sys2Proof Sys2Proof.Machine

/-- Settles O39: a state with another right channel is alike to the left one, and the other way round. -/
theorem leftChannelIgnoresRight : Obligations.LeftChannelIgnoresRight := by
  unfold Obligations.LeftChannelIgnoresRight
  intro s t t' xs xs' h m bytes hruns hlen hstep
  refine ⟨fun hx hbytes hstep' => ?_, fun hx hbytes hstep' => ?_⟩
  · obtain ⟨hhpf, hspec, hsamples⟩ := exec_accPass_alike (c := .left) hstep hstep' hruns rfl
      ⟨rfl, rfl, rfl, rfl, rfl, rfl, rfl, rfl, rfl, rfl⟩ ⟨hlen, hbytes⟩ hx
    exact ⟨hhpf, hspec, hsamples⟩
  · obtain ⟨hhpf, hspec, hsamples⟩ := exec_accPass_alike (c := .right) hstep hstep' hruns rfl
      ⟨rfl, rfl, rfl, rfl, rfl, rfl, rfl, rfl, rfl, rfl⟩ ⟨hlen, fun j hj => hbytes j hj.1 hj.2⟩ hx
    exact ⟨hhpf, hspec, hsamples⟩

end

section
/-! The reducer's values (44_thdn.md R211-R215): the bins that frequencies pick, the search, the two powers and the
metric, under every realization where the rule says no more of one, and as real numbers under ARITH = exact. -/

namespace Sys2Proof

/-! ## The exact operations (00_scope.md R17) -/

@[simp] theorem ArithOps.exact_mul (sineNegated : Bool) : (ArithOps.exact sineNegated).mul = SVal.times := rfl
@[simp] theorem ArithOps.exact_div (sineNegated : Bool) : (ArithOps.exact sineNegated).div = SVal.over := rfl
@[simp] theorem ArithOps.exact_sqrt (sineNegated : Bool) : (ArithOps.exact sineNegated).sqrt = SVal.root := rfl

end Sys2Proof

namespace Sys2Proof.Machine

/-! ## The fundamental (R212, R213) -/

theorem fundamental_caller {tf : Nat} (h : tf ≠ 0) (len fs : Nat) (amp : Nat → SVal) (kmin kmax : Nat) :
    fundamental tf len fs amp kmin kmax = callerBin tf len fs := if_pos h

theorem fundamental_search (len fs : Nat) (amp : Nat → SVal) (kmin kmax : Nat) :
    fundamental 0 len fs amp kmin kmax = searchBin amp kmin kmax := rfl

@[simp] theorem searchBin_single (amp : Nat → SVal) (kmin : Nat) : searchBin amp kmin kmin = kmin := by
  rw [searchBin, Nat.sub_self, List.range'_zero, List.foldl_nil]

/-- The search takes the bin above its range up when that is greater than its find. -/
theorem searchBin_succ (amp : Nat → SVal) {kmin kmax : Nat} (h : kmin ≤ kmax) :
    searchBin amp kmin (kmax + 1) =
      if (amp (searchBin amp kmin kmax)).less (amp (kmax + 1)) then kmax + 1 else searchBin amp kmin kmax := by
  have hlast : kmin + 1 + 1 * (kmax - kmin) = kmax + 1 := by omega
  rw [searchBin, Nat.succ_sub h, List.range'_concat, List.foldl_append, hlast]
  rfl

/-- `k` is the least index of a greatest value of `v` in `[lo, hi]` (44_thdn.md R213). -/
def LeastMaximum (v : Nat → ℝ) (lo hi k : Nat) : Prop :=
  lo ≤ k ∧ k ≤ hi ∧ (∀ j, lo ≤ j → j ≤ hi → v j ≤ v k) ∧ ∀ j, lo ≤ j → j < k → v j < v k

theorem leastMaximum_single (v : Nat → ℝ) (lo : Nat) : LeastMaximum v lo lo lo :=
  ⟨le_rfl, le_rfl, fun _ h1 h2 => (congrArg v (le_antisymm h2 h1)).le, fun _ h1 h2 => absurd h1 h2.not_ge⟩

/-- A greater value just above the range is its only maximum. -/
theorem LeastMaximum.succ_of_lt {v : Nat → ℝ} {lo hi k : Nat} (h : LeastMaximum v lo hi k) (hlt : v k < v (hi + 1)) :
    LeastMaximum v lo (hi + 1) (hi + 1) := by
  obtain ⟨hlo, hhi, hmax, -⟩ := h
  have below : ∀ j, lo ≤ j → j < hi + 1 → v j < v (hi + 1) :=
    fun j h1 h2 => (hmax j h1 (Nat.le_of_lt_succ h2)).trans_lt hlt
  refine ⟨by omega, le_rfl, fun j h1 h2 => ?_, below⟩
  rcases h2.eq_or_lt with rfl | h2
  · exact le_rfl
  · exact (below j h1 h2).le

/-- A value just above the range that is no greater leaves its least maximum. -/
theorem LeastMaximum.succ_of_le {v : Nat → ℝ} {lo hi k : Nat} (h : LeastMaximum v lo hi k) (hle : v (hi + 1) ≤ v k) :
    LeastMaximum v lo (hi + 1) k := by
  obtain ⟨hlo, hhi, hmax, hleast⟩ := h
  refine ⟨hlo, by omega, fun j h1 h2 => ?_, hleast⟩
  rcases h2.eq_or_lt with rfl | h2
  · exact hle
  · exact hmax j h1 (Nat.le_of_lt_succ h2)

theorem searchBin_leastMaximum (amp : Nat → SVal) {kmin kmax : Nat} (h : kmin ≤ kmax) :
    LeastMaximum (fun k => (amp k).val) kmin kmax (searchBin amp kmin kmax) := by
  induction kmax, h using Nat.le_induction with
  | base => rw [searchBin_single]; exact leastMaximum_single _ _
  | succ kmax h ih =>
    rw [searchBin_succ amp h]
    split_ifs with hless
    · exact ih.succ_of_lt ((SVal.less_iff _ _).mp hless)
    · exact ih.succ_of_le (not_lt.mp (mt (SVal.less_iff _ _).mpr hless))

/-! ## The powers (R214) -/

theorem inSignal_iff (kf hw k : Nat) : inSignal kf hw k = true ↔ (k : Int) - kf ≤ hw ∧ (kf : Int) - k ≤ hw := by
  rw [inSignal, decide_eq_true_eq]
  omega

theorem mem_validRange {kmin kmax k : Nat} : k ∈ List.range' kmin (kmax + 1 - kmin) ↔ kmin ≤ k ∧ k ≤ kmax := by
  rw [List.mem_range'_1]
  omega

theorem powerSum_none (ar : ArithOps) (amp : Nat → SVal) {kmin kmax : Nat} {keep : Nat → Bool}
    (h : ∀ k, kmin ≤ k → k ≤ kmax → keep k = false) : powerSum ar amp kmin kmax keep = .zero := by
  have hnil : (List.range' kmin (kmax + 1 - kmin)).filter keep = [] := by
    refine List.filter_eq_nil_iff.mpr fun k hk => ?_
    obtain ⟨h1, h2⟩ := mem_validRange.mp hk
    exact Bool.eq_false_iff.mp (h k h1 h2)
  rw [powerSum, hnil, List.map_nil, sumOf_nil]

theorem powerSum_single (ar : ArithOps) (amp : Nat → SVal) {kmin kmax k : Nat} {keep : Nat → Bool} (h1 : kmin ≤ k)
    (h2 : k ≤ kmax) (h : ∀ j, kmin ≤ j → j ≤ kmax → (keep j = true ↔ j = k)) :
    powerSum ar amp kmin kmax keep = ar.mul (amp k) (amp k) := by
  have hone : (List.range' kmin (kmax + 1 - kmin)).filter keep = [k] := by
    have hkeep : (List.range' kmin (kmax + 1 - kmin)).filter keep =
        (List.range' kmin (kmax + 1 - kmin)).filter (· == k) := by
      refine List.filter_congr fun j hj => ?_
      obtain ⟨hj1, hj2⟩ := mem_validRange.mp hj
      rw [Bool.eq_iff_iff, h j hj1 hj2, beq_iff_eq]
    rw [hkeep, List.filter_beq, List.count_eq_one_of_mem List.nodup_range' (mem_validRange.mpr ⟨h1, h2⟩)]
    rfl
  rw [powerSum, hone, List.map_singleton, sumOf_singleton]

theorem val_powerSum (sineNegated : Bool) {amp : Nat → SVal} (h : ∀ k, (amp k).Proper) (kmin kmax : Nat)
    (keep : Nat → Bool) : (powerSum (ArithOps.exact sineNegated) amp kmin kmax keep).val =
      ∑ k ∈ Finset.Icc kmin kmax, if keep k = true then (amp k).val ^ 2 else 0 := by
  have hbins : ((List.range' kmin (kmax + 1 - kmin)).filter keep).toFinset =
      (Finset.Icc kmin kmax).filter fun k => keep k = true := by
    ext k
    rw [List.mem_toFinset, List.mem_filter, mem_validRange, Finset.mem_filter, Finset.mem_Icc]
  have hsquare : ∀ k, ((amp k).times (amp k)).val = (amp k).val ^ 2 :=
    fun k => (SVal.val_times (h k)).trans (sq _).symm
  rw [powerSum, sumOf_exact_val, List.map_map, ← Finset.sum_filter, ← hbins,
    List.sum_toFinset _ (List.Nodup.filter keep List.nodup_range')]
  exact congrArg List.sum (List.map_congr_left fun k _ => hsquare k)

/-! ## The metric (R215) -/

theorem metric_of_signal (ar : ArithOps) {sigP : SVal} (noiseP : SVal) (h : 0 < sigP.val) :
    metric ar sigP noiseP =
      (ar.sqrt sigP, ar.sqrt noiseP, ar.div (ar.mul (.ofRat 100) (ar.sqrt noiseP)) (ar.sqrt sigP)) :=
  if_pos ((SVal.less_iff _ _).mpr (by rwa [SVal.val_zero]))

theorem metric_of_no_signal (ar : ArithOps) {sigP : SVal} (noiseP : SVal) (h : sigP.val = 0) :
    metric ar sigP noiseP = (.zero, ar.sqrt noiseP, .ofRat 100) :=
  if_neg (mt (SVal.less_iff _ _).mp (by rw [SVal.val_zero, h]; exact lt_irrefl 0))

end Sys2Proof.Machine

open Sys2Proof Sys2Proof.Machine

/-- Settles O40: both bins are `roundDiv`, the rounding of 00_scope.md R15. -/
theorem binsFromFrequencies : Obligations.BinsFromFrequencies := by
  unfold Obligations.BinsFromFrequencies
  intro len fs tf hfs
  refine ⟨?_, fun amp kmin kmax htf => ?_⟩
  · rw [kMin, roundDiv_eq_floor _ hfs]
    push_cast
    rfl
  · rw [fundamental_caller htf, callerBin, roundDiv_eq_floor _ (Nat.mul_pos (by norm_num) hfs)]
    push_cast
    rfl

/-- Settles O41: after each bin of the loop the find is the least maximum of the bins so far. -/
theorem searchFindsLeastMaximum : Obligations.SearchFindsLeastMaximum := by
  unfold Obligations.SearchFindsLeastMaximum
  intro len fs amp kmin kmax h
  rw [fundamental_search]
  exact searchBin_leastMaximum amp h

/-- Settles O42: the bins that count are those of the valid range that `inSignal` selects, or those it does not. -/
theorem powersSplitTheValidRange : Obligations.PowersSplitTheValidRange := by
  unfold Obligations.PowersSplitTheValidRange
  refine ⟨fun ar amp len fs tf hw => ⟨fun hnone => ?_, fun k h1 h2 hone => powerSum_single ar amp h1 h2 hone⟩,
    fun sineNegated amp len fs tf hw hproper => ⟨?_, ?_⟩⟩
  · have hsig : (reduce ar amp len fs tf hw).sigP = .zero := powerSum_none ar amp hnone
    have hmetric := metric_of_no_signal ar (reduce ar amp len fs tf hw).noiseP
      ((congrArg SVal.val hsig).trans SVal.val_zero)
    exact ⟨hsig, congrArg Prod.fst hmetric, congrArg (fun m => m.2.2) hmetric⟩
  · refine (val_powerSum sineNegated hproper _ _ _).trans (Finset.sum_congr rfl fun k _ => ?_)
    simp only [inSignal_iff]
  · refine (val_powerSum sineNegated hproper _ _ _).trans (Finset.sum_congr rfl fun k _ => ?_)
    simp only [Bool.not_eq_true', ← Bool.not_eq_true, inSignal_iff, ite_not]

/-- Settles O43: the metric's two cases, whose root, product and quotient are those of the real numbers. -/
theorem exactMetric : Obligations.ExactMetric := by
  unfold Obligations.ExactMetric
  intro sineNegated sigP noiseP _ _ hsig _
  rcases hsig.eq_or_lt with h0 | hpos
  · simp only [metric_of_no_signal _ _ h0.symm, ArithOps.exact_sqrt, SVal.val_root, SVal.val_zero, SVal.val_ofRat]
    refine ⟨trivial, fun _ => ⟨trivial, by norm_num⟩, fun hpos => absurd h0 hpos.ne, le_rfl, Real.sqrt_nonneg _, ?_⟩
    norm_num
  · simp only [metric_of_signal _ _ hpos, ArithOps.exact_sqrt, ArithOps.exact_mul, ArithOps.exact_div,
      SVal.val_root, SVal.val_over, SVal.val_times (SVal.isTrig_ofRat 100).proper, SVal.val_ofRat]
    refine ⟨trivial, fun h0 => absurd h0 hpos.ne', fun _ => ⟨trivial, by norm_num⟩, Real.sqrt_nonneg _,
      Real.sqrt_nonneg _, ?_⟩
    positivity

end

section
/-! THDN (44_thdn.md R210, R216, R217): what its steps come to, and a silent channel's results. -/

namespace Sys2Proof.Machine

theorem exec_thdn_start {s : State} {ch : Channel} (h : s.runs (.thdn ch) .start) (hf : s.accst = .final) :
    exec (.thdn ch) s = .next ((s.thdn ch).goOn (.thdn ch) .finish) := by
  rw [exec, execThdn, progress_of_runs h]
  exact if_pos hf

theorem exec_thdn_finish {s : State} {ch : Channel} (h : s.runs (.thdn ch) .finish) :
    exec (.thdn ch) s = .next s.complete := by
  rw [exec, execThdn, progress_of_runs h]

theorem goOn_res (s : State) (i : Instr) (p : Progress) (c : Channel) : (s.goOn i p).res c = s.res c := by
  cases c <;> rfl

theorem thdn_res (s : State) (ch : Channel) : (s.thdn ch).res ch =
    reduce s.arith (s.bin ch) s.accn.toNat s.accfs.toNat (s.tfreq ch).toNat (s.halfw ch).toNat :=
  State.setRes_same s ch _

theorem thdn_res_other (s : State) {ch c : Channel} (h : c ≠ ch) : (s.thdn ch).res c = s.res c :=
  State.setRes_other s ch c _ h

theorem toNat_saturateBin (kf : Nat) : (saturateBin kf).toNat = min kf 0xFFFFFFFF := by
  unfold saturateBin
  split_ifs with h
  · rw [BitVec.toNat_ofNat]
    omega
  · exact (min_eq_right (Nat.le_of_not_le h)).symm

theorem saturateBin_of_le {kf : Nat} (h : kf ≤ 0xFFFFFFFF) : saturateBin kf = BitVec.ofNat 32 kf := if_pos h

/-- Among bins of one value the search stays at the first. -/
theorem searchBin_constant {amp : Nat → SVal} {x : SVal} (ha : ∀ k, amp k = x) {kmin kmax : Nat} (h : kmin ≤ kmax) :
    searchBin amp kmin kmax = kmin := by
  obtain ⟨hlo, -, -, hleast⟩ := searchBin_leastMaximum amp h
  refine (hlo.eq_or_lt.resolve_right fun hlt => ?_).symm
  have := hleast kmin le_rfl hlt
  simp only [ha, lt_irrefl] at this

theorem val_powerSum_silent (sineNegated : Bool) {amp : Nat → SVal} (ha : ∀ k, amp k = .zero) (kmin kmax : Nat)
    (keep : Nat → Bool) : (powerSum (ArithOps.exact sineNegated) amp kmin kmax keep).val = 0 := by
  rw [val_powerSum sineNegated fun k => ha k ▸ SVal.isTrig_zero.proper]
  simp [ha]

end Sys2Proof.Machine

open Sys2Proof Sys2Proof.Machine

/-- Settles O44: the results are `reduce`'s, in the one channel that `setRes` writes. -/
theorem thdnWritesResults : Obligations.ThdnWritesResults := by
  unfold Obligations.ThdnWritesResults
  refine fun s ch => ⟨fun h hf => ⟨_, exec_thdn_start h hf, rfl, ?_, fun c hc => ?_, ?_⟩, exec_thdn_finish⟩
  · rw [goOn_res, thdn_res]
    exact ⟨rfl, toNat_saturateBin _, rfl, rfl, rfl⟩
  · rw [goOn_res, thdn_res_other s hc]
  · cases ch <;> rfl

/-- Settles O45: the search of a silent range stays at kmin, which the control invariant puts in the range, and the
powers are sums of zeros. -/
theorem silenceReadsHundred : Obligations.SilenceReadsHundred := by
  unfold Obligations.SilenceReadsHundred
  intro s ch sineNegated ha hc hruns hf htf hsilent
  obtain ⟨-, -, -, hrange⟩ := hc.accOpen (by rw [hf]; nofun)
  have hkf : fundamental 0 s.accn.toNat s.accfs.toNat (s.bin ch) (kMin s.accn.toNat s.accfs.toNat)
      (s.accn.toNat / 2) = kMin s.accn.toNat s.accfs.toNat :=
    (fundamental_search _ _ _ _ _).trans (searchBin_constant hsilent hrange)
  have hbin : saturateBin (kMin s.accn.toNat s.accfs.toNat) = BitVec.ofNat 32 (kMin s.accn.toNat s.accfs.toNat) :=
    saturateBin_of_le (by omega)
  have hpower := val_powerSum_silent sineNegated hsilent (kMin s.accn.toNat s.accfs.toNat) (s.accn.toNat / 2)
  have htf0 : (s.tfreq ch).toNat = 0 := by rw [htf]; rfl
  refine ⟨_, exec_thdn_start hruns hf, State.setRes_err s ch _, ?_⟩
  rw [goOn_res, thdn_res, arith_exact ha, htf0]
  simp only [reduce, hkf, hbin, hpower, metric_of_no_signal _ _ (hpower _), ArithOps.exact_sqrt, SVal.val_root,
    Real.sqrt_zero, SVal.val_zero, SVal.val_ofRat]
  norm_num

end

section
/-! MEASURE (44_thdn.md R218): what its step comes to at each of its progresses, and its checks. -/

namespace Sys2Proof.Machine

theorem exec_measure_start {s : State} (h : s.runs .measure .start) :
    exec .measure s = .next (if s.accConfigBad || s.hpfConfigBad then s.raise .cfg (encode .measure)
      else s.accClear.goOn .measure (.measurePass s.cfg.navg.toNat [])) := by
  rw [exec, execMeasure, progress_of_runs h]
  split_ifs <;> rfl

theorem exec_measure_full {s : State} {left : Nat} {xs : List (Rat × Rat)}
    (h : s.runs .measure (.measurePass (left + 1) xs)) (hfull : s.accn.toNat ≤ xs.length) :
    exec .measure s = .next ((s.accPass xs).goOn .measure (.measurePass left [])) := by
  rw [exec, execMeasure, progress_of_runs h]
  exact congrArg _ (if_neg (Nat.not_lt.mpr hfull))

theorem exec_measure_passesDone {s : State} {xs : List (Rat × Rat)} (h : s.runs .measure (.measurePass 0 xs)) :
    exec .measure s = .next (s.accFinal.goOn .measure (.measureThdn .left)) := by
  rw [exec, execMeasure, progress_of_runs h]

theorem exec_measure_left {s : State} (h : s.runs .measure (.measureThdn .left)) :
    exec .measure s = .next ((s.thdn .left).goOn .measure (.measureThdn .right)) := by
  rw [exec, execMeasure, progress_of_runs h]

theorem exec_measure_right {s : State} (h : s.runs .measure (.measureThdn .right)) :
    exec .measure s = .next ((s.thdn .right).goOn .measure .finish) := by
  rw [exec, execMeasure, progress_of_runs h]

theorem exec_measure_finish {s : State} (h : s.runs .measure .finish) : exec .measure s = .next s.complete := by
  rw [exec, execMeasure, progress_of_runs h]

theorem hpfConfigBad_iff (s : State) : s.hpfConfigBad = true ↔ s.cfg.hpfen = true ∧ s.hpfst = .uninit ∧
    (s.cfg.srate.toNat / 10 < 2 ∨ s.params.hmax < s.cfg.srate.toNat / 10) := by
  rw [State.hpfConfigBad, Bool.and_eq_true, Bool.and_eq_true, decide_eq_true_eq, hpfLengthBad_iff, and_assoc]

end Sys2Proof.Machine

open Sys2Proof Sys2Proof.Machine

/-- Settles O46: the first step asks for ACC_CLEAR's checks and the filter's before it writes anything. -/
theorem measureChecksFirst : Obligations.MeasureChecksFirst := by
  unfold Obligations.MeasureChecksFirst
  intro s h l bad
  have hbad : (s.accConfigBad || s.hpfConfigBad) = true ↔ bad := by
    rw [Bool.or_eq_true, accConfigBad_iff, hpfConfigBad_iff]
    simp only [or_assoc, bad, l]
  rw [exec_measure_start h]
  refine ⟨fun hb => ?_, fun hb => ?_⟩
  · rw [if_pos (hbad.mpr hb)]
    rfl
  · rw [if_neg (mt hbad.mp hb)]
    rfl

/-- Settles O47: a frame is FrameIn's bypassed one, and every other step is one effect of MEASURE's parts. -/
theorem measureRunsItsParts : Obligations.MeasureRunsItsParts := by
  unfold Obligations.MeasureRunsItsParts
  refine fun s => ⟨fun left xs => exec_measure_full, fun left xs h hlt he hr => ?_, fun xs => exec_measure_passesDone,
    exec_measure_left, exec_measure_right, exec_measure_finish⟩
  rw [exec_of_wantsFrame ⟨h, hlt⟩, frameIn_bypasses he hr]
  rfl

end

section
/-! The errors of the running command (60_exceptions.md R233-R236): where a step can raise one, and what that step
leaves as it was. -/

namespace Sys2Proof.Machine

/-! ## Error entry (R236) -/

/-- A step of command `i` leaves ERR as it was, or is `raise` with the command's word from the state before it, bytes of
the FIFO having been consumed at most. -/
def ErrorStep (i : Instr) (s t : State) : Prop :=
  t.err = s.err ∨ ∃ e fifo, e ≠ .none ∧ t = { s with fifo := fifo }.raise e (encode i)

theorem raise_errorStep (i : Instr) (s : State) {e : ErrCode} (he : e ≠ .none) :
    ErrorStep i s (s.raise e (encode i)) :=
  .inr ⟨e, s.fifo, he, rfl⟩

theorem frameIn_err (s : State) : (frameIn s).state.err = s.err :=
  (CommandEffect.input (frameIn_effect s)).flags.2

theorem resume_errorStep (i : Instr) (p : Progress) (s : State) : ErrorStep i s ((frameIn s).resume i p) := by
  have herr := frameIn_err s
  cases hf : frameIn s <;> rw [hf] at herr
  case failed e t =>
    obtain ⟨rfl, rfl, -⟩ | ⟨rfl, rfl, -⟩ := frameIn_fails hf
    · exact raise_errorStep i t nofun
    · exact .inr ⟨.input, [], nofun, rfl⟩
  all_goals exact .inl herr

theorem discardStep_errorStep (count left : Nat) (s : State) :
    ErrorStep (.discard count) s (discardStep count left s) := by
  cases left with
  | zero => exact .inl rfl
  | succ k =>
    rcases hf : s.fifo with _ | ⟨b, rest⟩
    · rcases he : s.eos
      · rw [discardStep_waiting hf he]
        exact .inl rfl
      · rcases ht : s.cfg.tol
        · rw [discardStep_missing hf he ht]
          exact .inr ⟨.input, s.fifo, nofun, rfl⟩
        · rw [discardStep_sentinel hf he ht]
          exact .inl rfl
    · rw [discardStep_byte hf]
      exact .inl rfl

theorem execFrame_errorStep {s t : State} (h : execFrame s = .next t) : ErrorStep .frame s t := by
  unfold execFrame at h
  split at h
  · cases h
    exact .inl rfl
  · have hin := resume_errorStep .frame .start s
    cases hf : frameIn s <;> rw [hf] at h hin <;> cases h <;> exact hin

theorem execAccClear_errorStep {s t : State} (h : execAccClear s = .next t) : ErrorStep .accClear s t := by
  unfold execAccClear at h
  split at h
  · cases h
    exact .inl rfl
  · split_ifs at h <;> cases h
    · exact raise_errorStep _ s nofun
    · exact .inl rfl

theorem execAccPass_errorStep {s t : State} (h : execAccPass s = .next t) : ErrorStep .accPass s t := by
  unfold execAccPass at h
  split at h
  · rename_i xs _
    split_ifs at h
    · have hin := resume_errorStep .accPass (.pass xs) s
      cases hf : frameIn s <;> rw [hf] at h hin <;> cases h <;> exact hin
    · cases h
      exact .inl rfl
  · split_ifs at h <;> cases h
    · exact .inl rfl
    · exact raise_errorStep _ s nofun

theorem execAccFinal_errorStep {s t : State} (h : execAccFinal s = .next t) : ErrorStep .accFinal s t := by
  unfold execAccFinal at h
  split at h
  · cases h
    exact .inl rfl
  · split_ifs at h <;> cases h
    · exact .inl rfl
    · exact raise_errorStep _ s nofun

theorem thdn_err (ch : Channel) (s : State) : (s.thdn ch).err = s.err :=
  (CommandEffect.reduces ch).flags.2

theorem execThdn_errorStep {ch : Channel} {s t : State} (h : execThdn ch s = .next t) : ErrorStep (.thdn ch) s t := by
  unfold execThdn at h
  split at h
  · cases h
    exact .inl rfl
  · split_ifs at h <;> cases h
    · exact .inl (thdn_err ch s)
    · exact raise_errorStep _ s nofun

theorem measurePassStep_errorStep (left : Nat) (xs : List (Rat × Rat)) (s : State) :
    ErrorStep .measure s (measurePassStep left xs s) := by
  unfold measurePassStep
  split_ifs
  · have hin := resume_errorStep .measure (.measurePass left xs) s
    cases hf : frameIn s <;> rw [hf] at hin <;> exact hin
  · exact .inl rfl

theorem execMeasure_errorStep {s t : State} (h : execMeasure s = .next t) : ErrorStep .measure s t := by
  unfold execMeasure at h
  split at h
  case h_2 left xs _ =>
    cases h
    exact measurePassStep_errorStep (left + 1) xs s
  case h_6 =>
    split_ifs at h <;> cases h
    · exact raise_errorStep _ s nofun
    · exact .inl rfl
  all_goals
    cases h
    exact .inl rfl

/-- Every command but SRST, which clears ERR. -/
theorem exec_errorStep {i : Instr} {s t : State} (hi : i ≠ .srst) (h : exec i s = .next t) : ErrorStep i s t := by
  cases i with
  | nop =>
    cases h
    exact .inl rfl
  | srst      => exact absurd rfl hi
  | discard n =>
    rw [exec, execDiscard] at h
    split at h <;> cases h <;> exact discardStep_errorStep n _ s
  | frame     => exact execFrame_errorStep h
  | accClear  => exact execAccClear_errorStep h
  | accPass   => exact execAccPass_errorStep h
  | accFinal  => exact execAccFinal_errorStep h
  | thdn ch   => exact execThdn_errorStep h
  | measure   => exact execMeasure_errorStep h

/-! ## ERR_INPUT (R234) -/

/-- A started or bypassed filter fails with the frame that the ended stream cannot fill. -/
theorem frameIn_short {s : State} (hstarted : s.cfg.hpfen = true → s.hpfst ≠ .uninit) (he : s.eos = true)
    (ht : s.cfg.tol = false) (hl : s.level < s.frameBytes) :
    frameIn s = .failed .input { s with fifo := [], stall := false } := by
  have hread := readFrame_short hl he ht
  rcases hen : s.cfg.hpfen
  · rw [frameIn_bypass hen, hread]
  · rcases hpfst_cases s with hp | hp | hp
    · exact absurd hp (hstarted hen)
    · rw [frameIn_fill hen hp, hread]
    · rw [frameIn_run hen hp, hread]

/-! ## ERR_SEQ (R235) -/

theorem exec_accPass_notOpen {s : State} (h : s.runs .accPass .start) (ho : s.accst ≠ .opened) :
    exec .accPass s = .next (s.raise .seq (encode .accPass)) := by
  rw [exec, execAccPass, progress_of_runs h]
  exact if_neg ho

theorem exec_accFinal_notOpen {s : State} (h : s.runs .accFinal .start) (ho : s.accst ≠ .opened) :
    exec .accFinal s = .next (s.raise .seq (encode .accFinal)) := by
  rw [exec, execAccFinal, progress_of_runs h]
  exact if_neg ho

theorem exec_thdn_notFinal {s : State} {ch : Channel} (h : s.runs (.thdn ch) .start) (hf : s.accst ≠ .final) :
    exec (.thdn ch) s = .next (s.raise .seq (encode (.thdn ch))) := by
  rw [exec, execThdn, progress_of_runs h]
  exact if_neg hf

end Sys2Proof.Machine

open Sys2Proof Sys2Proof.Machine

/-- Settles O13: a step that changes ERR is `raise` from the state before it, the FIFO aside, and `raise` writes ERR,
ERRCMD, SEQ and STALL alone. -/
theorem errorEntryRecordsTheCommand : Obligations.ErrorEntryRecordsTheCommand := by
  unfold Obligations.ErrorEntryRecordsTheCommand
  intro s t i p hruns hwf hstep herr hi
  rw [seqStep_of_busy hruns (decode_encode hwf)] at hstep
  obtain hsame | ⟨e, fifo, he, rfl⟩ := exec_errorStep hi hstep
  · exact absurd hsame herr
  · exact ⟨rfl, rfl, rfl, rfl, he, rfl, rfl, rfl, rfl, rfl, rfl, rfl, rfl, rfl⟩

/-- Settles O14: the three commands take up FrameIn's failure alike, and it has consumed the bytes found. -/
theorem shortFrameRaisesInput : Obligations.ShortFrameRaisesInput := by
  unfold Obligations.ShortFrameRaisesInput
  intro s i p hwants hstarted he ht hl
  rw [exec_of_wantsFrame hwants, frameIn_short hstarted he ht hl]
  rfl

/-- Settles O12: each command's check at its start, with the word that its `raise` records. -/
theorem sequencingErrors : Obligations.SequencingErrors := by
  unfold Obligations.SequencingErrors
  exact fun s => ⟨exec_accPass_notOpen, exec_accFinal_notOpen, fun ch => exec_thdn_notFinal⟩

end

section
/-! STATUS (10_state.md R39, 60_exceptions.md R231, R240): its bits and codes as read, the interrupt output, and the
flags a write clears. -/

namespace Sys2Proof.Machine

/-- A one-bit field is the bit at its place. -/
theorem getLsbD_of_extractLsb' {n k : Nat} {x : BitVec n} {b : Bool} (h : x.extractLsb' k 1 = BitVec.ofBool b) :
    x.getLsbD k = b := by
  simpa using congrArg (BitVec.getLsbD · 0) h

/-- STATUS's one-bit fields lie where R39 has them. -/
theorem statusWord_bits (s : State) :
    s.statusWord.getLsbD 0 = s.busy ∧ s.statusWord.getLsbD 1 = s.stall ∧ s.statusWord.getLsbD 2 = s.done ∧
      s.statusWord.getLsbD 3 = s.ovr ∧ s.statusWord.getLsbD 4 = s.drop ∧ s.statusWord.getLsbD 16 = s.res0.valid ∧
      s.statusWord.getLsbD 17 = s.res1.valid ∧ s.statusWord.getLsbD 18 = s.yvalid ∧
      s.statusWord.getLsbD 19 = s.eos ∧ s.statusWord.getLsbD 20 = s.irq := by
  unfold State.statusWord
  refine ⟨?_, ?_, ?_, ?_, ?_, ?_, ?_, ?_, ?_, ?_⟩
  all_goals
    apply getLsbD_of_extractLsb'
    repeat rw [BitVec.extractLsb'_append_eq_of_le (by decide)]
    exact extractLsb'_append_low _ _

/-- STATUS's codes lie where R39 has them. -/
theorem statusWord_codes (s : State) :
    s.statusWord.extractLsb' 8 4 = s.err.code ∧ s.statusWord.extractLsb' 12 2 = s.accst.code ∧
      s.statusWord.extractLsb' 14 2 = s.hpfst.code := by
  unfold State.statusWord
  refine ⟨?_, ?_, ?_⟩
  all_goals
    repeat rw [BitVec.extractLsb'_append_eq_of_le (by decide)]
    exact extractLsb'_append_low _ _

/-- IRQ by R240. -/
theorem irq_iff (s : State) : s.irq = true ↔
    (s.done = true ∧ s.cfg.ctrl.getLsbD 3 = true) ∨ (s.err ≠ .none ∧ s.cfg.ctrl.getLsbD 4 = true) := by
  rw [State.irq, Bool.or_eq_true, Bool.and_eq_true, Bool.and_eq_true, decide_eq_true_eq, Cfg.ieDone, Cfg.ieErr]

theorem memRead_status (s : State) : (s.memRead 0x030).1 = s.statusWord := memRead_value (.inr rfl)

theorem memWrite_status (s : State) (v : Word) : s.memWrite 0x030 v = s.writeStatus v := rfl

end Sys2Proof.Machine

open Sys2Proof Sys2Proof.Machine

/-- Settles O49: the word's fields, each code by the phase or error it stands for, and the write's three flags. -/
theorem statusRegister : Obligations.StatusRegister := by
  unfold Obligations.StatusRegister
  intro s v
  obtain ⟨hbusy, hstall, hdone, hovr, hdrop, hres0, hres1, hyvalid, heos, hirq⟩ := statusWord_bits s
  obtain ⟨herr, haccst, hhpfst⟩ := statusWord_codes s
  rw [memRead_status, memWrite_status]
  dsimp only
  rw [herr, haccst, hhpfst]
  refine ⟨⟨hbusy, hstall, hdone, hovr, hdrop, statusWord_reserved_low s, ?_, ?_, ?_, ?_, ?_, ?_, ?_, ?_, ?_, ?_, ?_,
    hres0, hres1, hyvalid, heos, statusWord_reserved_high s, hirq, irq_iff s⟩, rfl, rfl, rfl, rfl⟩
  all_goals
    intro h
    rw [h]
    rfl

end

section
/-! Init after SRST and hardware reset (70_reset_and_hazards.md R260-R262), and the steps of a command whose input is
missing (R272). -/

namespace Sys2Proof.Machine

/-! ## Init (R260, R261) -/

/-- Init counts its steps down and its last one is `endInit`. -/
theorem seqSteps_of_init {left : Nat} {srst : Bool} {s : State} (h : s.seq = .init left srst) :
    seqSteps (left + 1) s = .next (s.endInit srst) := by
  induction left generalizing s with
  | zero =>
    have hlast : seqStep s = .next (s.endInit srst) := by rw [seqStep, h]
    rw [seqSteps, hlast]
    rfl
  | succ k ih =>
    have hcount : seqStep s = .next { s with seq := .init k srst } := by rw [seqStep, h]
    rw [seqSteps, hcount]
    exact ih rfl

/-- The Init of SRST ends in the state that hardware reset's ends in, but for the configuration and DONE. -/
theorem endInit_beginSrst (s : State) :
    s.beginSrst.endInit true = { s.hardwareReset.endInit false with cfg := s.cfg, done := true } := rfl

/-! ## Missing input (R272) -/

/-- A started or bypassed filter waits for the frame whose bytes the stream has still to bring. -/
theorem frameIn_waiting {s : State} (hstarted : s.cfg.hpfen = true → s.hpfst ≠ .uninit) (he : s.eos = false)
    (hl : s.level < s.frameBytes) : frameIn s = .waiting { s with stall := true } := by
  have hread := readFrame_waiting hl he
  rcases hen : s.cfg.hpfen
  · rw [frameIn_bypass hen, hread]
  · rcases hpfst_cases s with hp | hp | hp
    · exact absurd hp (hstarted hen)
    · rw [frameIn_fill hen hp, hread]
    · rw [frameIn_run hen hp, hread]

/-- A command that waits goes on at the progress it holds, so that its step sets STALL alone. -/
theorem stalled_goOn_of_runs {s : State} {i : Instr} {p : Progress} (h : s.runs i p) :
    { s with stall := true }.goOn i p = { s with stall := true } :=
  goOn_of_runs (s := { s with stall := true }) h

end Sys2Proof.Machine

open Sys2Proof Sys2Proof.Machine

/-- Settles O10: either Init ends in `endInit` after its steps, which leaves of the state before it no more than SRST and
hardware reset have in common, the configuration and DONE aside; the values read at reset are then a closed fact. -/
theorem srstAndResetEndAlike : Obligations.SrstAndResetEndAlike := by
  unfold Obligations.SrstAndResetEndAlike
  refine ⟨⟨State.reset.endInit false, seqSteps_of_init rfl, by decide⟩, fun s => ⟨?_, ?_⟩⟩
  · exact (seqSteps_of_init (s := s.beginSrst) rfl).trans (congrArg _ (endInit_beginSrst s))
  · exact seqSteps_of_init (s := s.hardwareReset) rfl

/-- Settles O16: FrameIn and InByte wait, each setting STALL alone, and the command goes on where it was. -/
theorem missingInputStalls : Obligations.MissingInputStalls := by
  unfold Obligations.MissingInputStalls
  refine fun s he => ⟨fun i p hwants hstarted hl => ?_, fun count left hruns hf => ?_⟩
  · rw [exec_of_wantsFrame hwants, frameIn_waiting hstarted he hl, FrameStep.resume, stalled_goOn_of_runs hwants.1]
  · rw [exec_of_discards ⟨_, hruns, .inl rfl⟩, discardStep_waiting hf he, stalled_goOn_of_runs hruns]

end
